-- ==== Sys2Proof/Word.lean ====
section
/-! DEFINITION. The register word (spec/00_scope.md R7 `WORD`, R10) and the fixed widths of R7. -/

namespace Sys2Proof

/-- A 32-bit register word, operand word or bus address; bit 0 is the least significant (R10). -/
abbrev Word := BitVec 32

/-- A conversion result: `RES_BITS` = 12 bits, 0 to 4095 (R7). -/
abbrev Sample := BitVec 12

end Sys2Proof
end

