-- ==== Sys2Proof/Config.lean ====
section
/-! DEFINITION. The configuration record `Cfg` (spec/00_scope.md R7), the turns of the three agents (R3, R189),
and the free values that stand for the oracle's draws (R11). -/

namespace Sys2Proof

/-- `POLL_LIMIT` (R7): the original endless poll, or at most `t` polls. -/
inductive PollLimit where
  | unbounded
  | bounded (t : Nat)
deriving DecidableEq, Repr

/-- The configuration record `Cfg` of R7, one field per row of its table. Its checks W1 to W9 (R8) are in
`WellFormed.lean`. Bit positions, channel numbers and counts are numbers; a pin is 0 to 15 (`PIN_COUNT` = 16). -/
structure Cfg where
  aClkOut : Word
  bClkOut : Nat
  aClkAn : Word
  bClkAn : Nat
  aClkAdc : Word
  bClkAdc : Nat
  aModerOut : Word
  aOdrOut : Word
  aModerAn : Word
  aSqr : Word
  sq1Pos : Nat
  sq1Width : Nat
  aCr : Word
  bAdon : Nat
  bStart : Nat
  aSr : Word
  bEoc : Nat
  aDr : Word
  pinSafe : Fin 16
  pinWarning : Fin 16
  pinCritical : Fin 16
  pinPiezo : Fin 16
  pinSensor : Fin 16
  chSensor : Nat
  nCh : Nat
  stabCount : Nat
  pollLimit : PollLimit
deriving DecidableEq, Repr

/-- The example configuration EX-U of spec/95_test_vectors.md section 0 (92_eei_decisions.md D34): one port, endless
poll. It is non-normative: `State.reset` carries it for want of any other in the spec (DESIGN CHOICE, unsafe, log 1). -/
def Cfg.exU : Cfg where
  aClkOut := 0x10000000#32
  bClkOut := 0
  aClkAn := 0x10000000#32
  bClkAn := 0
  aClkAdc := 0x10000004#32
  bClkAdc := 8
  aModerOut := 0x20000000#32
  aOdrOut := 0x20000014#32
  aModerAn := 0x20000000#32
  aSqr := 0x30000034#32
  sq1Pos := 0
  sq1Width := 5
  aCr := 0x30000008#32
  bAdon := 0
  bStart := 30
  aSr := 0x30000000#32
  bEoc := 1
  aDr := 0x3000004C#32
  pinSafe := 0
  pinWarning := 1
  pinCritical := 2
  pinPiezo := 3
  pinSensor := 4
  chSensor := 4
  nCh := 15
  stabCount := 3
  pollLimit := .unbounded

/-- EX-B of spec/95_test_vectors.md: EX with `POLL_LIMIT = Bounded(2)`. -/
def Cfg.exB : Cfg := { Cfg.exU with pollLimit := .bounded 2 }

/-- EX2 of spec/95_test_vectors.md P6: EX with the analog pin on a port of its own. -/
def Cfg.ex2 : Cfg := { Cfg.exU with aModerAn := 0x20000400#32, bClkAn := 1 }

/-- One turn of one agent (R3, R189; 60_exceptions.md R198). Which turn comes next is open in the spec: it stands in
`State.schedule`, or is the free value `Config.turn` (log 5). -/
inductive Turn where
  /-- the host offers a command: command word, address word, operand A, operand B (R80) -/
  | issue (cmd addr a b : Word)
  /-- the host takes the response (R198) -/
  | take
  /-- the host resets the block (R198, R210) -/
  | reset
  /-- the sequencer does one micro-operation (R21) -/
  | sequencer
  /-- the converter completes a conversion (R160) -/
  | converter
deriving DecidableEq, Repr, Inhabited

/-- The turn an undecided schedule gives, by its number: a free value, any agent at any time (R189; log 5). -/
opaque Config.turn : Nat → Turn

/-- The word an `A_SR` read draws for its bits other than EOC (R39, R64; U7), by draw number: a free value (log 4). -/
opaque Config.statusDraw : Nat → Word

/-- EOC after a start request that finds it set (R157; U8), by draw number: a free value (log 4). -/
opaque Config.eocDraw : Nat → Bool

/-- The sample of a completed conversion, 0 to 4095 (R160, R161; U5), by draw number: a free value (log 4). -/
opaque Config.sampleDraw : Nat → Sample

/-- The word a register holds after the host's reset (R44, R210; U1), by draw number and address: a free value (log 8). -/
opaque Config.resetDraw : Nat → Word → Word

/-- The fault causes (spec/60_exceptions.md R181). `none` of the register `FCAUSE` is the Option's `none`. -/
inductive Machine.Cause where
  | illegalCommand
  | misaligned
  | unmapped
  | unclocked
  | roWrite
  | converterDisturbed
deriving DecidableEq, Repr, Inhabited

/-- `FCAUSE` after the fault on a read of an empty command latch or `T` (93_implementation_defined.md U20), whose cause
the spec does not name, by draw number: a free value (log 3). -/
opaque Config.emptyReadCause : Nat → Machine.Cause

/-- `FINFO` after that fault, which the spec does not give, by draw number: a free value (log 3). -/
opaque Config.emptyReadInfo : Nat → Word

/-- EOC after the host's reset (R44; U1), by draw number: a free value (log 8). -/
opaque Config.resetEocDraw : Nat → Bool

end Sys2Proof
end

