-- ==== Sys2Proof/Syntax.lean ====
section
/-! DEFINITION. The seven commands of spec/opcode_table.json, and the four words the host sends (spec/30_encoding.md
R80, R84, R85). -/

namespace Sys2Proof

/-- The commands, one constructor per row of the opcode table (R84), with the operands R86 assembles. -/
inductive Instr where
  /-- `RD addr` (R100) -/
  | rd (addr : Word)
  /-- `WR addr, data` (R101) -/
  | wr (addr data : Word)
  /-- `MOD addr, set_mask, clear_mask` (R102) -/
  | mod (addr setMask clearMask : Word)
  /-- `PORT_INIT mask` (R120): the operand word as sent, whose bits 31:16 must be 0 (R83, R87) -/
  | portInit (mask : Word)
  /-- `PIN_SET pin, level` (R122): the fields `PIN` and `LEVEL` of the command word -/
  | pinSet (pin : BitVec 4) (level : Bool)
  /-- `ADC_INIT` (R140) -/
  | adcInit
  /-- `ADC_READ` (R148) -/
  | adcRead
deriving DecidableEq, Repr

/-- A command as the host sends it: `(cmd_word, cmd_addr, cmd_a, cmd_b)` (R80). -/
structure CommandWords where
  cmd : Word
  addr : Word
  a : Word
  b : Word
deriving DecidableEq, Repr

/-- Why a command word is illegal (R87). Every one of them raises the same fault, `ILLEGAL_COMMAND`. -/
inductive Illegal where
  /-- a reserved bit of 31:9 is set -/
  | reservedBits
  /-- `OP` is 0x0 or 0x8 to 0xF -/
  | opcode
  /-- `PIN` or `LEVEL` is not 0 in a command that does not use it -/
  | unusedField
  /-- `PORT_INIT` with a mask bit of 31:16 set -/
  | maskHigh
deriving DecidableEq, Repr

/-- The mnemonics of R90, as the opcode table spells them. -/
def Instr.mnemonic : Instr → String
  | .rd _ => "RD"
  | .wr _ _ => "WR"
  | .mod _ _ _ => "MOD"
  | .portInit _ => "PORT_INIT"
  | .pinSet _ _ => "PIN_SET"
  | .adcInit => "ADC_INIT"
  | .adcRead => "ADC_READ"

end Sys2Proof
end

