-- ==== Sys2Proof/WellFormed.lean ====
section
/-! DEFINITION. The checks W1 to W9 of a configuration (spec/00_scope.md R8) and the one check of a command's operands
(spec/30_encoding.md R83, R87). -/

namespace Sys2Proof

namespace Cfg

/-- The clock-enable addresses (W2). -/
abbrev clockAddresses (c : Cfg) : List Word := [c.aClkOut, c.aClkAn, c.aClkAdc]

/-- The peripheral addresses (W2). -/
abbrev peripheralAddresses (c : Cfg) : List Word :=
  [c.aModerOut, c.aOdrOut, c.aModerAn, c.aSqr, c.aCr, c.aSr, c.aDr]

/-- One port carries both the outputs and the analog pin (W5). -/
abbrev onePort (c : Cfg) : Prop := c.aModerAn = c.aModerOut

/-- W1: every address is a multiple of 4. -/
abbrev W1 (c : Cfg) : Prop := ∀ a ∈ c.clockAddresses ++ c.peripheralAddresses, a.toNat % 4 = 0

/-- W2: clock-enable and peripheral addresses are disjoint. -/
abbrev W2 (c : Cfg) : Prop := ∀ a ∈ c.clockAddresses, a ∉ c.peripheralAddresses

/-- W3: the converter's four addresses are pairwise distinct and differ from the ports' three. -/
abbrev W3 (c : Cfg) : Prop :=
  [c.aSqr, c.aCr, c.aSr, c.aDr].Nodup ∧
    ∀ a ∈ [c.aSqr, c.aCr, c.aSr, c.aDr], a ∉ [c.aModerOut, c.aOdrOut, c.aModerAn]

/-- W4: a mode register is not the output-data register. -/
abbrev W4 (c : Cfg) : Prop := c.aModerOut ≠ c.aOdrOut ∧ c.aModerAn ≠ c.aOdrOut

/-- W5: one port has one clock. -/
abbrev W5 (c : Cfg) : Prop := c.onePort → c.aClkAn = c.aClkOut ∧ c.bClkAn = c.bClkOut

/-- W6: bit indices below 32, `B_ADON ≠ B_START`, SQ1 inside the word; `SQ1_WIDTH ≥ 1` is the table's own range (R7). -/
abbrev W6 (c : Cfg) : Prop :=
  (∀ b ∈ [c.bClkOut, c.bClkAn, c.bClkAdc, c.bAdon, c.bStart, c.bEoc], b < 32) ∧
    c.bAdon ≠ c.bStart ∧ 1 ≤ c.sq1Width ∧ c.sq1Pos + c.sq1Width ≤ 32

/-- W7: the managed pins are distinct, and on one port the sensor pin is none of them. -/
abbrev W7 (c : Cfg) : Prop :=
  [c.pinSafe, c.pinWarning, c.pinCritical, c.pinPiezo].Nodup ∧
    (c.onePort → c.pinSensor ∉ [c.pinSafe, c.pinWarning, c.pinCritical, c.pinPiezo])

/-- W8: the sensor's channel exists and fits the slot. -/
abbrev W8 (c : Cfg) : Prop := c.chSensor ≤ c.nCh ∧ c.chSensor < 2 ^ c.sq1Width

/-- W9: a bounded poll polls at least once. -/
abbrev W9 (c : Cfg) : Prop :=
  match c.pollLimit with
  | .unbounded => True
  | .bounded t => 1 ≤ t

/-- Every check of R8 holds. The spec admits only well-formed configurations; statements take this as a premise. -/
structure WF (c : Cfg) : Prop where
  w1 : c.W1
  w2 : c.W2
  w3 : c.W3
  w4 : c.W4
  w5 : c.W5
  w6 : c.W6
  w7 : c.W7
  w8 : c.W8
  w9 : c.W9

end Cfg

/-- A command's operands are encodable: `PORT_INIT`'s mask has bits 31:16 = 0 (R83, R87). The other operands take every
value of their width. -/
abbrev Instr.WF : Instr → Prop
  | .portInit mask => mask.extractLsb' 16 16 = 0#16
  | .rd _ => True
  | .wr _ _ => True
  | .mod _ _ _ => True
  | .pinSet _ _ => True
  | .adcInit => True
  | .adcRead => True

end Sys2Proof
end

