-- ==== Sys2Proof/Decode.lean ====
section
/-! DEFINITION. Command decoding and encoding (spec/30_encoding.md R82 to R89). -/

namespace Sys2Proof

/-- Field `OP`, bits 3:0 of the command word (R82). -/
def opField (c : Word) : BitVec 4 := c.extractLsb' 0 4

/-- Field `PIN`, bits 7:4 of the command word (R82, R86). -/
def pinField (c : Word) : BitVec 4 := c.extractLsb' 4 4

/-- Field `LEVEL`, bit 8 of the command word (R82, R86). -/
def levelField (c : Word) : Bool := c.getLsbD 8

/-- Field `RSV`, bits 31:9 of the command word (R82). -/
def rsvField (c : Word) : BitVec 23 := c.extractLsb' 9 23

/-- Bits 8:4 of the command word, `LEVEL` and `PIN` together, as R87 tests them. -/
def pinLevelField (c : Word) : BitVec 5 := c.extractLsb' 4 5

/-- `legal(c, a)` of R87, as the rule writes it. -/
def legal (c a : Word) : Bool :=
  rsvField c == 0#23 &&
    match (opField c).toNat with
    | 1 | 2 | 3 | 6 | 7 => pinLevelField c == 0#5
    | 4 => pinLevelField c == 0#5 && a.extractLsb' 16 16 == 0#16
    | 5 => true
    | _ => false

/-- The decoder (R84 to R87): `OP` alone selects the form, and what `legal` rejects is rejected here by name. Words an
opcode ignores are dropped (R83). -/
def decode (w : CommandWords) : Except Illegal Instr :=
  if rsvField w.cmd ≠ 0#23 then .error .reservedBits
  else
    match (opField w.cmd).toNat with
    | 1 => plain w.cmd (.rd w.addr)
    | 2 => plain w.cmd (.wr w.addr w.a)
    | 3 => plain w.cmd (.mod w.addr w.a w.b)
    | 4 =>
      if pinLevelField w.cmd ≠ 0#5 then .error .unusedField
      else if w.a.extractLsb' 16 16 ≠ 0#16 then .error .maskHigh
      else .ok (.portInit w.a)
    | 5 => .ok (.pinSet (pinField w.cmd) (levelField w.cmd))
    | 6 => plain w.cmd .adcInit
    | 7 => plain w.cmd .adcRead
    | _ => .error .opcode
where
  /-- a command that uses neither `PIN` nor `LEVEL` -/
  plain (c : Word) (i : Instr) : Except Illegal Instr :=
    if pinLevelField c ≠ 0#5 then .error .unusedField else .ok i

/-- The opcode of a command (R84). -/
def opcode : Instr → Word
  | .rd _ => 1#32
  | .wr _ _ => 2#32
  | .mod _ _ _ => 3#32
  | .portInit _ => 4#32
  | .pinSet _ _ => 5#32
  | .adcInit => 6#32
  | .adcRead => 7#32

/-- The encoder (R85): the words of a command, with 0 for a word the opcode ignores. -/
def encode (i : Instr) : CommandWords :=
  match i with
  | .rd addr => ⟨opcode i, addr, 0, 0⟩
  | .wr addr data => ⟨opcode i, addr, data, 0⟩
  | .mod addr s c => ⟨opcode i, addr, s, c⟩
  | .portInit mask => ⟨opcode i, 0, mask, 0⟩
  | .pinSet pin level =>
    ⟨opcode i ||| (pin.zeroExtend 32 <<< 4) ||| ((BitVec.ofBool level).zeroExtend 32 <<< 8), 0, 0, 0⟩
  | .adcInit => ⟨opcode i, 0, 0, 0⟩
  | .adcRead => ⟨opcode i, 0, 0, 0⟩

/-- The four command words of a number laid out as spec/opcode_table.json numbers bits: the command word is bits 31:0
and each operand word counts on from it, in the order of R80. Only the low `nbits` bits count. -/
def wordsOfNat (nbits w : Nat) : CommandWords :=
  let v := w % 2 ^ nbits
  ⟨BitVec.ofNat 32 v, BitVec.ofNat 32 (v / 2 ^ 32), BitVec.ofNat 32 (v / 2 ^ 64), BitVec.ofNat 32 (v / 2 ^ 96)⟩

/-- The command the decoder reads from a table word, or none where it refuses. -/
def decodeTableWord (nbits w : Nat) : Option Instr := (decode (wordsOfNat nbits w)).toOption

end Sys2Proof
end

