-- ==== Sys2Proof/Machine/Operands.lean ====
section
/-! DEFINITION. Bit fields, the merge of a read-modify-write, the masks of the micro-programs and the address map
(spec/00_scope.md R9, R10; 10_state.md R31, R35, R37; 40_register_access.md R103; 41_digital_output.md R121). -/

namespace Sys2Proof.Machine

/-- `bit(i)`: the word with only bit `i` set; a bit shifted past 31 is lost (R10). -/
def bit (i : Nat) : Word := 1#32 <<< i

/-- `zext_32` of one bit (R10). -/
def zextBit (b : Bool) : Word := if b then 1#32 else 0#32

/-- `Merge(old, set_mask, clear_mask)` (R103): clear first, then set. -/
def merge (old setMask clearMask : Word) : Word := (old &&& ~~~clearMask) ||| setMask

/-- `MODE(w, n) = w[2n+1:2n]` (R35). -/
def modeField (w : Word) (n : Nat) : BitVec 2 := w.extractLsb' (2 * n) 2

/-- `MODE` encoding of an input pin (R35). -/
def modeInput : BitVec 2 := 0b00#2

/-- `MODE` encoding of an output pin (R35). -/
def modeOutput : BitVec 2 := 0b01#2

/-- `MODE` encoding of a pin in alternate function (R35). -/
def modeAlternate : BitVec 2 := 0b10#2

/-- `MODE` encoding of an analog pin (R35). -/
def modeAnalog : BitVec 2 := 0b11#2

/-- A mode value placed in the field of pin `n` (R35). -/
def modeBits (mode : BitVec 2) (n : Nat) : Word := mode.zeroExtend 32 <<< (2 * n)

/-- OR over the pins `n` in 0..15 with `m[n] = 1` of `mode << 2n`. -/
def modeMask (mode : BitVec 2) (m : Word) : Word :=
  (List.range 16).foldl (fun acc n => if m.getLsbD n then acc ||| modeBits mode n else acc) 0#32

/-- `OutClr(m)` (R121): the whole field of every pin of the mask. -/
def outClr (m : Word) : Word := modeMask modeAnalog m

/-- `OutSet(m)` (R121): the output encoding in the field of every pin of the mask. -/
def outSet (m : Word) : Word := modeMask modeOutput m

/-- `SQ1_MASK` (R37). -/
def sq1Mask (c : Cfg) : Word := BitVec.ofNat 32 (2 ^ c.sq1Width - 1) <<< c.sq1Pos

/-- `CH_SENSOR << SQ1_POS` (R140). -/
def sensorChannelBits (c : Cfg) : Word := BitVec.ofNat 32 c.chSensor <<< c.sq1Pos

/-- The channel in the first sequence slot, field SQ1 of a sequence word (R37). -/
def sq1Field (c : Cfg) (w : Word) : Nat := (w.extractLsb' c.sq1Pos c.sq1Width).toNat

/-- `MAPPED` (R9), as the list of the configured addresses; equal parameters name one register. -/
def mapped (c : Cfg) : List Word := c.clockAddresses ++ c.peripheralAddresses

/-- The clock domains (R31). -/
inductive Domain where
  | always
  | out
  | an
  | adc
deriving DecidableEq, Repr

/-- The clock domain of a mapped register (R31), none for an unmapped address. Where the two mode registers are one,
W5 makes `AN` and `OUT` the same. -/
def domainOf (c : Cfg) (a : Word) : Option Domain :=
  if a ∈ c.clockAddresses then some .always
  else if a = c.aModerOut ∨ a = c.aOdrOut then some .out
  else if a = c.aModerAn then some .an
  else if a = c.aSqr ∨ a = c.aCr ∨ a = c.aSr ∨ a = c.aDr then some .adc
  else none

end Sys2Proof.Machine
end

