-- ==== Sys2Proof/Machine/Memory.lean ====
section
/-! DEFINITION. The peripheral register file `REG` as sparse data: word cells keyed by address (spec/10_state.md R29,
spec/20_memory.md R60, R61, R63). -/

namespace Sys2Proof.Machine

/-- `REG`: pairs of an address and the 32-bit word stored there. The bus has no byte lanes (R63), so a cell is a word
(log 12). Which addresses exist is `Cfg.mapped`, checked by every bus access. -/
abbrev Memory := List (Nat × Word)

/-- The canonical form: addresses strictly rising, no entry equal to what an unlisted address reads as. -/
abbrev Memory.wf (m : Memory) : Prop := m.Pairwise (fun p q => p.1 < q.1) ∧ ∀ p ∈ m, p.2 ≠ 0#32

/-- The stored word at an address. An unlisted address reads as 0 (DESIGN CHOICE for the reset contents, which the
spec leaves open: unsafe, log 2). -/
def Memory.read : Memory → Nat → Word
  | [], _ => 0#32
  | (k, v) :: m, a => if k = a then v else Memory.read m a

/-- Put a word in front, unless it is what an unlisted address reads as. -/
def Memory.cons (a : Nat) (v : Word) (m : Memory) : Memory := if v = 0#32 then m else (a, v) :: m

/-- Store a word at an address, keeping the canonical form. -/
def Memory.write : Memory → Nat → Word → Memory
  | [], a, v => Memory.cons a v []
  | (k, w) :: m, a, v =>
    if a < k then Memory.cons a v ((k, w) :: m)
    else if a = k then Memory.cons a v m
    else (k, w) :: Memory.write m a v

end Sys2Proof.Machine
end

