-- ==== Sys2Proof/Machine/State.lean ====
section
/-! DEFINITION. The state of the block (spec/10_state.md R20 to R44), its reset value, and the reasons a step can stop. -/

namespace Sys2Proof.Machine

/-- The sequencer's phases (R22). -/
inductive Phase where
  | idle
  | decode
  | exec
  | stabWait
  | startRequested
  | converting
  | done
  | fault
deriving DecidableEq, Repr

/-- A response (R25). `none` of the response slot is the Option's `none`. -/
inductive Response where
  | ok
  | data (w : Word)
  | timeout
deriving DecidableEq, Repr

/-- `CONV` (R32): no conversion, or one in flight with its latched channel and its trust mark. -/
inductive Conv where
  | idle
  | converting (ch : Nat) (trusted : Bool)
deriving DecidableEq, Repr

/-- The events of `TRACE` (R42). -/
inductive Event where
  | issue (cmd addr a b : Word)
  | busRd (a v : Word)
  | busWr (a v : Word)
  | convStart (ch : Nat) (trusted : Bool)
  | convDone (ch : Nat) (trusted : Bool) (s : Sample)
  | rsp (r : Response)
  | fault (cause : Cause) (info : Word)
deriving DecidableEq, Repr

/-- The whole state `S = (SEQ, REG, CONV, SETTLED, TRACE)` of R20, the configuration that every step takes (R20; log 1),
and the model's own counters and schedule (logs 4 and 5). -/
structure State where
  /-- the configuration, which no step changes -/
  cfg : Cfg
  /-- `phase` (R22) -/
  phase : Phase
  /-- `UPC`, the micro-step index (R24) -/
  upc : BitVec 4
  /-- `CNT`, the wait or poll counter, a natural number (R24) -/
  cnt : Nat
  /-- `CMD`; no value before the first issue (R23, R28) -/
  cmd : Option Word
  /-- `OPADDR` (R23, R28) -/
  opaddr : Option Word
  /-- `OPA` (R23, R28) -/
  opa : Option Word
  /-- `OPB` (R23, R28) -/
  opb : Option Word
  /-- `T`, the word latched by a read half (R24, R28) -/
  t : Option Word
  /-- `RSP`, the response slot (R25) -/
  rsp : Option Response
  /-- `FCAUSE` (R26) -/
  fcause : Option Cause
  /-- `FINFO` (R26) -/
  finfo : Word
  /-- `REG`, but for `A_SR`, whose only stored bit is `eoc` (R29, R39) -/
  regs : Memory
  /-- `EOC`, bit `B_EOC` of `A_SR` (R39) -/
  eoc : Bool
  /-- `CONV` (R32) -/
  conv : Conv
  /-- `SETTLED` (R33) -/
  settled : Bool
  /-- `TRACE`, oldest event first (R42) -/
  trace : List Event
  /-- the model's own: how many oracle draws have been made (log 4) -/
  draws : Nat
  /-- the model's own: the turns already decided, next first (log 5) -/
  schedule : List Turn
  /-- the model's own: how many turns came from the free schedule (log 5) -/
  turns : Nat
deriving DecidableEq, Repr

/-- The model's stops. The spec's own faults are NOT here: entering `FAULT` is a next state (R186). -/
inductive Fault where
  /-- `phase` and `UPC` select no micro-operation of the command (R21, R27), or the wait counter has nothing left to
  count down (R145). Raised by every meaning outside its own micro-program, and by the sequencer's step for a latched
  word that is no command outside `DECODE`. Safe: a stuck state no run from reset reaches (log 10). -/
  | noMicroOperation
deriving DecidableEq, Repr

/-- The model's refusals. -/
inductive Refusal where
  /-- `exec`'s answer for a command without a meaning. No arm gives it: all seven are modelled. Safe. -/
  | notModelled (mnemonic : String)
deriving DecidableEq, Repr

/-- What a step or a micro-operation answers. -/
abbrev Result := Host.Outcome State Fault Refusal

/-- The state right after reset (R44, R210, R211) under a configuration. The spec leaves the register contents and EOC
open (U1); here they are those of its premise `CleanReset`: every word 0, EOC 0 (DESIGN CHOICE, unsafe, log 2). The
host's reset action during a run draws them instead (`hostReset`, log 8). -/
def State.resetWith (c : Cfg) : State where
  cfg := c
  phase := .idle
  upc := 0#4
  cnt := 0
  cmd := none
  opaddr := none
  opa := none
  opb := none
  t := none
  rsp := none
  fcause := none
  finfo := 0#32
  regs := []
  eoc := false
  conv := .idle
  settled := false
  trace := []
  draws := 0
  schedule := []
  turns := 0

/-- The machine right after reset, under the spec's only concrete configuration, EX-U (DESIGN CHOICE, unsafe, log 1). -/
def State.reset : State := State.resetWith Cfg.exU

end Sys2Proof.Machine
end

