-- ==== Sys2Proof/Machine/Flags.lean ====
section
/-! DEFINITION. The flags of the block and what reads them (spec/10_state.md R31, R33, R38, R39, R43;
spec/20_memory.md R69; spec/42_analog_input.md R158). -/

namespace Sys2Proof.Machine

/-- `REG[a]` (R11, R29). -/
def State.reg (s : State) (a : Word) : Word := s.regs.read a.toNat

/-- `ADON`, bit `B_ADON` of `A_CR` (R38). -/
def State.adon (s : State) : Bool := (s.reg s.cfg.aCr).getLsbD s.cfg.bAdon

/-- The converter's clock bit, `REG[A_CLK_ADC][B_CLK_ADC]` (R31, R34). -/
def State.adcClock (s : State) : Bool := (s.reg s.cfg.aClkAdc).getLsbD s.cfg.bClkAdc

/-- The output port's clock bit, `REG[A_CLK_OUT][B_CLK_OUT]` (R31, R34). -/
def State.outClock (s : State) : Bool := (s.reg s.cfg.aClkOut).getLsbD s.cfg.bClkOut

/-- The analog port's clock bit, `REG[A_CLK_AN][B_CLK_AN]` (R31, R34). -/
def State.anClock (s : State) : Bool := (s.reg s.cfg.aClkAn).getLsbD s.cfg.bClkAn

/-- A domain is enabled (R31). -/
def State.enabled (s : State) : Domain → Bool
  | .always => true
  | .out => s.outClock
  | .an => s.anClock
  | .adc => s.adcClock

/-- `clocked(a)` (R31); an unmapped address has no domain, and every access checks `MAPPED` first. -/
def State.clocked (s : State) (a : Word) : Bool :=
  match domainOf s.cfg a with
  | some d => s.enabled d
  | none => false

/-- What a read of `A_SR` returns (R39, R64): EOC in bit `B_EOC`, the drawn word elsewhere. -/
def statusWord (c : Cfg) (d : Word) (eoc : Bool) : Word := (d &&& ~~~bit c.bEoc) ||| (zextBit eoc <<< c.bEoc)

/-- `Disturbs(a, v)` (R69): the write would change the converter under a conversion in flight. -/
def State.disturbs (s : State) (a v : Word) : Bool :=
  s.conv != .idle &&
    ((a == s.cfg.aCr && (v.getLsbD s.cfg.bStart || !v.getLsbD s.cfg.bAdon)) ||
      a == s.cfg.aSqr ||
      (a == s.cfg.aClkAdc && !v.getLsbD s.cfg.bClkAdc))

/-- `Trusted(ch)` (R158): settled, on the sensor's channel, with the sensor pin in analog mode. -/
def State.trusted (s : State) (ch : Nat) : Bool :=
  s.settled && ch == s.cfg.chSensor && modeField (s.reg s.cfg.aModerAn) s.cfg.pinSensor == modeAnalog

/-- `busy` (R43, R81). -/
def State.busy (s : State) : Bool := s.phase != .idle && s.phase != .fault

/-- `fault` (R43, R81). -/
def State.faulted (s : State) : Bool := s.phase == .fault

/-- `ready` (R81): the interface takes a command. -/
def State.ready (s : State) : Bool := s.phase == .idle && s.rsp.isNone

end Sys2Proof.Machine
end

