-- ==== Sys2Proof/Machine/Ops.lean ====
section
/-! DEFINITION. The operations every command shares: fault entry, responses, bus accesses with their checks and effects,
the halves of a read-modify-write (spec/20_memory.md, 40_register_access.md, 42_analog_input.md, 60_exceptions.md). -/

namespace Sys2Proof.Machine

/-- Append an event to `TRACE` (R42). -/
def State.log (s : State) (e : Event) : State := { s with trace := s.trace ++ [e] }

/-- Fault entry (R186): `phase`, `FCAUSE`, `FINFO` and the event; nothing else changes, nothing is rolled back. There
is no return: only reset leaves `FAULT` (R188). -/
def takeFault (cause : Cause) (info : Word) (s : State) : State :=
  { s with phase := .fault, fcause := some cause, finfo := info, trace := s.trace ++ [.fault cause info] }

/-- A read of a command latch or of `T` that holds no value (R28; 93_implementation_defined.md U20): the sequencer enters
`FAULT` by R186. The spec names neither cause nor info: both are free values (log 3). No run from reset gets here. -/
def faultEmptyRead (s : State) : State :=
  takeFault (Config.emptyReadCause s.draws) (Config.emptyReadInfo s.draws) s

/-- `respond(r)` (R25): fill the response slot and return to `IDLE` in one step. The `Rsp` event belongs here, where
the worked traces of 95_test_vectors.md have it (DEDUCED, unsafe, log 9). -/
def respond (r : Response) (s : State) : State :=
  { s with rsp := some r, phase := .idle, trace := s.trace ++ [.rsp r] }

/-- The checks every access makes, in order: alignment (R70), mapping (R71), clock (R68). -/
def accessFault (s : State) (a : Word) : Option Cause :=
  if a.extractLsb' 0 2 ≠ 0#2 then some .misaligned
  else if a ∉ mapped s.cfg then some .unmapped
  else if s.clocked a = false then some .unclocked
  else none

/-- `WriteCheck(a)` (R104): the access checks, then read-only registers (R67). -/
def writeCheck (s : State) (a : Word) : Option Cause :=
  match accessFault s a with
  | some c => some c
  | none => if a = s.cfg.aSr ∨ a = s.cfg.aDr then some .roWrite else none

/-- Every check of `BusWrite(a, v)` (R65): `WriteCheck`, then a conversion that would be disturbed (R69). -/
def writeFault (s : State) (a v : Word) : Option Cause :=
  match writeCheck s a with
  | some c => some c
  | none => if s.disturbs a v then some .converterDisturbed else none

/-- The word a read that passed its checks returns (R64): EOC and drawn bits for `A_SR` (R39, R66), the stored word for
every other register. -/
def readValue (a : Word) (s : State) : Word :=
  if a = s.cfg.aSr then statusWord s.cfg (Config.statusDraw s.draws) s.eoc else s.reg a

/-- The state after a read that passed its checks (R64): the draw of `A_SR` is used up, `A_DR` clears EOC (R66), and the
access is recorded. -/
def afterRead (a : Word) (s : State) : State :=
  State.log
    (if a = s.cfg.aSr then { s with draws := s.draws + 1 }
      else if a = s.cfg.aDr then { s with eoc := false }
      else s)
    (.busRd a (readValue a s))

/-- `BusRead(a)` (R64): the cause of the fault, or the word and the state after. -/
def busRead (a : Word) (s : State) : Except Cause (Word × State) :=
  match accessFault s a with
  | some c => .error c
  | none => .ok (readValue a s, afterRead a s)

/-- EOC after a start request (R157): drawn if it was set (93_implementation_defined.md U8), kept otherwise. -/
def startEoc (s : State) : State :=
  if s.eoc then { s with eoc := Config.eocDraw s.draws, draws := s.draws + 1 } else s

/-- `StartRequest()` (R157): with ADON set, latch the channel and its trust mark and start; otherwise ignored (R159). -/
def startRequest (s : State) : State :=
  if s.adon then
    let ch := sq1Field s.cfg (s.reg s.cfg.aSqr)
    let tr := s.trusted ch
    { (startEoc s).log (.convStart ch tr) with conv := .converting ch tr }
  else s

/-- Clear `SETTLED` where a condition holds (R33). -/
def unsettleIf (b : Bool) (s : State) : State := if b then { s with settled := false } else s

/-- Make a start request where a condition holds. -/
def startIf (b : Bool) (s : State) : State := if b then startRequest s else s

/-- `WriteEffects(a, old, v)` (R156): an ADON change clears `SETTLED`, then a start request is judged, then a cleared
converter clock clears `SETTLED`. -/
def writeEffects (a old v : Word) (s : State) : State :=
  unsettleIf (a == s.cfg.aClkAdc && !v.getLsbD s.cfg.bClkAdc)
    (startIf (a == s.cfg.aCr && v.getLsbD s.cfg.bStart)
      (unsettleIf (a == s.cfg.aCr && old.getLsbD s.cfg.bAdon != v.getLsbD s.cfg.bAdon) s))

/-- The word a write stores (R65): START is not stored in `A_CR` (R38). -/
def storedWord (c : Cfg) (a v : Word) : Word := if a = c.aCr then v &&& ~~~bit c.bStart else v

/-- Store a word in `REG`. -/
def State.setReg (s : State) (a v : Word) : State := { s with regs := s.regs.write a.toNat v }

/-- The state after a write that passed its checks (R65): the word stored, the access recorded, then its effects. -/
def afterWrite (a v : Word) (s : State) : State :=
  writeEffects a (s.reg a) v ((s.setReg a (storedWord s.cfg a v)).log (.busWr a v))

/-- `BusWrite(a, v)` (R65): the cause of the fault, or the state after. -/
def busWrite (a v : Word) (s : State) : Except Cause State :=
  match writeFault s a v with
  | some c => .error c
  | none => .ok (afterWrite a v s)

/-- A micro-operation whose bus access is a read: on a fault the fault is taken, otherwise `k` finishes the step. -/
def onRead (a : Word) (s : State) (k : Word → State → State) : Result :=
  match busRead a s with
  | .error c => .next (takeFault c a s)
  | .ok (v, s') => .next (k v s')

/-- A micro-operation whose bus access is a write: on a fault the fault is taken, otherwise `k` finishes the step. -/
def onWrite (a v : Word) (s : State) (k : State → State) : Result :=
  match busWrite a v s with
  | .error c => .next (takeFault c a s)
  | .ok s' => .next (k s')

/-- `UPC <- UPC + 1` (R27). -/
def nextMicro (s : State) : State := { s with upc := s.upc + 1#4 }

/-- `DECODE` of a legal command (R88): enter the phase with `UPC = 0`. -/
def enter (p : Phase) (s : State) : State := { s with phase := p, upc := 0#4 }

/-- `T <- v` (R24). -/
def latchT (v : Word) (s : State) : State := { s with t := some v }

/-- The read half of a read-modify-write: `T <- BusRead(a); UPC <- UPC + 1`. -/
def readHalf (a : Word) (s : State) : Result :=
  onRead a s fun v s' => nextMicro (latchT v s')

/-- The write half of a read-modify-write: `BusWrite(a, Merge(T, set, clear))`, then `k`. An empty `T` faults
(R28). -/
def writeHalf (a setMask clearMask : Word) (s : State) (k : State → State) : Result :=
  match s.t with
  | none => .next (faultEmptyRead s)
  | some w => onWrite a (merge w setMask clearMask) s k

/-- `CNT <- n` (R24). -/
def setCnt (n : Nat) (s : State) : State := { s with cnt := n }

/-- `phase <- p`, leaving `UPC` as it is (R11, R27; log 14). -/
def setPhase (p : Phase) (s : State) : State := { s with phase := p }

/-- `SETTLED <- true` (R33). -/
def settle (s : State) : State := { s with settled := true }

/-- After the start trigger is written (R150): `CNT <- 0; phase <- CONVERTING`. -/
def startPolling (s : State) : State := setPhase .converting (setCnt 0 s)

/-- `EndStab()` (R146): settled if ADON is set, and the response `OK`. -/
def endStab (s : State) : State := respond .ok (if s.adon then settle s else s)

/-- The end of `ADC_INIT`'s last register step (R140): no wait, or the wait of `STAB_COUNT` steps. -/
def beginStab (s : State) : State :=
  if s.cfg.stabCount = 0 then endStab s else setPhase .stabWait (setCnt s.cfg.stabCount s)

/-- One step of `STAB_WAIT` (R145). A counter at 0 has nothing to count down (log 10). -/
def stabTick (s : State) : Result :=
  match s.cnt with
  | 0 => .fault .noMicroOperation
  | n + 1 => .next (if n = 0 then endStab (setCnt n s) else setCnt n s)

/-- After one poll that read the status word `v` (R151, R152): EOC set leaves for `DONE`, otherwise a bounded poll
counts and may time out, and an unbounded one stays. -/
def afterPoll (v : Word) (s : State) : State :=
  if v.getLsbD s.cfg.bEoc then setPhase .done s
  else
    match s.cfg.pollLimit with
    | .unbounded => s
    | .bounded n =>
      if s.cnt + 1 = n then respond .timeout (setCnt (s.cnt + 1) s) else setCnt (s.cnt + 1) s

/-- The 12-bit result of a data word, zero-extended to a response word (R153). -/
def resultWord (d : Word) : Word := (d.extractLsb' 0 12).zeroExtend 32

end Sys2Proof.Machine
end

