-- ==== Sys2Proof/Machine/Agents.lean ====
section
/-! DEFINITION. The host's actions, the converter's step, the command latches and the choice of the next turn
(spec/60_exceptions.md R189, R198; 42_analog_input.md R160; 70_reset_and_hazards.md R210). -/

namespace Sys2Proof.Machine

/-- Latch a command and start it (R80, R198). -/
def latchCommand (w : CommandWords) (s : State) : State :=
  { s with cmd := some w.cmd, opaddr := some w.addr, opa := some w.a, opb := some w.b, phase := .decode }

/-- The latched command (R23). The four latches are written together and read together; if one holds no value there is
no command to read (R28; log 3). -/
def latched (s : State) : Option CommandWords :=
  match s.cmd, s.opaddr, s.opa, s.opb with
  | some c, some a, some x, some y => some ⟨c, a, x, y⟩
  | _, _, _, _ => none

/-- The host's `issue` (R198). A command offered while the interface is not ready is not taken: the state does not
change and the command waits with the host (93_implementation_defined.md U17; log 6). -/
def hostIssue (w : CommandWords) (s : State) : State :=
  if s.ready then latchCommand w (s.log (.issue w.cmd w.addr w.a w.b)) else s

/-- The host's `take` (R198): empty the response slot. -/
def hostTake (s : State) : State := { s with rsp := none }

/-- What the host's reset leaves in a register (R44): a draw, with `B_START` of `A_CR` and bits 31:12 of `A_DR` at 0.
`A_SR` has no stored word (log 13). -/
def resetWord (c : Cfg) (n : Nat) (a : Word) : Word :=
  if a = c.aSr then 0#32
  else if a = c.aCr then Config.resetDraw n a &&& ~~~bit c.bStart
  else if a = c.aDr then Config.resetDraw n a &&& 0xFFF#32
  else Config.resetDraw n a

/-- The register file after the host's reset (R44, R210): one draw for each mapped address (U1). -/
def resetRegs (c : Cfg) (n : Nat) : Memory :=
  (mapped c).foldl (fun m a => m.write a.toNat (resetWord c n a)) []

/-- The host's `reset` (R210): every piece of the block's state at its reset value (R44), the open ones drawn afresh
(log 8). The configuration, the draw counter and the schedule are no state of the block and go on. -/
def hostReset (s : State) : State :=
  { State.resetWith s.cfg with
    regs := resetRegs s.cfg s.draws
    eoc := Config.resetEocDraw s.draws
    draws := s.draws + 1
    schedule := s.schedule
    turns := s.turns }

/-- The converter's completion (R160, R161): a drawn sample into `A_DR`, EOC set, `CONV` idle. No conversion in flight,
no step (R12). -/
def converterStep (s : State) : State :=
  match s.conv with
  | .idle => s
  | .converting ch tr =>
    let v := Config.sampleDraw s.draws
    { (s.setReg s.cfg.aDr (v.zeroExtend 32)).log (.convDone ch tr v) with
      eoc := true, conv := .idle, draws := s.draws + 1 }

/-- `DECODE` of an illegal command (R87, R88). A latched word that is no command selects no micro-operation in any
other phase (log 10). -/
def rejectCommand (w : CommandWords) (s : State) : Result :=
  if s.phase = .decode then .next (takeFault .illegalCommand w.cmd s) else .fault .noMicroOperation

/-- The next turn, and the state with that turn used up (R189; log 5). -/
def nextTurn (s : State) : Turn × State :=
  match s.schedule with
  | turn :: rest => (turn, { s with schedule := rest })
  | [] => (Config.turn s.turns, { s with turns := s.turns + 1 })

end Sys2Proof.Machine
end

