-- ==== Sys2Proof/Machine/AnalogInput.lean ====
section
/-! DEFINITION. The analog input commands `ADC_INIT` and `ADC_READ` (spec/42_analog_input.md). Each meaning is ONE
micro-operation (spec/10_state.md R21; log 11). -/

namespace Sys2Proof.Machine

/-- `ADC_INIT` (R140, R141): five read-modify-writes in order, then the stabilization wait (R145, R146). -/
def execAdcInit (s : State) : Result :=
  match s.phase with
  | .decode => .next (enter .exec s)
  | .exec =>
    match s.upc.toNat with
    | 0 => readHalf s.cfg.aClkAn s
    | 1 => writeHalf s.cfg.aClkAn (bit s.cfg.bClkAn) 0#32 s nextMicro
    | 2 => readHalf s.cfg.aClkAdc s
    | 3 => writeHalf s.cfg.aClkAdc (bit s.cfg.bClkAdc) 0#32 s nextMicro
    | 4 => readHalf s.cfg.aModerAn s
    | 5 => writeHalf s.cfg.aModerAn (modeBits modeAnalog s.cfg.pinSensor) 0#32 s nextMicro
    | 6 => readHalf s.cfg.aSqr s
    | 7 => writeHalf s.cfg.aSqr (sensorChannelBits s.cfg) (sq1Mask s.cfg) s nextMicro
    | 8 => readHalf s.cfg.aCr s
    | 9 => writeHalf s.cfg.aCr (bit s.cfg.bAdon) 0#32 s beginStab
    | _ => .fault .noMicroOperation
  | .stabWait => stabTick s
  | _ => .fault .noMicroOperation

/-- `ADC_READ` (R148 to R153): the start trigger, the poll, the data read. -/
def execAdcRead (s : State) : Result :=
  match s.phase with
  | .decode => .next (enter .startRequested s)
  | .startRequested =>
    match s.upc.toNat with
    | 0 => readHalf s.cfg.aCr s
    | 1 => writeHalf s.cfg.aCr (bit s.cfg.bStart) 0#32 s startPolling
    | _ => .fault .noMicroOperation
  | .converting => onRead s.cfg.aSr s afterPoll
  | .done => onRead s.cfg.aDr s fun d s' => respond (.data (resultWord d)) s'
  | _ => .fault .noMicroOperation

end Sys2Proof.Machine
end

