-- ==== Sys2Proof/Machine/DigitalOutput.lean ====
section
/-! DEFINITION. The digital output commands `PORT_INIT` and `PIN_SET` (spec/41_digital_output.md). Each meaning is ONE
micro-operation (spec/10_state.md R21; log 11). -/

namespace Sys2Proof.Machine

/-- `PORT_INIT mask` (R120): port clock on, then every pin of the mask into output mode. Only mask bits 15:0 act (R86). -/
def execPortInit (mask : Word) (s : State) : Result :=
  match s.phase with
  | .decode => .next (enter .exec s)
  | .exec =>
    match s.upc.toNat with
    | 0 => readHalf s.cfg.aClkOut s
    | 1 => writeHalf s.cfg.aClkOut (bit s.cfg.bClkOut) 0#32 s nextMicro
    | 2 => readHalf s.cfg.aModerOut s
    | 3 => writeHalf s.cfg.aModerOut (outSet mask) (outClr mask) s (respond .ok)
    | _ => .fault .noMicroOperation
  | _ => .fault .noMicroOperation

/-- `PIN_SET pin, level` (R122): set or clear one output-state latch. -/
def execPinSet (pin : BitVec 4) (level : Bool) (s : State) : Result :=
  match s.phase with
  | .decode => .next (enter .exec s)
  | .exec =>
    match s.upc.toNat with
    | 0 => readHalf s.cfg.aOdrOut s
    | 1 =>
      if level then writeHalf s.cfg.aOdrOut (bit pin.toNat) 0#32 s (respond .ok)
      else writeHalf s.cfg.aOdrOut 0#32 (bit pin.toNat) s (respond .ok)
    | _ => .fault .noMicroOperation
  | _ => .fault .noMicroOperation

end Sys2Proof.Machine
end

