-- ==== Sys2Proof/Machine/RegisterAccess.lean ====
section
/-! DEFINITION. The register access commands `RD`, `WR`, `MOD` (spec/40_register_access.md). Each meaning is ONE
micro-operation, the one `phase` and `UPC` select (spec/10_state.md R21; log 11). -/

namespace Sys2Proof.Machine

/-- `RD addr` (R100). -/
def execRd (addr : Word) (s : State) : Result :=
  match s.phase with
  | .decode => .next (enter .exec s)
  | .exec =>
    match s.upc.toNat with
    | 0 => onRead addr s fun v s' => respond (.data v) (latchT v s')
    | _ => .fault .noMicroOperation
  | _ => .fault .noMicroOperation

/-- `WR addr, data` (R101). -/
def execWr (addr data : Word) (s : State) : Result :=
  match s.phase with
  | .decode => .next (enter .exec s)
  | .exec =>
    match s.upc.toNat with
    | 0 => onWrite addr data s (respond .ok)
    | _ => .fault .noMicroOperation
  | _ => .fault .noMicroOperation

/-- `MOD addr, set_mask, clear_mask` (R102): a register it cannot write is not read either (R104). -/
def execMod (addr setMask clearMask : Word) (s : State) : Result :=
  match s.phase with
  | .decode => .next (enter .exec s)
  | .exec =>
    match s.upc.toNat with
    | 0 =>
      match writeCheck s addr with
      | some c => .next (takeFault c addr s)
      | none => readHalf addr s
    | 1 => writeHalf addr setMask clearMask s (respond .ok)
    | _ => .fault .noMicroOperation
  | _ => .fault .noMicroOperation

end Sys2Proof.Machine
end

