-- ==== Sys2Proof/Machine/Dispatch.lean ====
section
/-! DEFINITION. One arm per command: its micro-operation in the given state. -/

namespace Sys2Proof.Machine

def exec (i : Instr) (s : State) : Host.Outcome State Fault Refusal :=
  match i with
  | .rd addr => Sys2Proof.Machine.execRd addr s
  | .wr addr data => Sys2Proof.Machine.execWr addr data s
  | .mod addr setMask clearMask => Sys2Proof.Machine.execMod addr setMask clearMask s
  | .portInit mask => Sys2Proof.Machine.execPortInit mask s
  | .pinSet pin level => Sys2Proof.Machine.execPinSet pin level s
  | .adcInit => Sys2Proof.Machine.execAdcInit s
  | .adcRead => Sys2Proof.Machine.execAdcRead s

end Sys2Proof.Machine
end

