-- ==== Sys2Proof/Machine/Step.lean ====
section
/-! DEFINITION. One step of the block: one turn of one agent (spec/00_scope.md R6, R12; 60_exceptions.md R189). -/

namespace Sys2Proof.Machine

/-- The sequencer's step (R21): in `IDLE` and `FAULT` it has none and the state stays; otherwise the latched command is
decoded and `exec` does the micro-operation that `phase` and `UPC` select. An empty latch faults (R28). -/
def sequencerStep (s : State) : Result :=
  if s.busy then
    match latched s with
    | none => .next (faultEmptyRead s)
    | some w =>
      match decode w with
      | .ok i => exec i s
      | .error _ => rejectCommand w s
  else .next s

/-- One turn of one agent. -/
def act (turn : Turn) (s : State) : Result :=
  match turn with
  | .issue c a x y => .next (hostIssue ⟨c, a, x, y⟩ s)
  | .take => .next (hostTake s)
  | .reset => .next (hostReset s)
  | .sequencer => sequencerStep s
  | .converter => .next (converterStep s)

/-- One step of the machine: the next turn of the schedule. -/
def step (s : State) : Host.Outcome State Fault Refusal :=
  act (nextTurn s).1 (nextTurn s).2

/-- The command of a table word latched as the host's issue latches it, with the sequencer's turn next, so that the
next step is that command's first micro-operation (log 7). -/
def State.withFetchWord (s : State) (nbits w : Nat) : State :=
  { latchCommand (wordsOfNat nbits w) s with schedule := .sequencer :: s.schedule }

end Sys2Proof.Machine
end

