-- ==== Sys2Proof/Machine/PseudoCommands.lean ====
section
/-! DEFINITION. The pseudo-commands of spec/30_encoding.md R91: each is exactly one command. -/

namespace Sys2Proof.Machine

/-- The three indicators of `led_set` (R91). -/
inductive Led where
  | safe
  | warning
  | critical
deriving DecidableEq, Repr

/-- The pin of an indicator (R91). -/
def ledPin (c : Cfg) : Led → Fin 16
  | .safe => c.pinSafe
  | .warning => c.pinWarning
  | .critical => c.pinCritical

/-- `PIN_SET` of a configured pin. -/
def pinSetOf (pin : Fin 16) (on : Bool) : Instr := .pinSet (BitVec.ofNat 4 pin) on

/-- `leds_init()` (R91). -/
def ledsInit (c : Cfg) : Instr := .portInit (bit c.pinSafe ||| bit c.pinWarning ||| bit c.pinCritical)

/-- `led_set(which, on)` (R91). -/
def ledSet (c : Cfg) (which : Led) (on : Bool) : Instr := pinSetOf (ledPin c which) on

/-- `piezo_init()` (R91). -/
def piezoInit (c : Cfg) : Instr := .portInit (bit c.pinPiezo)

/-- `piezo_set(on)` (R91). -/
def piezoSet (c : Cfg) (on : Bool) : Instr := pinSetOf c.pinPiezo on

/-- `sensor_init()` (R91). -/
def sensorInit : Instr := .adcInit

/-- `sensor_read()` (R91). -/
def sensorRead : Instr := .adcRead

/-- The value `sensor_read()` returns: the low 16 bits of the response word (R91). -/
def sensorValue (rspData : Word) : BitVec 16 := rspData.extractLsb' 0 16

end Sys2Proof.Machine
end

