-- ==== Sys2Proof/Machine/Outputs.lean ====
section
/-! DEFINITION. What the block shows outside: the interface outputs (spec/30_encoding.md R81) and the pin outputs
(spec/10_state.md R41), functions of the state. -/

namespace Sys2Proof.Machine

/-- A pin output (R41). -/
inductive PinOut where
  | driven (level : Bool)
  | notDriven
deriving DecidableEq, Repr

/-- `PIN_DRIVE(n)` (R41): the latch, if the port is clocked and the pin is in output mode. -/
def pinDrive (s : State) (n : Fin 16) : PinOut :=
  if s.clocked s.cfg.aModerOut && modeField (s.reg s.cfg.aModerOut) n == modeOutput then
    .driven ((s.reg s.cfg.aOdrOut).getLsbD n)
  else .notDriven

/-- The code of a fault cause on `fault_cause` (R181). -/
def causeCode : Cause → BitVec 3
  | .illegalCommand => 1#3
  | .misaligned => 2#3
  | .unmapped => 3#3
  | .unclocked => 4#3
  | .roWrite => 5#3
  | .converterDisturbed => 6#3

/-- `fault_cause` (R81): 0 when there is none. -/
def faultCauseOut (s : State) : BitVec 3 :=
  match s.fcause with
  | none => 0#3
  | some c => causeCode c

/-- `fault_info` (R81). -/
def faultInfoOut (s : State) : Word := s.finfo

/-- `rsp_valid` (R81). -/
def rspValidOut (s : State) : Bool := s.rsp.isSome

/-- `rsp_kind` (R81). -/
def rspKindOut (s : State) : BitVec 2 :=
  match s.rsp with
  | none => 0b00#2
  | some .ok => 0b01#2
  | some (.data _) => 0b10#2
  | some .timeout => 0b11#2

/-- `rsp_data` (R81). -/
def rspDataOut (s : State) : Word :=
  match s.rsp with
  | some (.data w) => w
  | _ => 0#32

end Sys2Proof.Machine
end

