-- ==== Sys2Proof/Safety.lean ====
section
/-! DEFINITION. The terms the statements use: consecutive micro-operations and turns, fair runs, the premises `CleanReset`
and `ConverterLive`, good and bad ends of a run, and the invariant of the machine. -/

namespace Sys2Proof.Machine

/-- `n` consecutive micro-operations of one command, with no turn of another agent between them (R21, R230). -/
def execN (i : Instr) : Nat → State → Result
  | 0, s => .next s
  | n + 1, s =>
    match exec i s with
    | .next t => execN i n t
    | .fault r => .fault r
    | .refused r => .refused r

/-- The turns of a list, one after the other (R189). -/
def actN : List Turn → State → Result
  | [], s => .next s
  | turn :: rest, s =>
    match act turn s with
    | .next t => actN rest t
    | .fault r => .fault r
    | .refused r => .refused r

/-- The premise `CleanReset` (R44): every register word 0, EOC 0, no conversion in flight, not settled. -/
abbrev CleanReset (s : State) : Prop :=
  (∀ a ∈ mapped s.cfg, s.reg a = 0#32) ∧ s.eoc = false ∧ s.conv = .idle ∧ s.settled = false

/-- The state in which a run ends well (R215). -/
abbrev EndsWell (s : State) : Prop := s.phase = .idle ∧ s.rsp = none ∧ s.fcause = none ∧ s.conv = .idle

/-- The state in which a run has gone wrong (R187, R215). -/
abbrev GoneWrong (s : State) : Prop := s.phase = .fault

/-- The steps of an infinite run, one turn of one agent after the other, in any order (R189). The order is an argument
here, so that every order the spec allows is a run: `step` takes its turns from `schedule` and `Config.turn` (log 5). -/
def StepsBy (turns : Nat → Turn) (r : Nat → State) : Prop := ∀ n, act (turns n) (r n) = .next (r (n + 1))

/-- Weak fairness of a turn along a run (R199): if it stays enabled, it is taken. -/
def WeaklyFair (enabled : State → Prop) (turn : Turn) (turns : Nat → Turn) (r : Nat → State) : Prop :=
  ∀ n, enabled (r n) → ∃ m, n ≤ m ∧ (¬enabled (r m) ∨ turns m = turn)

/-- The sequencer's step is weakly fair (R199); it is enabled while the sequencer is busy (R21). -/
def SequencerFair : (Nat → Turn) → (Nat → State) → Prop := WeaklyFair (fun s => s.busy = true) .sequencer

/-- The host's `take` is weakly fair (R199); it is enabled while a response waits (R198). -/
def TakeFair : (Nat → Turn) → (Nat → State) → Prop := WeaklyFair (fun s => s.rsp ≠ none) .take

/-- The premise `ConverterLive` (R162): the converter's completion is weakly fair too; it is enabled while a conversion
is in flight (R160). No run has it by itself. -/
def ConverterLive : (Nat → Turn) → (Nat → State) → Prop := WeaklyFair (fun s => s.conv ≠ .idle) .converter

/-- An infinite run of the machine (R199): steps of the agents in any order that is weakly fair to the sequencer and to
the host's `take`. The converter is fair only under the premise `ConverterLive`, and `issue` and `reset` never need
happen. A turn of an agent that is not enabled changes nothing (log 6), so a block left in `IDLE` is an infinite run. -/
structure IsRun (turns : Nat → Turn) (r : Nat → State) : Prop where
  steps : StepsBy turns r
  sequencer : SequencerFair turns r
  take : TakeFair turns r

/-- A hang (R12, R155, R182): a run in which the sequencer, once polling, never leaves `CONVERTING`. -/
def Hangs (turns : Nat → Turn) (r : Nat → State) : Prop :=
  IsRun turns r ∧ ∃ n, ∀ m, n ≤ m → (r m).phase = .converting

/-- What no micro-operation writes: the configuration, the four command latches, and the order of turns (R20, R23). -/
abbrev SameCommand (s t : State) : Prop :=
  t.cfg = s.cfg ∧ t.cmd = s.cmd ∧ t.opaddr = s.opaddr ∧ t.opa = s.opa ∧ t.opb = s.opb ∧ t.schedule = s.schedule ∧
    t.turns = s.turns

/-- The fault registers change only on fault entry (R26). -/
abbrev SameFaultRegs (s t : State) : Prop := t.phase ≠ .fault → t.fcause = s.fcause ∧ t.finfo = s.finfo

/-- The response slot changes only where the command ends, in `IDLE` (R25). -/
abbrev SameResponse (s t : State) : Prop := t.phase ≠ .idle → t.rsp = s.rsp

/-- The converter's state: EOC, the conversion in flight, `SETTLED`, and the draws made. -/
abbrev SameConverter (s t : State) : Prop :=
  t.eoc = s.eoc ∧ t.conv = s.conv ∧ t.settled = s.settled ∧ t.draws = s.draws

/-- `TRACE` only grows (R42). -/
abbrev TraceGrows (s t : State) : Prop := ∃ events, t.trace = s.trace ++ events

/-- Every register outside a list of addresses reads as before. -/
abbrev RegsKeptBut (written : List Word) (s t : State) : Prop := ∀ b : Word, b ∉ written → t.reg b = s.reg b

/-- What a conversion in flight or a settled converter says of the converter's clock (R33, R160): the part of the
invariant that a write of a shared clock-enable register relies on. -/
abbrev ClockHeld (s : State) : Prop := (s.conv ≠ .idle → s.adcClock) ∧ (s.settled → s.adcClock)

/-- The causes a command can raise, where, and what `FINFO` then holds (R181, R184). -/
def mayRaise (i : Instr) (s : State) (c : Cause) (info : Word) : Prop :=
  match i with
  | .rd a => s.phase = .exec ∧ info = a ∧ (c = .misaligned ∨ c = .unmapped ∨ c = .unclocked)
  | .wr a _ =>
    s.phase = .exec ∧ info = a ∧
      (c = .misaligned ∨ c = .unmapped ∨ c = .unclocked ∨ c = .roWrite ∨ c = .converterDisturbed)
  | .mod a _ _ =>
    s.phase = .exec ∧ info = a ∧
      ((s.upc = 0#4 ∧ (c = .misaligned ∨ c = .unmapped ∨ c = .unclocked ∨ c = .roWrite)) ∨
        (s.upc = 1#4 ∧ c = .converterDisturbed))
  | .portInit _ => False
  | .pinSet _ _ => s.phase = .exec ∧ s.upc = 0#4 ∧ info = s.cfg.aOdrOut ∧ c = .unclocked
  | .adcInit => s.phase = .exec ∧ s.upc = 7#4 ∧ info = s.cfg.aSqr ∧ c = .converterDisturbed
  | .adcRead =>
    s.phase = .startRequested ∧ info = s.cfg.aCr ∧
      ((s.upc = 0#4 ∧ c = .unclocked) ∨ (s.upc = 1#4 ∧ c = .converterDisturbed))

/-- `T` holds the word that a register still holds: what the write half of a read-modify-write relies on (R72). -/
abbrev LatchedFrom (s : State) (a : Word) : Prop := s.t = some (s.reg a)

/-- The micro-operation of `PORT_INIT` and what the ones before it established (R120). -/
def portInitAt (s : State) : Prop :=
  match s.upc.toNat with
  | 0 => True
  | 1 => LatchedFrom s s.cfg.aClkOut
  | 2 => s.outClock
  | 3 => s.outClock ∧ LatchedFrom s s.cfg.aModerOut
  | _ => False

/-- The register step of `ADC_INIT` and what the ones before it established (R140). -/
def adcInitAt (s : State) : Prop :=
  match s.upc.toNat with
  | 0 => True
  | 1 => LatchedFrom s s.cfg.aClkAn
  | 2 => s.anClock
  | 3 => s.anClock ∧ LatchedFrom s s.cfg.aClkAdc
  | 4 => s.anClock ∧ s.adcClock
  | 5 => s.anClock ∧ s.adcClock ∧ LatchedFrom s s.cfg.aModerAn
  | 6 => s.adcClock
  | 7 => s.adcClock ∧ LatchedFrom s s.cfg.aSqr
  | 8 => s.adcClock
  | 9 => s.adcClock ∧ LatchedFrom s s.cfg.aCr
  | _ => False

/-- A command past its `DECODE` stands at a micro-operation it has, with what the earlier ones established still true
(R21, R27; the micro-programs of R100 to R102, R120, R122, R140, R148). -/
def microAt (i : Instr) (s : State) : Prop :=
  match i with
  | .rd _ => s.phase = .exec ∧ s.upc = 0#4
  | .wr _ _ => s.phase = .exec ∧ s.upc = 0#4
  | .mod a _ _ =>
    s.phase = .exec ∧ (s.upc = 0#4 ∨ (s.upc = 1#4 ∧ writeCheck s a = none ∧ LatchedFrom s a))
  | .portInit _ => s.phase = .exec ∧ portInitAt s
  | .pinSet _ _ =>
    s.phase = .exec ∧ (s.upc = 0#4 ∨ (s.upc = 1#4 ∧ s.outClock ∧ LatchedFrom s s.cfg.aOdrOut))
  | .adcInit =>
    (s.phase = .exec ∧ adcInitAt s) ∨
      (s.phase = .stabWait ∧ 1 ≤ s.cnt ∧ s.cnt ≤ s.cfg.stabCount ∧ s.adcClock ∧ s.adon)
  | .adcRead =>
    (s.phase = .startRequested ∧
      (s.upc = 0#4 ∨ (s.upc = 1#4 ∧ s.adcClock ∧ LatchedFrom s s.cfg.aCr))) ∨
      (s.phase = .converting ∧ s.adcClock ∧ ∀ n, s.cfg.pollLimit = .bounded n → s.cnt < n) ∨
      (s.phase = .done ∧ s.adcClock ∧ s.eoc)

/-- The register file is in canonical form and lists mapped registers only; `A_SR` stores no word (R29, R39). -/
abbrev RegsOk (s : State) : Prop :=
  s.regs.wf ∧ ∀ p ∈ s.regs, ∃ a ∈ mapped s.cfg, a ≠ s.cfg.aSr ∧ a.toNat = p.1

/-- The stored word of `A_CR` never holds START (R38). -/
abbrev TriggerClear (s : State) : Prop := (s.reg s.cfg.aCr).getLsbD s.cfg.bStart = false

/-- Bits 31:12 of `A_DR` read 0 (R40). -/
abbrev DataInRange (s : State) : Prop := (s.reg s.cfg.aDr).toNat < 4096

/-- A conversion in flight has its clock and ADON on (R160), a channel of the slot's width (R32), and if it is trusted
it is on the sensor's channel and the converter is settled (R158). -/
def ConvOk (s : State) : Prop :=
  match s.conv with
  | .idle => True
  | .converting ch tr =>
    ch < 2 ^ s.cfg.sq1Width ∧ s.adcClock ∧ s.adon ∧ (tr → ch = s.cfg.chSensor ∧ s.settled)

/-- A settled converter has its clock and ADON on (R33). -/
abbrev SettledOk (s : State) : Prop := s.settled → s.adcClock ∧ s.adon

/-- A response waits only in `IDLE`, and `TIMEOUT` exists only in bounded mode (R25). -/
def ResponseOk (s : State) : Prop :=
  match s.rsp with
  | none => True
  | some r => s.phase = .idle ∧ (r = .timeout → s.cfg.pollLimit ≠ .unbounded)

/-- The fault registers hold a cause exactly in `FAULT` (R26, R186, R187). -/
abbrev FaultRegsOk (s : State) : Prop :=
  (s.phase = .fault ↔ s.fcause ≠ none) ∧ (s.fcause = none → s.finfo = 0#32)

/-- A busy sequencer has a latched command, not yet decoded or legal and at one of its micro-operations (R21, R28). -/
def SequencerOk (s : State) : Prop :=
  s.busy → ∃ w, latched s = some w ∧ (s.phase = .decode ∨ ∃ i, decode w = .ok i ∧ microAt i s)

/-- The invariant of the machine: true at reset and kept by every turn of every agent. -/
structure Inv (s : State) : Prop where
  config : s.cfg.WF
  regs : RegsOk s
  trigger : TriggerClear s
  data : DataInRange s
  conv : ConvOk s
  settled : SettledOk s
  response : ResponseOk s
  faultRegs : FaultRegsOk s
  sequencer : SequencerOk s

end Sys2Proof.Machine
end

