-- ==== Sys2Proof/Certificates/Slice0/Obligations.lean ====
section
/-! DEFINITION. The statements for the provers: encoding, what each command does, what it leaves alone, faults, reset and
the invariant of the machine. -/

open Sys2Proof Sys2Proof.Machine

/-! ### Encoding and decoding (spec/30_encoding.md) -/

/-- A few command words, written out from the patterns of R85, decode to the commands they stand for. -/
def Obligations.SampleWordsDecode : Prop :=
  (∀ a x y : Word, decode ⟨0x00000001#32, a, x, y⟩ = .ok (.rd a)) ∧
  (∀ a x y : Word, decode ⟨0x00000002#32, a, x, y⟩ = .ok (.wr a x)) ∧
  (∀ a x y : Word, decode ⟨0x00000003#32, a, x, y⟩ = .ok (.mod a x y)) ∧
  (∀ a y : Word, decode ⟨0x00000004#32, a, 0x0000FFFF#32, y⟩ = .ok (.portInit 0x0000FFFF#32)) ∧
  (∀ a x y : Word, decode ⟨0x00000125#32, a, x, y⟩ = .ok (.pinSet 2#4 true)) ∧
  (∀ a x y : Word, decode ⟨0x000000F5#32, a, x, y⟩ = .ok (.pinSet 15#4 false)) ∧
  (∀ a x y : Word, decode ⟨0x00000006#32, a, x, y⟩ = .ok .adcInit) ∧
  (∀ a x y : Word, decode ⟨0x00000007#32, a, x, y⟩ = .ok .adcRead)

/-- Decoding the encoding of a well-formed command gives it back, with every operand at every value (R85, R86). -/
def Obligations.DecodeEncodeRoundTrip : Prop := ∀ i : Instr, i.WF → decode (encode i) = .ok i

/-- R83: the words of a decoded command are its operands, each in the word the rule gives it (the mask of `PORT_INIT`
with bits 31:16 = 0), its command word is that of its encoding, and a word an opcode ignores has no effect on what is
decoded. -/
def Obligations.OperandWordsUsedAndIgnored : Prop :=
  (∀ (w : CommandWords) (i : Instr), decode w = .ok i →
    i.WF ∧ w.cmd = (encode i).cmd ∧
      (match i with
        | .rd a => w.addr = a
        | .wr a x => w.addr = a ∧ w.a = x
        | .mod a x y => w.addr = a ∧ w.a = x ∧ w.b = y
        | .portInit m => w.a = m
        | .pinSet _ _ => True
        | .adcInit => True
        | .adcRead => True)) ∧
  ∀ c a x y a' x' y' : Word,
    (c.extractLsb' 0 4 = 1#4 → decode ⟨c, a, x, y⟩ = decode ⟨c, a, x', y'⟩) ∧
    (c.extractLsb' 0 4 = 2#4 → decode ⟨c, a, x, y⟩ = decode ⟨c, a, x, y'⟩) ∧
    (c.extractLsb' 0 4 = 4#4 → decode ⟨c, a, x, y⟩ = decode ⟨c, a', x, y'⟩) ∧
    (c.extractLsb' 0 4 ∈ [5#4, 6#4, 7#4] → decode ⟨c, a, x, y⟩ = decode ⟨c, a', x', y'⟩)

/-- R87: a command is legal exactly by the rule's formula, and an illegal one is decoded into `ILLEGAL_COMMAND` with the
command word in `FINFO`. -/
def Obligations.IllegalCommandsFault : Prop :=
  (∀ w : CommandWords, (∃ i, decode w = .ok i) ↔
    (w.cmd.extractLsb' 9 23 = 0#23 ∧
      ((w.cmd.extractLsb' 0 4 ∈ [1#4, 2#4, 3#4, 6#4, 7#4] ∧ w.cmd.extractLsb' 4 5 = 0#5) ∨
        (w.cmd.extractLsb' 0 4 = 4#4 ∧ w.cmd.extractLsb' 4 5 = 0#5 ∧ w.a.extractLsb' 16 16 = 0#16) ∨
        w.cmd.extractLsb' 0 4 = 5#4))) ∧
  (∀ (s : State) (w : CommandWords), s.phase = .decode → latched s = some w → (¬∃ i, decode w = .ok i) →
    sequencerStep s = .next { s with
      phase := .fault, fcause := some .illegalCommand, finfo := w.cmd
      trace := s.trace ++ [.fault .illegalCommand w.cmd] })

/-- R88: `DECODE` of a legal command enters `EXEC`, or `START_REQUESTED` for `ADC_READ`, with `UPC = 0`, and changes
nothing else; `DECODE` of an illegal one faults. -/
def Obligations.DecodeStepOutcome : Prop :=
  ∀ (s : State) (w : CommandWords), s.phase = .decode → latched s = some w →
    (∀ i, decode w = .ok i →
      sequencerStep s = .next { s with phase := if i = .adcRead then .startRequested else .exec, upc := 0#4 }) ∧
    (∀ e, decode w = .error e →
      sequencerStep s = .next { s with
        phase := .fault, fcause := some .illegalCommand, finfo := w.cmd
        trace := s.trace ++ [.fault .illegalCommand w.cmd] })

/-- R91: the external functions are commands: the words the host sends for each are those of one `PIN_SET`, `PORT_INIT`,
`ADC_INIT` or `ADC_READ`, with the configured pins, and they decode to it. -/
def Obligations.PseudoCommandsAreCommands : Prop :=
  ∀ (c : Cfg) (on : Bool),
    decode (encode (ledsInit c)) = .ok (.portInit (bit c.pinSafe ||| bit c.pinWarning ||| bit c.pinCritical)) ∧
    decode (encode (ledSet c .safe on)) = .ok (.pinSet (BitVec.ofNat 4 c.pinSafe) on) ∧
    decode (encode (ledSet c .warning on)) = .ok (.pinSet (BitVec.ofNat 4 c.pinWarning) on) ∧
    decode (encode (ledSet c .critical on)) = .ok (.pinSet (BitVec.ofNat 4 c.pinCritical) on) ∧
    decode (encode (piezoInit c)) = .ok (.portInit (bit c.pinPiezo)) ∧
    decode (encode (piezoSet c on)) = .ok (.pinSet (BitVec.ofNat 4 c.pinPiezo) on) ∧
    decode (encode sensorInit) = .ok .adcInit ∧
    decode (encode sensorRead) = .ok .adcRead

/-- A turn of the sequencer runs the micro-operation of the command that its latches decode to (R21); the step uses up
the turn and adds nothing else. The order of turns is the model's own state (log 5). -/
def Obligations.StepRunsLatchedCommand : Prop :=
  ∀ (s : State) (rest : List Turn) (w : CommandWords) (i : Instr),
    s.schedule = .sequencer :: rest → s.phase ≠ .idle → s.phase ≠ .fault → latched s = some w → decode w = .ok i →
      step s = exec i { s with schedule := rest }

/-! ### The merge (spec/40_register_access.md) -/

/-- R103, bit by bit: cleared first, set second, kept where neither mask has the bit. -/
def Obligations.MergeBitwise : Prop :=
  ∀ (old setMask clearMask : Word) (i : Nat), i < 32 →
    (merge old setMask clearMask).getLsbD i =
      (setMask.getLsbD i || (old.getLsbD i && !clearMask.getLsbD i))

/-- R105: the laws (a) to (d) of the merge. -/
def Obligations.MergeLaws : Prop :=
  (∀ o s c : Word, merge (merge o s c) s c = merge o s c) ∧
  (∀ o s c : Word, o &&& s = s → c &&& ~~~s = 0#32 → merge o s c = o) ∧
  (∀ o s1 c1 s2 c2 : Word, (s1 ||| c1) &&& (s2 ||| c2) = 0#32 →
    merge (merge o s1 c1) s2 c2 = merge (merge o s2 c2) s1 c1) ∧
  (∀ (o s c : Word) (i : Nat), (s ||| c).getLsbD i = false → (merge o s c).getLsbD i = o.getLsbD i)

/-! ### Bus accesses and their faults (spec/20_memory.md) -/

/-- R70: a misaligned access takes `MISALIGNED` before every other check, and no configured address is misaligned. -/
def Obligations.MisalignedAccessFaults : Prop :=
  (∀ (s : State) (a v : Word), a.toNat % 4 ≠ 0 →
    (∀ k, onRead a s k = .next (takeFault .misaligned a s)) ∧
    (∀ k, onWrite a v s k = .next (takeFault .misaligned a s)) ∧ writeCheck s a = some .misaligned) ∧
  (∀ (s : State) (a v : Word), s.cfg.WF → a ∈ mapped s.cfg →
    busRead a s ≠ .error .misaligned ∧ busWrite a v s ≠ .error .misaligned)

/-- R71: an aligned access to an unmapped address takes `UNMAPPED`. -/
def Obligations.UnmappedAccessFaults : Prop :=
  ∀ (s : State) (a v : Word), a.toNat % 4 = 0 → a ∉ mapped s.cfg →
    (∀ k, onRead a s k = .next (takeFault .unmapped a s)) ∧
    (∀ k, onWrite a v s k = .next (takeFault .unmapped a s)) ∧ writeCheck s a = some .unmapped

/-- R68: an access to a register of a gated-off domain takes `UNCLOCKED`, read and write alike, and nothing is read or
stored; the domains are those of R31. -/
def Obligations.UnclockedAccessFaults : Prop :=
  (∀ (s : State) (a v : Word), s.cfg.WF → a ∈ mapped s.cfg → s.clocked a = false →
    (∀ k, onRead a s k = .next (takeFault .unclocked a s)) ∧
    (∀ k, onWrite a v s k = .next (takeFault .unclocked a s)) ∧ writeCheck s a = some .unclocked) ∧
  (∀ s : State, s.cfg.WF →
    (∀ a ∈ [s.cfg.aClkOut, s.cfg.aClkAn, s.cfg.aClkAdc], s.clocked a = true) ∧
    (∀ a ∈ [s.cfg.aModerOut, s.cfg.aOdrOut], s.clocked a = (s.reg s.cfg.aClkOut).getLsbD s.cfg.bClkOut) ∧
    s.clocked s.cfg.aModerAn = (s.reg s.cfg.aClkAn).getLsbD s.cfg.bClkAn ∧
    (∀ a ∈ [s.cfg.aSqr, s.cfg.aCr, s.cfg.aSr, s.cfg.aDr],
      s.clocked a = (s.reg s.cfg.aClkAdc).getLsbD s.cfg.bClkAdc))

/-- R67: a write of the status or the data register faults and never stores: with the converter clocked the cause is
`RO_WRITE`, and `MOD`'s pre-check sees it too. -/
def Obligations.ReadOnlyWriteFaults : Prop :=
  ∀ (s : State) (a v : Word), s.cfg.WF → (a = s.cfg.aSr ∨ a = s.cfg.aDr) →
    (s.adcClock → (∀ k, onWrite a v s k = .next (takeFault .roWrite a s)) ∧ writeCheck s a = some .roWrite) ∧
    ∀ t, busWrite a v s ≠ .ok t

/-- R69: a write that passed the other checks takes `CONVERTER_DISTURBED` exactly when it would disturb a conversion in
flight, and has no other fault. -/
def Obligations.DisturbingWriteFaults : Prop :=
  ∀ (s : State) (a v : Word), writeCheck s a = none →
    let disturbing := s.conv ≠ .idle ∧
      ((a = s.cfg.aCr ∧ (v.getLsbD s.cfg.bStart = true ∨ v.getLsbD s.cfg.bAdon = false)) ∨
        a = s.cfg.aSqr ∨
        (a = s.cfg.aClkAdc ∧ v.getLsbD s.cfg.bClkAdc = false))
    (disturbing → ∀ k, onWrite a v s k = .next (takeFault .converterDisturbed a s)) ∧
    (¬disturbing → ∃ t, busWrite a v s = .ok t)

/-- A read that faults and a write that faults end the micro-operation of `RD`, `WR` and `MOD` in fault entry with the
address in `FINFO`, and with no other effect (R100 to R102, R186). -/
def Obligations.RegisterAccessTakesFaults : Prop :=
  ∀ (s : State) (a x y w : Word) (c : Cause),
    let faulted : State :=
      { s with phase := .fault, fcause := some c, finfo := a, trace := s.trace ++ [.fault c a] }
    s.phase = .exec →
      (s.upc = 0#4 → busRead a s = .error c → exec (.rd a) s = .next faulted) ∧
      (s.upc = 0#4 → busWrite a x s = .error c → exec (.wr a x) s = .next faulted) ∧
      (s.upc = 0#4 → writeCheck s a = some c → exec (.mod a x y) s = .next faulted) ∧
      (s.upc = 1#4 → s.t = some w → busWrite a (merge w x y) s = .error c → exec (.mod a x y) s = .next faulted)

/-! ### RD, WR, MOD (spec/40_register_access.md) -/

/-- `RD` of a clocked register other than `A_SR` and `A_DR` completes with the stored word and changes no register and
no flag (R100). That `TRACE` gets `Rsp` here and that `UPC` keeps its value are the model's (logs 9, 14). -/
def Obligations.RdCompletes : Prop :=
  ∀ (s : State) (a : Word), s.cfg.WF → s.phase = .exec → s.upc = 0#4 → a ∈ mapped s.cfg → s.clocked a →
    a ≠ s.cfg.aSr → a ≠ s.cfg.aDr →
      exec (.rd a) s = .next { s with
        t := some (s.reg a), rsp := some (.data (s.reg a)), phase := .idle
        trace := s.trace ++ [.busRd a (s.reg a), .rsp (.data (s.reg a))] }

/-- `RD A_SR` completes with EOC in bit `B_EOC` and a fresh draw in every other bit, and changes no flag; `RD A_DR`
completes with the stored word and clears EOC (R39, R40, R66, R100). That `TRACE` gets `Rsp` here, that `UPC` keeps its
value, and the draw counter are the model's (logs 4, 9, 14). -/
def Obligations.RdConverterCompletes : Prop :=
  ∀ s : State, s.cfg.WF → s.phase = .exec → s.upc = 0#4 → s.adcClock →
    (∃ v : Word,
      exec (.rd s.cfg.aSr) s = .next { s with
        t := some v, rsp := some (.data v), phase := .idle, draws := s.draws + 1
        trace := s.trace ++ [.busRd s.cfg.aSr v, .rsp (.data v)] } ∧
      v.getLsbD s.cfg.bEoc = s.eoc ∧
      ∀ j, j < 32 → j ≠ s.cfg.bEoc → v.getLsbD j = (Config.statusDraw s.draws).getLsbD j) ∧
    exec (.rd s.cfg.aDr) s = .next { s with
      t := some (s.reg s.cfg.aDr), rsp := some (.data (s.reg s.cfg.aDr)), phase := .idle, eoc := false
      trace := s.trace ++ [.busRd s.cfg.aDr (s.reg s.cfg.aDr), .rsp (.data (s.reg s.cfg.aDr))] }

/-- `WR` of a clocked plain register completes: it stores the word and touches nothing else. `A_SQR` needs an idle
converter; `A_CR` and `A_CLK_ADC` have statements of their own (R101). That `TRACE` gets `Rsp` here and that `UPC` keeps
its value are the model's (logs 9, 14). -/
def Obligations.WrCompletes : Prop :=
  ∀ (s : State) (a v : Word), s.cfg.WF → s.phase = .exec → s.upc = 0#4 → a ∈ mapped s.cfg → s.clocked a →
    a ≠ s.cfg.aSr → a ≠ s.cfg.aDr → a ≠ s.cfg.aCr → a ≠ s.cfg.aClkAdc → (a = s.cfg.aSqr → s.conv = .idle) →
      exec (.wr a v) s = .next { s with
        regs := s.regs.write a.toNat v, rsp := some .ok, phase := .idle
        trace := s.trace ++ [.busWr a v, .rsp .ok] }

/-- `WR` of the registers that command the converter completes without a start request: a word for the converter's clock
register with the clock bit 0 clears `SETTLED`, and a word for `A_CR` with ADON changed clears it (R33, R38, R101,
R156). That `TRACE` gets `Rsp` here and that `UPC` keeps its value are the model's (logs 9, 14). -/
def Obligations.WrCommandsConverter : Prop :=
  ∀ (s : State) (v : Word), s.cfg.WF → s.phase = .exec → s.upc = 0#4 →
    ((s.conv = .idle ∨ v.getLsbD s.cfg.bClkAdc = true) →
      exec (.wr s.cfg.aClkAdc v) s = .next { s with
        regs := s.regs.write s.cfg.aClkAdc.toNat v, settled := s.settled && v.getLsbD s.cfg.bClkAdc
        rsp := some .ok, phase := .idle, trace := s.trace ++ [.busWr s.cfg.aClkAdc v, .rsp .ok] }) ∧
    (s.adcClock → v.getLsbD s.cfg.bStart = false → (s.conv = .idle ∨ v.getLsbD s.cfg.bAdon = true) →
      exec (.wr s.cfg.aCr v) s = .next { s with
        regs := s.regs.write s.cfg.aCr.toNat v
        settled := s.settled && (s.adon == v.getLsbD s.cfg.bAdon)
        rsp := some .ok, phase := .idle, trace := s.trace ++ [.busWr s.cfg.aCr v, .rsp .ok] })

/-- `WR` of `A_CR` with START set is a start request (R156, R157, R158, R159): START is not stored, an ADON change
clears `SETTLED` first, and with ADON set in the written word a conversion starts on the channel in SQ1, trusted exactly
if the converter is then settled, the channel is the sensor's and the sensor pin is in analog mode. An EOC that was set
is drawn. With ADON clear in the written word nothing starts. That `TRACE` gets `Rsp` here, that `UPC` keeps its value,
and the draw counter are the model's (logs 4, 9, 14). -/
def Obligations.WrStartRequest : Prop :=
  ∀ (s : State) (v : Word), s.cfg.WF → s.regs.wf → s.phase = .exec → s.upc = 0#4 → s.adcClock → s.conv = .idle →
    v.getLsbD s.cfg.bStart = true →
      let stored := s.regs.write s.cfg.aCr.toNat (v &&& ~~~bit s.cfg.bStart)
      let settled' := s.settled && (s.adon == v.getLsbD s.cfg.bAdon)
      let ch := ((s.reg s.cfg.aSqr).extractLsb' s.cfg.sq1Pos s.cfg.sq1Width).toNat
      let tr := settled' && (ch == s.cfg.chSensor) &&
        (modeField (s.reg s.cfg.aModerAn) s.cfg.pinSensor == 0b11#2)
      (v.getLsbD s.cfg.bAdon = true →
        exec (.wr s.cfg.aCr v) s = .next { s with
          regs := stored, settled := settled', conv := .converting ch tr
          eoc := if s.eoc then Config.eocDraw s.draws else false
          draws := if s.eoc then s.draws + 1 else s.draws
          rsp := some .ok, phase := .idle
          trace := s.trace ++ [.busWr s.cfg.aCr v, .convStart ch tr, .rsp .ok] }) ∧
      (v.getLsbD s.cfg.bAdon = false →
        exec (.wr s.cfg.aCr v) s = .next { s with
          regs := stored, settled := settled', rsp := some .ok, phase := .idle
          trace := s.trace ++ [.busWr s.cfg.aCr v, .rsp .ok] })

/-- The two micro-operations of `MOD` of a clocked plain register complete: the read half latches the word and changes
nothing else but `UPC`; the write half stores the merge of `T` and responds `OK` (R102, R103). That `TRACE` gets `Rsp`
here and that `UPC` keeps its value are the model's (logs 9, 14). -/
def Obligations.ModCompletes : Prop :=
  ∀ (s : State) (a x y w : Word), s.cfg.WF → s.phase = .exec → a ∈ mapped s.cfg → s.clocked a →
    a ≠ s.cfg.aSr → a ≠ s.cfg.aDr →
      (s.upc = 0#4 →
        exec (.mod a x y) s = .next { s with
          t := some (s.reg a), upc := 1#4, trace := s.trace ++ [.busRd a (s.reg a)] }) ∧
      (s.upc = 1#4 → s.t = some w → a ≠ s.cfg.aCr → a ≠ s.cfg.aClkAdc → (a = s.cfg.aSqr → s.conv = .idle) →
        let v := (w &&& ~~~y) ||| x
        exec (.mod a x y) s = .next { s with
          regs := s.regs.write a.toNat v, rsp := some .ok, phase := .idle
          trace := s.trace ++ [.busWr a v, .rsp .ok] })

/-- The write half of `MOD` does what `WR` of the merged word does, for every address and every word: the same next
state but for `UPC` (R102, R103). That `UPC` keeps its value, 0 in the one and 1 in the other, where the command leaves
`EXEC` with its response is the model's (log 14); where it faults the spec says so (R186). -/
def Obligations.ModWriteHalfIsWrOfMerge : Prop :=
  ∀ (s : State) (a x y w : Word), s.phase = .exec → s.upc = 1#4 → s.t = some w →
    ∃ t, exec (.wr a ((w &&& ~~~y) ||| x)) { s with upc := 0#4 } = .next t ∧
      exec (.mod a x y) s = .next { t with upc := 1#4 }

/-- `MOD` of a clocked plain register, from `DECODE` in three micro-operations: the register holds the merge of its own
old word, `OK` is the response, and every other register and flag is as before (R102, R103, R230). That `TRACE` gets
`Rsp` here and that `UPC` keeps its value are the model's (logs 9, 14). -/
def Obligations.ModRunMerges : Prop :=
  ∀ (s : State) (a x y : Word), s.cfg.WF → s.phase = .decode → a ∈ mapped s.cfg → s.clocked a →
    a ≠ s.cfg.aSr → a ≠ s.cfg.aDr → a ≠ s.cfg.aCr → a ≠ s.cfg.aClkAdc → (a = s.cfg.aSqr → s.conv = .idle) →
      let v := (s.reg a &&& ~~~y) ||| x
      execN (.mod a x y) 3 s = .next { s with
        regs := s.regs.write a.toNat v, t := some (s.reg a), upc := 1#4, rsp := some .ok, phase := .idle
        trace := s.trace ++ [.busRd a (s.reg a), .busWr a v, .rsp .ok] }

/-- Between the two halves of a `MOD` of a plain register, any turns of the host's `issue` and `take` and of the
converter may run and no update is lost: the write half still stores the merge of the word the register had (R72). Lists
of turns are the model's (logs 5, 6). -/
def Obligations.ModUpdateIsNotLost : Prop :=
  ∀ (s : State) (a x y : Word) (turns : List Turn), s.cfg.WF → s.regs.wf → s.phase = .exec → s.upc = 0#4 →
    a ∈ mapped s.cfg → s.clocked a → a ≠ s.cfg.aSr → a ≠ s.cfg.aDr → a ≠ s.cfg.aCr → a ≠ s.cfg.aClkAdc →
    (a = s.cfg.aSqr → s.conv = .idle) → .sequencer ∉ turns → .reset ∉ turns →
      ∃ t u v, exec (.mod a x y) s = .next t ∧ actN turns t = .next u ∧ exec (.mod a x y) u = .next v ∧
        v.reg a = merge (s.reg a) x y ∧ v.rsp = some .ok ∧
        ∀ b : Word, b ≠ a → b ≠ s.cfg.aDr → v.reg b = s.reg b

/-- What a micro-operation of `RD`, `WR` or `MOD` leaves alone: every register but the one addressed (none at all for
`RD`), the converter's state except through the registers that command it, the latches, `CNT`, and the fault registers
and response slot outside their events. -/
def Obligations.RegisterAccessFrame : Prop :=
  (∀ (s t : State) (a : Word), exec (.rd a) s = .next t →
    SameCommand s t ∧ SameFaultRegs s t ∧ SameResponse s t ∧ TraceGrows s t ∧ t.cnt = s.cnt ∧ t.regs = s.regs ∧
      t.conv = s.conv ∧ t.settled = s.settled ∧ (a ≠ s.cfg.aDr → t.eoc = s.eoc) ∧ (a ≠ s.cfg.aSr → t.draws = s.draws)) ∧
  (∀ (s t : State) (a x : Word), s.regs.wf → exec (.wr a x) s = .next t →
    SameCommand s t ∧ SameFaultRegs s t ∧ SameResponse s t ∧ TraceGrows s t ∧ t.cnt = s.cnt ∧ t.t = s.t ∧
      RegsKeptBut [a] s t ∧ (a ≠ s.cfg.aCr → t.eoc = s.eoc ∧ t.conv = s.conv ∧ t.draws = s.draws) ∧
      (a ≠ s.cfg.aCr → a ≠ s.cfg.aClkAdc → t.settled = s.settled)) ∧
  (∀ (s t : State) (a x y : Word), s.cfg.WF → s.regs.wf → exec (.mod a x y) s = .next t →
    SameCommand s t ∧ SameFaultRegs s t ∧ SameResponse s t ∧ TraceGrows s t ∧ t.cnt = s.cnt ∧
      RegsKeptBut [a] s t ∧ (a ≠ s.cfg.aCr → t.eoc = s.eoc ∧ t.conv = s.conv ∧ t.draws = s.draws) ∧
      (a ≠ s.cfg.aCr → a ≠ s.cfg.aClkAdc → t.settled = s.settled))

/-! ### PORT_INIT and PIN_SET (spec/41_digital_output.md) -/

/-- The four register steps of `PORT_INIT` complete, each with exactly the effect R120 gives it. That `TRACE` gets `Rsp`
here and that `UPC` keeps its value are the model's (logs 9, 14). -/
def Obligations.PortInitStepsComplete : Prop :=
  ∀ (s : State) (m w : Word), s.cfg.WF → ClockHeld s → s.phase = .exec →
    (s.upc = 0#4 →
      exec (.portInit m) s = .next { s with
        t := some (s.reg s.cfg.aClkOut), upc := 1#4
        trace := s.trace ++ [.busRd s.cfg.aClkOut (s.reg s.cfg.aClkOut)] }) ∧
    (s.upc = 1#4 → s.t = some w → w = s.reg s.cfg.aClkOut →
      exec (.portInit m) s = .next { s with
        regs := s.regs.write s.cfg.aClkOut.toNat (w ||| bit s.cfg.bClkOut), upc := 2#4
        trace := s.trace ++ [.busWr s.cfg.aClkOut (w ||| bit s.cfg.bClkOut)] }) ∧
    (s.upc = 2#4 → s.outClock →
      exec (.portInit m) s = .next { s with
        t := some (s.reg s.cfg.aModerOut), upc := 3#4
        trace := s.trace ++ [.busRd s.cfg.aModerOut (s.reg s.cfg.aModerOut)] }) ∧
    (s.upc = 3#4 → s.outClock → s.t = some w →
      exec (.portInit m) s = .next { s with
        regs := s.regs.write s.cfg.aModerOut.toNat (merge w (outSet m) (outClr m)), rsp := some .ok, phase := .idle
        trace := s.trace ++ [.busWr s.cfg.aModerOut (merge w (outSet m) (outClr m)), .rsp .ok] })

/-- `PORT_INIT` from `DECODE` in five micro-operations: the port's clock bit set, every pin of the mask in output mode
by one combined write, `OK`, and nothing else changed; no fault on the way (R120, R230). That `TRACE` gets `Rsp` here
and that `UPC` keeps its value are the model's (logs 9, 14). -/
def Obligations.PortInitRun : Prop :=
  ∀ (s : State) (m : Word), s.cfg.WF → s.regs.wf → ClockHeld s → s.phase = .decode →
    let clk := s.reg s.cfg.aClkOut
    let mode := s.reg s.cfg.aModerOut
    execN (.portInit m) 5 s = .next { s with
      regs := (s.regs.write s.cfg.aClkOut.toNat (clk ||| bit s.cfg.bClkOut)).write s.cfg.aModerOut.toNat
        (merge mode (outSet m) (outClr m))
      t := some mode, upc := 3#4, rsp := some .ok, phase := .idle
      trace := s.trace ++ [.busRd s.cfg.aClkOut clk, .busWr s.cfg.aClkOut (clk ||| bit s.cfg.bClkOut),
        .busRd s.cfg.aModerOut mode, .busWr s.cfg.aModerOut (merge mode (outSet m) (outClr m)), .rsp .ok] }

/-- R125, with R124's read-back: after `PORT_INIT m` the mode field of a pin in the mask is output and the port is
clocked, the mode field of a pin outside the mask is unchanged, and so is every other bit of the clock-enable register.
-/
def Obligations.PortInitLanes : Prop :=
  ∀ (s t : State) (m : Word), s.cfg.WF → s.regs.wf → ClockHeld s → s.phase = .decode →
    execN (.portInit m) 5 s = .next t →
      t.clocked t.cfg.aModerOut = true ∧
      (∀ n : Fin 16, m.getLsbD n = true → modeField (t.reg s.cfg.aModerOut) n = 0b01#2) ∧
      (∀ n : Fin 16, m.getLsbD n = false →
        modeField (t.reg s.cfg.aModerOut) n = modeField (s.reg s.cfg.aModerOut) n) ∧
      (∀ j, j ≠ s.cfg.bClkOut → (t.reg s.cfg.aClkOut).getLsbD j = (s.reg s.cfg.aClkOut).getLsbD j)

/-- The two register steps of `PIN_SET` complete with the effect R122 gives them, for every pin and both levels. That
`TRACE` gets `Rsp` here and that `UPC` keeps its value are the model's (logs 9, 14). -/
def Obligations.PinSetStepsComplete : Prop :=
  ∀ (s : State) (pin : BitVec 4) (level : Bool) (w : Word), s.cfg.WF → s.phase = .exec → s.outClock →
    let v := if level then w ||| bit pin.toNat else w &&& ~~~bit pin.toNat
    (s.upc = 0#4 →
      exec (.pinSet pin level) s = .next { s with
        t := some (s.reg s.cfg.aOdrOut), upc := 1#4
        trace := s.trace ++ [.busRd s.cfg.aOdrOut (s.reg s.cfg.aOdrOut)] }) ∧
    (s.upc = 1#4 → s.t = some w →
      exec (.pinSet pin level) s = .next { s with
        regs := s.regs.write s.cfg.aOdrOut.toNat v, rsp := some .ok, phase := .idle
        trace := s.trace ++ [.busWr s.cfg.aOdrOut v, .rsp .ok] })

/-- R126: `PIN_SET` changes at most its own bit of the output-data register, and a second one leaves the same `REG`,
though `TRACE` shows its accesses. -/
def Obligations.PinSetIsIdempotent : Prop :=
  ∀ (s t : State) (pin : BitVec 4) (level : Bool), s.cfg.WF → s.regs.wf → s.phase = .decode →
    execN (.pinSet pin level) 3 s = .next t →
      RegsKeptBut [s.cfg.aOdrOut] s t ∧
      (∀ j, j ≠ pin.toNat → (t.reg s.cfg.aOdrOut).getLsbD j = (s.reg s.cfg.aOdrOut).getLsbD j) ∧
      (t.reg s.cfg.aOdrOut).getLsbD pin.toNat = level ∧
      ∃ u, execN (.pinSet pin level) 3 { t with phase := .decode, rsp := none } = .next u ∧ u.regs = t.regs ∧
        ∃ later, u.trace = t.trace ++ .busRd s.cfg.aOdrOut (t.reg s.cfg.aOdrOut) ::
          .busWr s.cfg.aOdrOut (t.reg s.cfg.aOdrOut) :: later

/-- After `PIN_SET n, l` the pin is driven to `l` exactly if its mode field is output, and is not driven otherwise (R41,
R123); the latch holds `l` either way. -/
def Obligations.PinDriveFollowsLatch : Prop :=
  ∀ (s t : State) (n : Fin 16) (level : Bool), s.cfg.WF → s.regs.wf → s.phase = .decode →
    execN (.pinSet (BitVec.ofNat 4 n) level) 3 s = .next t →
      (t.reg s.cfg.aOdrOut).getLsbD n = level ∧
      (modeField (s.reg s.cfg.aModerOut) n = 0b01#2 → pinDrive t n = .driven level) ∧
      (modeField (s.reg s.cfg.aModerOut) n ≠ 0b01#2 → pinDrive t n = .notDriven)

/-- What a micro-operation of `PORT_INIT` or `PIN_SET` leaves alone: every register but the one its step writes, the
converter's state, the latches, `CNT`, the fault registers and response slot outside their events. -/
def Obligations.DigitalOutputFrame : Prop :=
  (∀ (s t : State) (m : Word), s.cfg.WF → s.regs.wf → exec (.portInit m) s = .next t →
    SameCommand s t ∧ SameFaultRegs s t ∧ SameResponse s t ∧ TraceGrows s t ∧ t.cnt = s.cnt ∧
      t.eoc = s.eoc ∧ t.conv = s.conv ∧ t.draws = s.draws ∧ (s.cfg.aClkOut ≠ s.cfg.aClkAdc → t.settled = s.settled) ∧
      RegsKeptBut (if s.upc = 1#4 then [s.cfg.aClkOut] else if s.upc = 3#4 then [s.cfg.aModerOut] else []) s t) ∧
  (∀ (s t : State) (pin : BitVec 4) (level : Bool), s.cfg.WF → s.regs.wf → exec (.pinSet pin level) s = .next t →
    SameCommand s t ∧ SameFaultRegs s t ∧ SameResponse s t ∧ TraceGrows s t ∧ t.cnt = s.cnt ∧ SameConverter s t ∧
      RegsKeptBut (if s.upc = 1#4 then [s.cfg.aOdrOut] else []) s t)

/-! ### ADC_INIT and ADC_READ (spec/42_analog_input.md) -/

/-- The register steps of `ADC_INIT` and its wait complete, each with the effect R140, R145 and R146 give it. Only the
write of `A_SQR` needs an idle converter: every other step runs with a conversion in flight too. `ClockHeld` and
`TriggerClear` follow from the invariant. That `TRACE` gets `Rsp` here and that `UPC` keeps its value are the model's
(logs 9, 14). -/
def Obligations.AdcInitStepsComplete : Prop :=
  ∀ (s : State) (w : Word), s.cfg.WF →
    let read (a : Word) (n : BitVec 4) : State :=
      { s with t := some (s.reg a), upc := n, trace := s.trace ++ [.busRd a (s.reg a)] }
    let write (a v : Word) (n : BitVec 4) : State :=
      { s with regs := s.regs.write a.toNat v, upc := n, trace := s.trace ++ [.busWr a v] }
    (s.phase = .exec → s.upc = 0#4 → exec .adcInit s = .next (read s.cfg.aClkAn 1#4)) ∧
    (s.phase = .exec → s.upc = 1#4 → s.t = some w → LatchedFrom s s.cfg.aClkAn → ClockHeld s →
      exec .adcInit s = .next (write s.cfg.aClkAn (w ||| bit s.cfg.bClkAn) 2#4)) ∧
    (s.phase = .exec → s.upc = 2#4 → exec .adcInit s = .next (read s.cfg.aClkAdc 3#4)) ∧
    (s.phase = .exec → s.upc = 3#4 → s.t = some w →
      exec .adcInit s = .next (write s.cfg.aClkAdc (w ||| bit s.cfg.bClkAdc) 4#4)) ∧
    (s.phase = .exec → s.upc = 4#4 → s.anClock → exec .adcInit s = .next (read s.cfg.aModerAn 5#4)) ∧
    (s.phase = .exec → s.upc = 5#4 → s.anClock → s.t = some w →
      exec .adcInit s = .next (write s.cfg.aModerAn (w ||| (3#32 <<< (2 * s.cfg.pinSensor.val))) 6#4)) ∧
    (s.phase = .exec → s.upc = 6#4 → s.adcClock → exec .adcInit s = .next (read s.cfg.aSqr 7#4)) ∧
    (s.phase = .exec → s.upc = 7#4 → s.adcClock → s.t = some w → s.conv = .idle →
      exec .adcInit s = .next (write s.cfg.aSqr
        (merge w (BitVec.ofNat 32 s.cfg.chSensor <<< s.cfg.sq1Pos)
          (BitVec.ofNat 32 (2 ^ s.cfg.sq1Width - 1) <<< s.cfg.sq1Pos)) 8#4)) ∧
    (s.phase = .exec → s.upc = 8#4 → s.adcClock → exec .adcInit s = .next (read s.cfg.aCr 9#4)) ∧
    (s.phase = .exec → s.upc = 9#4 → s.adcClock → s.t = some w → LatchedFrom s s.cfg.aCr → TriggerClear s →
      s.cfg.stabCount ≠ 0 →
      exec .adcInit s = .next { write s.cfg.aCr (w ||| bit s.cfg.bAdon) 9#4 with
        settled := s.settled && s.adon, cnt := s.cfg.stabCount, phase := .stabWait }) ∧
    (s.phase = .exec → s.upc = 9#4 → s.adcClock → s.t = some w → LatchedFrom s s.cfg.aCr → TriggerClear s →
      s.regs.wf → s.cfg.stabCount = 0 →
      exec .adcInit s = .next { write s.cfg.aCr (w ||| bit s.cfg.bAdon) 9#4 with
        settled := true, rsp := some .ok, phase := .idle
        trace := s.trace ++ [.busWr s.cfg.aCr (w ||| bit s.cfg.bAdon), .rsp .ok] }) ∧
    (s.phase = .stabWait → 2 ≤ s.cnt → exec .adcInit s = .next { s with cnt := s.cnt - 1 }) ∧
    (s.phase = .stabWait → s.cnt = 1 →
      exec .adcInit s = .next { s with
        cnt := 0, settled := s.settled || s.adon, rsp := some .ok, phase := .idle, trace := s.trace ++ [.rsp .ok] })

/-- R145 with R146: the wait makes no bus access and lasts exactly as many micro-operations as `CNT` holds; the last one
settles the converter if ADON is set, and responds `OK`. That `TRACE` gets `Rsp` here and that `UPC` keeps its value are
the model's (logs 9, 14). -/
def Obligations.StabilizationWaitLength : Prop :=
  ∀ (s : State) (k : Nat), s.phase = .stabWait → s.cnt = k + 1 →
    (∀ j, j ≤ k → execN .adcInit j s = .next { s with cnt := k + 1 - j }) ∧
    execN .adcInit (k + 1) s = .next { s with
      cnt := 0, settled := s.settled || s.adon, rsp := some .ok, phase := .idle, trace := s.trace ++ [.rsp .ok] }

/-- `ADC_INIT` from `DECODE` with an idle converter, in 11 + `STAB_COUNT` micro-operations: both clocks on, the sensor
pin analog, the sensor's channel selected, the converter enabled and settled, `OK`; the five updates in R141's order;
every other register, EOC and the fault registers unchanged (R140, R141, R146, R230). That `TRACE` gets `Rsp` here and
that `UPC` keeps its value are the model's (logs 9, 14). -/
def Obligations.AdcInitRun : Prop :=
  ∀ s : State, s.cfg.WF → s.regs.wf → TriggerClear s → (s.settled → s.adcClock) → s.conv = .idle →
    s.phase = .decode →
      let c := s.cfg
      let r1 := s.regs.write c.aClkAn.toNat (s.regs.read c.aClkAn.toNat ||| bit c.bClkAn)
      let r2 := r1.write c.aClkAdc.toNat (r1.read c.aClkAdc.toNat ||| bit c.bClkAdc)
      let r3 := r2.write c.aModerAn.toNat (r2.read c.aModerAn.toNat ||| (3#32 <<< (2 * c.pinSensor.val)))
      let sq := merge (r3.read c.aSqr.toNat) (BitVec.ofNat 32 c.chSensor <<< c.sq1Pos)
        (BitVec.ofNat 32 (2 ^ c.sq1Width - 1) <<< c.sq1Pos)
      let r4 := r3.write c.aSqr.toNat sq
      let r5 := r4.write c.aCr.toNat (r4.read c.aCr.toNat ||| bit c.bAdon)
      ∃ t, execN .adcInit (11 + c.stabCount) s = .next t ∧ t.regs = r5 ∧ t.settled = true ∧ t.rsp = some .ok ∧
        t.phase = .idle ∧ t.conv = .idle ∧ t.eoc = s.eoc ∧ t.fcause = s.fcause ∧ t.finfo = s.finfo ∧ t.cfg = c ∧
        t.trace = s.trace ++
          [.busRd c.aClkAn (s.regs.read c.aClkAn.toNat), .busWr c.aClkAn (r1.read c.aClkAn.toNat),
            .busRd c.aClkAdc (r1.read c.aClkAdc.toNat), .busWr c.aClkAdc (r2.read c.aClkAdc.toNat),
            .busRd c.aModerAn (r2.read c.aModerAn.toNat), .busWr c.aModerAn (r3.read c.aModerAn.toNat),
            .busRd c.aSqr (r3.read c.aSqr.toNat), .busWr c.aSqr (r4.read c.aSqr.toNat),
            .busRd c.aCr (r4.read c.aCr.toNat), .busWr c.aCr (r5.read c.aCr.toNat), .rsp .ok]

/-- R147: a second `ADC_INIT` in a row leaves the same `REG` as the first, with the converter's clock bit set, and
`SETTLED` stays true all through it. -/
def Obligations.AdcInitTwice : Prop :=
  ∀ s t : State, s.cfg.WF → s.regs.wf → TriggerClear s → (s.settled → s.adcClock) → s.conv = .idle →
    s.phase = .decode → execN .adcInit (11 + s.cfg.stabCount) s = .next t →
      (∃ u, execN .adcInit (11 + s.cfg.stabCount) { t with phase := .decode, rsp := none } = .next u ∧
        u.regs = t.regs ∧ u.adcClock = true ∧ u.rsp = some .ok) ∧
      ∀ n, n ≤ 11 + s.cfg.stabCount →
        ∃ u, execN .adcInit n { t with phase := .decode, rsp := none } = .next u ∧ u.settled = true

/-- The two micro-operations of `ADC_READ`'s start complete with an idle, clocked converter. The read latches `A_CR`;
the write stores that word back, enters `CONVERTING` with `CNT` 0, and with ADON set puts a conversion in flight on the
channel in SQ1, trusted exactly by R158; with ADON clear nothing has started (R148 to R150, R157 to R159). The draw
counter and the kept `UPC` are the model's (logs 4, 14). -/
def Obligations.AdcReadStartCompletes : Prop :=
  ∀ s : State, s.cfg.WF → s.regs.wf → TriggerClear s → s.phase = .startRequested → s.adcClock →
    let cr := s.reg s.cfg.aCr
    let ch := ((s.reg s.cfg.aSqr).extractLsb' s.cfg.sq1Pos s.cfg.sq1Width).toNat
    let tr := s.settled && (ch == s.cfg.chSensor) && (modeField (s.reg s.cfg.aModerAn) s.cfg.pinSensor == 0b11#2)
    let write := Event.busWr s.cfg.aCr (cr ||| bit s.cfg.bStart)
    (s.upc = 0#4 →
      exec .adcRead s = .next { s with t := some cr, upc := 1#4, trace := s.trace ++ [.busRd s.cfg.aCr cr] }) ∧
    (s.upc = 1#4 → s.t = some cr → s.conv = .idle → s.adon = true →
      exec .adcRead s = .next { s with
        cnt := 0, phase := .converting, conv := .converting ch tr
        eoc := if s.eoc then Config.eocDraw s.draws else false
        draws := if s.eoc then s.draws + 1 else s.draws
        trace := s.trace ++ [write, .convStart ch tr] }) ∧
    (s.upc = 1#4 → s.t = some cr → s.conv = .idle → s.adon = false →
      exec .adcRead s = .next { s with cnt := 0, phase := .converting, trace := s.trace ++ [write] })

/-- R151: one poll. EOC set leaves for `DONE`; otherwise an unbounded poll stays, and a bounded one counts and at the
limit responds `TIMEOUT`. The other bits of the status word are draws and decide nothing. That `TRACE` gets `Rsp` here,
that `UPC` keeps its value, and the draw counter are the model's (logs 4, 9, 14). -/
def Obligations.PollStep : Prop :=
  ∀ s : State, s.cfg.WF → s.phase = .converting → s.adcClock →
    ∃ v : Word, v.getLsbD s.cfg.bEoc = s.eoc ∧
      (∀ j, j < 32 → j ≠ s.cfg.bEoc → v.getLsbD j = (Config.statusDraw s.draws).getLsbD j) ∧
      let polled : State := { s with draws := s.draws + 1, trace := s.trace ++ [.busRd s.cfg.aSr v] }
      exec .adcRead s = .next
        (if s.eoc = true then { polled with phase := .done }
        else match s.cfg.pollLimit with
          | .unbounded => polled
          | .bounded n =>
            if s.cnt + 1 = n then
              { polled with
                cnt := s.cnt + 1, rsp := some .timeout, phase := .idle
                trace := s.trace ++ [.busRd s.cfg.aSr v, .rsp .timeout] }
            else { polled with cnt := s.cnt + 1 })

/-- R152: in bounded mode the poll that makes the `T`-th without EOC responds `TIMEOUT` and returns to `IDLE`, changing
no register, no fault register, and not the conversion in flight; every poll before it stays in `CONVERTING`. And by the
fairness of the sequencer (R199) every run without a reset that polls in bounded mode gets out: to `DONE`, or to `IDLE`
with `TIMEOUT`. Infinite runs are over any order of turns (logs 5, 6, 15). -/
def Obligations.PollTimeout : Prop :=
  (∀ (s : State) (limit : Nat), s.cfg.WF → s.cfg.pollLimit = .bounded limit → s.phase = .converting → s.cnt = 0 →
    s.adcClock → s.eoc = false →
      (∀ j, j < limit → ∃ t, execN .adcRead j s = .next t ∧ t.phase = .converting ∧ t.rsp = s.rsp) ∧
      ∃ t, execN .adcRead limit s = .next t ∧ t.phase = .idle ∧ t.rsp = some .timeout ∧ t.regs = s.regs ∧
        t.conv = s.conv ∧ t.eoc = false ∧ t.fcause = s.fcause ∧ t.finfo = s.finfo ∧ t.settled = s.settled) ∧
  (∀ (turns : Nat → Turn) (r : Nat → State) (limit : Nat) (w : CommandWords), IsRun turns r → (∀ n, turns n ≠ .reset) →
    (r 0).cfg.WF → (r 0).cfg.pollLimit = .bounded limit → latched (r 0) = some w → decode w = .ok .adcRead →
    (r 0).phase = .converting → (r 0).cnt < limit → (r 0).regs.wf → (r 0).adcClock →
      ∃ n, (r n).phase = .done ∨ ((r n).phase = .idle ∧ (r n).rsp = some .timeout))

/-- R155: in unbounded mode, as long as no completion sets EOC, the sequencer polls on: after any number of turns of the
sequencer and of the host's `issue` and `take`, in any order, it is still polling, with no fault, no response, no
time-out, and the interface busy and not ready. Only a reset turn is left out; the converter's turns count if no
conversion is in flight. And the hang is a run: there is one from such a state, fair to the sequencer and to `take`
(R199). Lists and sequences of turns are the model's (logs 5, 6, 15). -/
def Obligations.PollNeverEndsUnbounded : Prop :=
  ∀ (s : State) (w : CommandWords), s.cfg.WF → s.cfg.pollLimit = .unbounded → latched s = some w →
    decode w = .ok .adcRead → s.phase = .converting → s.adcClock → s.eoc = false → s.rsp = none →
      (∀ turns : List Turn, .reset ∉ turns → (s.conv = .idle ∨ .converter ∉ turns) →
        ∃ t, actN turns s = .next t ∧ t.phase = .converting ∧ t.eoc = false ∧ t.rsp = none ∧ t.fcause = s.fcause ∧
          t.finfo = s.finfo ∧ t.cnt = s.cnt ∧ t.regs = s.regs ∧ t.conv = s.conv ∧ t.busy = true ∧ t.ready = false) ∧
      ∃ (turns : Nat → Turn) (r : Nat → State), r 0 = s ∧ Hangs turns r

/-- The data read of `DONE` completes: the 12-bit result zero-extended, EOC cleared, back to `IDLE` (R153). That `TRACE`
gets `Rsp` here and that `UPC` keeps its value are the model's (logs 9, 14). -/
def Obligations.DoneReturnsResult : Prop :=
  ∀ s : State, s.cfg.WF → s.phase = .done → s.adcClock →
    let d := s.reg s.cfg.aDr
    let r := Response.data ((d.extractLsb' 0 12).zeroExtend 32)
    exec .adcRead s = .next { s with
      eoc := false, rsp := some r, phase := .idle, trace := s.trace ++ [.busRd s.cfg.aDr d, .rsp r] }

/-- R163: every `DATA(w)` with which `ADC_READ` responds has `w` at most 4095. -/
def Obligations.AdcReadResultInRange : Prop :=
  ∀ (s t : State) (w : Word), s.rsp = none → exec .adcRead s = .next t → t.rsp = some (.data w) → w.toNat ≤ 4095

/-- `ADC_READ` as a whole, from `DECODE` with an idle, clocked, enabled converter and EOC 0: after the start and any
number `k` of polls that see EOC 0 (fewer than the limit in bounded mode) the converter completes, and the next poll and
the data read respond with the very sample it drew; EOC is 0 again, no conversion is in flight and the fault registers
are as before (R148 to R153, R157, R160, R230). The draw counter is the model's (log 4). -/
def Obligations.AdcReadReturnsSample : Prop :=
  ∀ (s : State) (w : CommandWords) (k : Nat), s.cfg.WF → s.regs.wf → TriggerClear s → latched s = some w →
    decode w = .ok .adcRead → s.phase = .decode → s.adcClock → s.adon → s.conv = .idle → s.eoc = false →
    (∀ n, s.cfg.pollLimit = .bounded n → k < n) →
      let sample := Config.sampleDraw (s.draws + k)
      ∃ t, actN (List.replicate (3 + k) .sequencer ++ [.converter, .sequencer, .sequencer]) s = .next t ∧
        t.rsp = some (.data (sample.zeroExtend 32)) ∧ t.phase = .idle ∧ t.eoc = false ∧ t.conv = .idle ∧
        t.regs = s.regs.write s.cfg.aDr.toNat (sample.zeroExtend 32) ∧ t.fcause = s.fcause ∧ t.settled = s.settled

/-- Where the driver commands fault, with what cause and what in `FINFO`, and with no other effect: `PIN_SET` on a
gated-off port at its read, `ADC_INIT` with a conversion in flight at its write of `A_SQR`, `ADC_READ` with the
converter's clock off at its read of `A_CR` and with a conversion in flight at its write (R122, R140, R148, R184). -/
def Obligations.DriverCommandsFault : Prop :=
  ∀ (s : State) (pin : BitVec 4) (level : Bool) (w : Word), s.cfg.WF →
    let faulted (c : Cause) (a : Word) : State :=
      { s with phase := .fault, fcause := some c, finfo := a, trace := s.trace ++ [.fault c a] }
    (s.phase = .exec → s.upc = 0#4 → s.outClock = false →
      exec (.pinSet pin level) s = .next (faulted .unclocked s.cfg.aOdrOut)) ∧
    (s.phase = .exec → s.upc = 7#4 → s.adcClock → s.t = some w → s.conv ≠ .idle →
      exec .adcInit s = .next (faulted .converterDisturbed s.cfg.aSqr)) ∧
    (s.phase = .startRequested → s.upc = 0#4 → s.adcClock = false →
      exec .adcRead s = .next (faulted .unclocked s.cfg.aCr)) ∧
    (s.phase = .startRequested → s.upc = 1#4 → s.adcClock → s.t = some w → s.conv ≠ .idle →
      exec .adcRead s = .next (faulted .converterDisturbed s.cfg.aCr))

/-- What a micro-operation of `ADC_INIT` or `ADC_READ` leaves alone: every register but the one its step writes, and the
latches, fault registers and response slot outside their events. `ADC_INIT` changes neither EOC nor the conversion;
`ADC_READ` never changes `SETTLED` while `T` holds `A_CR`'s word. -/
def Obligations.AnalogInputFrame : Prop :=
  (∀ s t : State, s.cfg.WF → s.regs.wf → exec .adcInit s = .next t →
    SameCommand s t ∧ SameFaultRegs s t ∧ SameResponse s t ∧ TraceGrows s t ∧
      (LatchedFrom s s.cfg.aCr → TriggerClear s → t.eoc = s.eoc ∧ t.conv = s.conv) ∧
      (s.upc ≠ 9#4 → t.eoc = s.eoc ∧ t.conv = s.conv ∧ t.draws = s.draws) ∧
      RegsKeptBut
        (if s.phase ≠ .exec then []
        else if s.upc = 1#4 then [s.cfg.aClkAn]
        else if s.upc = 3#4 then [s.cfg.aClkAdc]
        else if s.upc = 5#4 then [s.cfg.aModerAn]
        else if s.upc = 7#4 then [s.cfg.aSqr]
        else if s.upc = 9#4 then [s.cfg.aCr]
        else []) s t) ∧
  (∀ s t : State, s.cfg.WF → s.regs.wf → exec .adcRead s = .next t →
    SameCommand s t ∧ SameFaultRegs s t ∧ SameResponse s t ∧ TraceGrows s t ∧
      (LatchedFrom s s.cfg.aCr → t.settled = s.settled) ∧
      (s.phase ≠ .startRequested → t.regs = s.regs ∧ t.conv = s.conv ∧ t.settled = s.settled) ∧
      RegsKeptBut (if s.phase = .startRequested ∧ s.upc = 1#4 then [s.cfg.aCr] else []) s t)

/-- R106: `PORT_INIT` leaves `REG` as the host's two `MOD`s with its operands do, and so does `ADC_INIT` with its five.
-/
def Obligations.MicroProgramsEqualMods : Prop :=
  (∀ (s : State) (m : Word), s.cfg.WF → s.regs.wf → ClockHeld s → s.phase = .decode →
    ∃ t u v, execN (.portInit m) 5 s = .next t ∧
      execN (.mod s.cfg.aClkOut (bit s.cfg.bClkOut) 0#32) 3 s = .next u ∧
      execN (.mod s.cfg.aModerOut (outSet m) (outClr m)) 3 { u with phase := .decode, rsp := none } = .next v ∧
      v.regs = t.regs) ∧
  (∀ s : State, s.cfg.WF → s.regs.wf → TriggerClear s → (s.settled → s.adcClock) → s.conv = .idle → s.phase = .decode →
    ∃ t u1 u2 u3 u4 u5, execN .adcInit (11 + s.cfg.stabCount) s = .next t ∧
      execN (.mod s.cfg.aClkAn (bit s.cfg.bClkAn) 0#32) 3 s = .next u1 ∧
      execN (.mod s.cfg.aClkAdc (bit s.cfg.bClkAdc) 0#32) 3 { u1 with phase := .decode, rsp := none } = .next u2 ∧
      execN (.mod s.cfg.aModerAn (modeBits modeAnalog s.cfg.pinSensor) 0#32) 3
        { u2 with phase := .decode, rsp := none } = .next u3 ∧
      execN (.mod s.cfg.aSqr (sensorChannelBits s.cfg) (sq1Mask s.cfg)) 3
        { u3 with phase := .decode, rsp := none } = .next u4 ∧
      execN (.mod s.cfg.aCr (bit s.cfg.bAdon) 0#32) 3 { u4 with phase := .decode, rsp := none } = .next u5 ∧
      u5.regs = t.regs)

/-! ### The converter, the host, faults and reset (spec/60_exceptions.md, spec/70_reset_and_hazards.md) -/

/-- R160 with R161: with a conversion in flight the converter's turn puts a drawn sample of 12 bits into `A_DR`, sets
EOC, ends the conversion and records it, and changes nothing else; with none in flight it changes nothing. The draw
counter is the model's (log 4). -/
def Obligations.ConverterCompletes : Prop :=
  ∀ s : State,
    (∀ ch tr, s.conv = .converting ch tr →
      ∃ sample : Sample, sample = Config.sampleDraw s.draws ∧
        act .converter s = .next { s with
          regs := s.regs.write s.cfg.aDr.toNat (sample.zeroExtend 32), eoc := true, conv := .idle
          draws := s.draws + 1, trace := s.trace ++ [.convDone ch tr sample] }) ∧
    (s.conv = .idle → act .converter s = .next s)

/-- R198: the host's `issue` is taken exactly when the interface is ready, and `take` empties the response slot. That a
command not taken changes nothing is the model's reading (log 6). -/
def Obligations.HostActions : Prop :=
  ∀ (s : State) (c a x y : Word),
    (s.phase = .idle → s.rsp = none →
      act (.issue c a x y) s = .next { s with
        cmd := some c, opaddr := some a, opa := some x, opb := some y, phase := .decode
        trace := s.trace ++ [.issue c a x y] }) ∧
    ((s.phase ≠ .idle ∨ s.rsp ≠ none) → act (.issue c a x y) s = .next s) ∧
    act .take s = .next { s with rsp := none }

/-- R210 with R44 and R211: the host's reset leaves the block ready, with every register of the sequencer and converter
at the value R44 gives, from any state; START of `A_CR` and bits 31:12 of `A_DR` are 0. Only the values R44 fixes are
stated; the drawn ones are free (log 8). -/
def Obligations.ResetLeaves : Prop :=
  ∀ s : State, s.cfg.WF →
    ∃ t, act .reset s = .next t ∧ t.phase = .idle ∧ t.upc = 0#4 ∧ t.cnt = 0 ∧ t.cmd = none ∧ t.opaddr = none ∧
      t.opa = none ∧ t.opb = none ∧ t.t = none ∧ t.rsp = none ∧ t.fcause = none ∧ t.finfo = 0#32 ∧ t.conv = .idle ∧
      t.settled = false ∧ t.trace = [] ∧ t.cfg = s.cfg ∧ t.ready = true ∧ t.faulted = false ∧
      (t.reg s.cfg.aCr).getLsbD s.cfg.bStart = false ∧ (t.reg s.cfg.aDr).extractLsb' 12 20 = 0#20

/-- R186: a step of the sequencer that enters `FAULT` has no other effect: everything but `phase`, `FCAUSE`, `FINFO` and
one event is as before. -/
def Obligations.FaultEntryIsPrecise : Prop :=
  ∀ s t : State, s.phase ≠ .fault → sequencerStep s = .next t → t.phase = .fault →
    ∃ c info, t = { s with
      phase := .fault, fcause := some c, finfo := info, trace := s.trace ++ [.fault c info] }

/-- R187 and R188: in `FAULT` the run has gone wrong, the sequencer has no step, and the host cannot issue; no turn but
the host's reset leaves `FAULT` or changes the fault registers; a conversion in flight may still complete. A turn of an
agent that is not enabled leaves the state as it is (log 6). -/
def Obligations.FaultIsSticky : Prop :=
  ∀ s : State, s.phase = .fault →
    GoneWrong s ∧ ¬EndsWell s ∧ s.ready = false ∧ act .sequencer s = .next s ∧
    (∀ c a x y, act (.issue c a x y) s = .next s) ∧
    (s.conv ≠ .idle → ∃ t, act .converter s = .next t ∧ t.conv = .idle ∧ t.eoc = true) ∧
    (∀ turn, turn ≠ .reset →
      ∃ t, act turn s = .next t ∧ t.phase = .fault ∧ t.fcause = s.fcause ∧ t.finfo = s.finfo) ∧
    ∃ t, act .reset s = .next t ∧ t.phase = .idle ∧ t.fcause = none ∧ t.finfo = 0#32

/-- R184 with R181: from a state of the invariant, the sequencer's step enters `FAULT` only with a cause the table gives
that command at that micro-operation, with the address or command word in `FINFO`: an illegal command at `DECODE`, and a
legal one by `mayRaise`. `PORT_INIT` never faults. -/
def Obligations.FaultTable : Prop :=
  ∀ (s t : State) (w : CommandWords), Inv s → s.busy → latched s = some w → sequencerStep s = .next t →
    t.phase = .fault →
      ∃ c, t.fcause = some c ∧
        match decode w with
        | .error _ => s.phase = .decode ∧ c = .illegalCommand ∧ t.finfo = w.cmd
        | .ok i => mayRaise i s c t.finfo

/-- R81: the interface outputs as functions of the state, with the codes of R181. -/
def Obligations.InterfaceOutputs : Prop :=
  ∀ s : State,
    (s.ready = true ↔ s.phase = .idle ∧ s.rsp = none) ∧
    (s.busy = true ↔ s.phase ≠ .idle ∧ s.phase ≠ .fault) ∧
    (s.faulted = true ↔ s.phase = .fault) ∧
    (s.fcause = none → faultCauseOut s = 0#3) ∧
    (s.fcause = some .illegalCommand → faultCauseOut s = 1#3) ∧
    (s.fcause = some .misaligned → faultCauseOut s = 2#3) ∧
    (s.fcause = some .unmapped → faultCauseOut s = 3#3) ∧
    (s.fcause = some .unclocked → faultCauseOut s = 4#3) ∧
    (s.fcause = some .roWrite → faultCauseOut s = 5#3) ∧
    (s.fcause = some .converterDisturbed → faultCauseOut s = 6#3) ∧
    faultInfoOut s = s.finfo ∧
    (rspValidOut s = true ↔ s.rsp ≠ none) ∧
    (s.rsp = none → rspKindOut s = 0b00#2 ∧ rspDataOut s = 0#32) ∧
    (s.rsp = some .ok → rspKindOut s = 0b01#2 ∧ rspDataOut s = 0#32) ∧
    (∀ w, s.rsp = some (.data w) → rspKindOut s = 0b10#2 ∧ rspDataOut s = w) ∧
    (s.rsp = some .timeout → rspKindOut s = 0b11#2 ∧ rspDataOut s = 0#32) ∧
    ∀ n : Fin 16, pinDrive s n =
      if s.clocked s.cfg.aModerOut = true ∧ (s.reg s.cfg.aModerOut).extractLsb' (2 * n) 2 = 0b01#2 then
        .driven ((s.reg s.cfg.aOdrOut).getLsbD n)
      else .notDriven

/-! ### Whole-machine rules -/

/-- R42: every turn but the host's reset only appends to `TRACE`, and no turn reads it: with an older history put in
front, the same turn answers the same state with that history in front. -/
def Obligations.TraceIsWriteOnly : Prop :=
  (∀ (s t : State) (turn : Turn), turn ≠ .reset → act turn s = .next t → TraceGrows s t) ∧
  (∀ (s t : State) (turn : Turn) (older : List Event), turn ≠ .reset → act turn s = .next t →
    act turn { s with trace := older ++ s.trace } = .next { t with trace := older ++ t.trace }) ∧
  (∀ (s : State) (older : List Event), act .reset { s with trace := older } = act .reset s)

/-- R33: `SETTLED` is set only by the end of `ADC_INIT`'s wait, with ADON set, and cleared only by a write that changes
ADON, a write that leaves the converter's clock bit 0, or reset. -/
def Obligations.SettledChangesOnlyByRule : Prop :=
  ∀ (s t : State) (turn : Turn), s.cfg.WF → s.regs.wf → act turn s = .next t → t.settled ≠ s.settled →
    (t.settled = true ∧ turn = .sequencer ∧ t.adon = true ∧ t.rsp = some .ok ∧
      ∃ w, latched s = some w ∧ decode w = .ok .adcInit) ∨
    (t.settled = false ∧ (turn = .reset ∨ (turn = .sequencer ∧ (t.adon ≠ s.adon ∨ t.adcClock = false))))

/-- R32 with R157: a conversion begins only by a start request, in the step that writes `A_CR` with START and ADON set,
on the channel in SQ1 and with the trust of R158; one in flight is never replaced, and ends only by the converter's
completion (R160) or by reset (R210). -/
def Obligations.ConversionChangesOnlyByRule : Prop :=
  ∀ (s t : State) (turn : Turn), s.cfg.WF → s.regs.wf → act turn s = .next t → t.conv ≠ s.conv →
    (s.conv = .idle ∧ turn = .sequencer ∧
      ∃ v ch tr later, v.getLsbD s.cfg.bStart = true ∧ v.getLsbD s.cfg.bAdon = true ∧
        t.trace = s.trace ++ .busWr s.cfg.aCr v :: .convStart ch tr :: later ∧ t.conv = .converting ch tr ∧
        ch = ((s.reg s.cfg.aSqr).extractLsb' s.cfg.sq1Pos s.cfg.sq1Width).toNat ∧ ch < 2 ^ s.cfg.sq1Width ∧
        (tr = true ↔ s.settled = true ∧ s.adon = true ∧ ch = s.cfg.chSensor ∧
          modeField (s.reg s.cfg.aModerAn) s.cfg.pinSensor = 0b11#2) ∧
        t.adon = true) ∨
    (t.conv = .idle ∧ (turn = .converter ∨ turn = .reset))

/-- R39 and R66: EOC is set only by the converter's completion, and cleared only by a read of `A_DR`, by a start request
that finds it set, or by reset, which may leave it either way. -/
def Obligations.EocChangesOnlyByRule : Prop :=
  ∀ (s t : State) (turn : Turn), s.cfg.WF → turn ≠ .reset → act turn s = .next t → t.eoc ≠ s.eoc →
    (t.eoc = true ∧ turn = .converter) ∨
    (t.eoc = false ∧ turn = .sequencer ∧
      ((∃ later, t.trace = s.trace ++ .busRd s.cfg.aDr (s.reg s.cfg.aDr) :: later) ∨
        (s.conv = .idle ∧ t.conv ≠ .idle)))

/-- The invariant holds right after reset, under every well-formed configuration and under the one `State.reset` has.
The register contents and the configuration there are the model's choices (logs 1, 2). -/
def Obligations.ResetMeetsInvariant : Prop := Inv State.reset ∧ ∀ c : Cfg, c.WF → Inv (State.resetWith c)

/-- Every step of every agent keeps the invariant. The invariant is the model's own (`Inv`). -/
def Obligations.StepKeepsInvariant : Prop := ∀ s t : State, Inv s → step s = .next t → Inv t

/-- From a state of the invariant the machine always has a next state: no step ends in the model's own stop (log 10).
-/
def Obligations.InvariantNeverStuck : Prop := ∀ s : State, Inv s → ∃ t, step s = .next t
end

