-- ==== Sys2Proof/Laws/AddressMap.lean ====
section
/-! SUPPORT. What well-formedness (spec/00_scope.md R8) says of the address map: which registers differ, which domain
each belongs to, and which checks a fixed address passes. -/

namespace Sys2Proof

namespace Cfg

variable {c : Cfg}

theorem mem_mapped_iff {a : Word} : a ∈ Machine.mapped c ↔
    a = c.aClkOut ∨ a = c.aClkAn ∨ a = c.aClkAdc ∨ a = c.aModerOut ∨ a = c.aOdrOut ∨ a = c.aModerAn ∨
      a = c.aSqr ∨ a = c.aCr ∨ a = c.aSr ∨ a = c.aDr := by
  simp [Machine.mapped]

/-- W2: a clock-enable address is no peripheral address. -/
theorem WF.clock_ne (h : c.WF) {a b : Word} (ha : a ∈ c.clockAddresses) (hb : b ∈ c.peripheralAddresses) : a ≠ b :=
  fun hab => h.w2 a ha (hab ▸ hb)

/-- W3: a converter address is no port address. -/
theorem WF.converter_ne (h : c.WF) {a b : Word} (ha : a ∈ [c.aSqr, c.aCr, c.aSr, c.aDr])
    (hb : b ∈ [c.aModerOut, c.aOdrOut, c.aModerAn]) : a ≠ b :=
  fun hab => h.w3.2 a ha (hab ▸ hb)

/-- W3: the converter's four addresses differ. -/
theorem WF.converter_nodup (h : c.WF) :
    c.aSqr ≠ c.aCr ∧ c.aSqr ≠ c.aSr ∧ c.aSqr ≠ c.aDr ∧ c.aCr ≠ c.aSr ∧ c.aCr ≠ c.aDr ∧ c.aSr ≠ c.aDr := by
  have := h.w3.1
  simp only [List.nodup_cons, List.mem_cons, List.not_mem_nil, or_false, not_or] at this
  tauto

theorem WF.bits_lt (h : c.WF) :
    c.bClkOut < 32 ∧ c.bClkAn < 32 ∧ c.bClkAdc < 32 ∧ c.bAdon < 32 ∧ c.bStart < 32 ∧ c.bEoc < 32 := by
  have := h.w6.1
  simpa using this

/-- W1: a mapped address passes the alignment check of R70. -/
theorem WF.aligned (h : c.WF) {a : Word} (ha : a ∈ Machine.mapped c) : a.extractLsb' 0 2 = 0#2 := by
  apply BitVec.eq_of_toNat_eq
  have := h.w1 a ha
  simpa [BitVec.extractLsb'_toNat] using this

end Cfg

namespace Machine

variable {c : Cfg} {s : State}

theorem domainOf_clock {a : Word} (ha : a ∈ c.clockAddresses) : domainOf c a = some .always := if_pos ha

theorem domainOf_port (h : c.WF) {a : Word} (ha : a = c.aModerOut ∨ a = c.aOdrOut) : domainOf c a = some .out := by
  have hn : a ∉ c.clockAddresses := fun hc => h.clock_ne hc (by rcases ha with rfl | rfl <;> simp) rfl
  unfold domainOf
  rw [if_neg hn, if_pos ha]

theorem domainOf_converter (h : c.WF) {a : Word} (ha : a ∈ [c.aSqr, c.aCr, c.aSr, c.aDr]) :
    domainOf c a = some .adc := by
  have hn : a ∉ c.clockAddresses := fun hc => h.clock_ne hc (by simp at ha ⊢; tauto) rfl
  have hp : ∀ b ∈ [c.aModerOut, c.aOdrOut, c.aModerAn], a ≠ b := fun b hb => h.converter_ne ha hb
  unfold domainOf
  rw [if_neg hn, if_neg (by simp at hp; tauto), if_neg (by simp at hp; tauto), if_pos (by simpa using ha)]

theorem clocked_clock {a : Word} (ha : a ∈ s.cfg.clockAddresses) : s.clocked a = true := by
  simp [State.clocked, domainOf_clock ha, State.enabled]

theorem clocked_port (h : s.cfg.WF) {a : Word} (ha : a = s.cfg.aModerOut ∨ a = s.cfg.aOdrOut) :
    s.clocked a = s.outClock := by
  simp [State.clocked, domainOf_port h ha, State.enabled]

theorem clocked_converter (h : s.cfg.WF) {a : Word} (ha : a ∈ [s.cfg.aSqr, s.cfg.aCr, s.cfg.aSr, s.cfg.aDr]) :
    s.clocked a = s.adcClock := by
  simp [State.clocked, domainOf_converter h ha, State.enabled]

/-- On one port W5 makes the two port clocks one. -/
theorem clocked_moderAn (h : s.cfg.WF) : s.clocked s.cfg.aModerAn = s.anClock := by
  by_cases hp : s.cfg.aModerAn = s.cfg.aModerOut
  · rw [clocked_port h (.inl hp)]
    have := h.w5 hp
    simp [State.outClock, State.anClock, this]
  · have hn : s.cfg.aModerAn ∉ s.cfg.clockAddresses := fun hc => h.clock_ne hc (by simp) rfl
    have hd : domainOf s.cfg s.cfg.aModerAn = some .an := by
      unfold domainOf
      rw [if_neg hn, if_neg (by simp [hp, h.w4.2]), if_pos rfl]
    simp [State.clocked, hd, State.enabled]

/-- The checks of an access to a mapped address come down to its clock. -/
theorem accessFault_mapped (h : s.cfg.WF) {a : Word} (ha : a ∈ mapped s.cfg) :
    accessFault s a = if s.clocked a = false then some .unclocked else none := by
  unfold accessFault
  rw [if_neg (by simp [h.aligned ha]), if_neg (by simp [ha])]

/-- An access that passes its checks is to a mapped, clocked, aligned address. -/
theorem accessFault_none {a : Word} (h : accessFault s a = none) :
    a.extractLsb' 0 2 = 0#2 ∧ a ∈ mapped s.cfg ∧ s.clocked a = true := by
  unfold accessFault at h
  split at h
  · cases h
  · split at h
    · cases h
    · split at h
      · cases h
      · rename_i h1 h2 h3
        exact ⟨by simpa using h1, by simpa using h2, by simpa using h3⟩

theorem writeCheck_none {a : Word} : writeCheck s a = none ↔
    accessFault s a = none ∧ a ≠ s.cfg.aSr ∧ a ≠ s.cfg.aDr := by
  unfold writeCheck
  cases accessFault s a <;> simp [not_or]

theorem writeFault_none {a v : Word} : writeFault s a v = none ↔ writeCheck s a = none ∧ s.disturbs a v = false := by
  unfold writeFault
  cases writeCheck s a <;> simp

end Machine

end Sys2Proof
end

