-- ==== Sys2Proof/Laws/Bits.lean ====
section
/-! SUPPORT. Bits of the merge, of single-bit words and of mode fields. -/

namespace Sys2Proof.Machine

theorem getLsbD_bit (i j : Nat) : (bit i).getLsbD j = (decide (i = j) && decide (j < 32)) := by
  unfold bit
  rw [BitVec.getLsbD_shiftLeft, BitVec.getLsbD_one]
  by_cases h : i = j
  · subst h; simp
  · by_cases h2 : j < i
    · simp [h, h2]
    · have : ¬ j - i = 0 := by omega
      simp [h, this]

@[simp] theorem getLsbD_bit_self {i : Nat} (h : i < 32) : (bit i).getLsbD i = true := by
  simp [getLsbD_bit, h]

theorem getLsbD_merge (o s c : Word) (i : Nat) :
    (merge o s c).getLsbD i = ((o.getLsbD i && !c.getLsbD i) || s.getLsbD i) := by
  unfold merge
  by_cases h : i < 32
  · rw [BitVec.getLsbD_or, BitVec.getLsbD_and, BitVec.getLsbD_not, decide_eq_true h, Bool.true_and]
  · simp [BitVec.getLsbD_of_ge _ _ (Nat.not_lt.mp h)]

/-- A merge that clears nothing ORs its mask in. -/
theorem merge_set (w x : Word) : merge w x 0#32 = w ||| x := by
  have h : ~~~(0#32) = BitVec.allOnes 32 := by decide
  rw [merge, h, BitVec.and_allOnes]

/-- A merge that sets nothing clears its mask. -/
theorem merge_clear (w x : Word) : merge w 0#32 x = w &&& ~~~x := by simp [merge]

/-- A set-only merge never clears a bit. -/
theorem getLsbD_merge_set {o s : Word} {i : Nat} (h : o.getLsbD i = true) : (merge o s 0#32).getLsbD i = true := by
  simp [getLsbD_merge, h]

/-- A merge that sets a bit leaves it set. -/
theorem getLsbD_merge_bit {o c : Word} {i : Nat} (h : i < 32) : (merge o (bit i) c).getLsbD i = true := by
  rw [getLsbD_merge, getLsbD_bit_self h, Bool.or_true]

/-- A cleared bit of a word that clears it, and no other. -/
theorem getLsbD_and_not_bit (v : Word) (b i : Nat) :
    (v &&& ~~~bit b).getLsbD i = (v.getLsbD i && decide (b ≠ i)) := by
  by_cases h : i < 32
  · rw [BitVec.getLsbD_and, BitVec.getLsbD_not, getLsbD_bit]
    simp [h]
  · simp [BitVec.getLsbD_of_ge _ _ (Nat.not_lt.mp h)]

end Sys2Proof.Machine
end

