-- ==== Sys2Proof/Laws/Memory.lean ====
section
/-! SUPPORT. Laws of the register file: read after write, and the canonical form is kept. -/

namespace Sys2Proof.Machine

@[simp] theorem Memory.read_nil (a : Nat) : Memory.read [] a = 0#32 := rfl

@[simp] theorem Memory.read_entry (k : Nat) (v : Word) (m : Memory) (a : Nat) :
    Memory.read ((k, v) :: m) a = if k = a then v else Memory.read m a := rfl

/-- An address below every entry is unlisted. -/
theorem Memory.read_of_lt (m : Memory) (a : Nat) (h : ∀ p ∈ m, a < p.1) : m.read a = 0#32 := by
  induction m with
  | nil => rfl
  | cons p m ih =>
    obtain ⟨k, v⟩ := p
    have hk : a < k := h (k, v) (by simp)
    rw [read_entry, if_neg (by omega), ih fun q hq => h q (by simp [hq])]

theorem Memory.wf_nil : Memory.wf [] := by simp [Memory.wf]

theorem Memory.wf_tail {p : Nat × Word} {m : Memory} (h : Memory.wf (p :: m)) : Memory.wf m :=
  ⟨(List.pairwise_cons.mp h.1).2, fun q hq => h.2 q (by simp [hq])⟩

theorem Memory.wf_head_lt {p : Nat × Word} {m : Memory} (h : Memory.wf (p :: m)) : ∀ q ∈ m, p.1 < q.1 :=
  (List.pairwise_cons.mp h.1).1

/-- Putting a word in front of higher addresses keeps the canonical form. -/
theorem Memory.wf_cons {a : Nat} {v : Word} {m : Memory} (hm : m.wf) (ha : ∀ p ∈ m, a < p.1) :
    Memory.wf (Memory.cons a v m) := by
  unfold Memory.cons
  split
  · exact hm
  · rename_i hv
    refine ⟨List.pairwise_cons.mpr ⟨ha, hm.1⟩, fun p hp => ?_⟩
    rcases List.mem_cons.mp hp with rfl | hp
    · exact hv
    · exact hm.2 p hp

theorem Memory.read_cons {a : Nat} {v : Word} {m : Memory} (ha : ∀ p ∈ m, a < p.1) (b : Nat) :
    (Memory.cons a v m).read b = if a = b then v else m.read b := by
  unfold Memory.cons
  split
  · rename_i hv
    split
    · subst hv; subst b; exact read_of_lt m a ha
    · rfl
  · simp

/-- The addresses a write can list: the one written and those listed before. -/
theorem Memory.mem_cons {a : Nat} {v : Word} {m : Memory} {p : Nat × Word} (h : p ∈ Memory.cons a v m) :
    p.1 = a ∨ p ∈ m := by
  unfold Memory.cons at h
  split at h
  · exact .inr h
  · rcases List.mem_cons.mp h with rfl | h
    · exact .inl rfl
    · exact .inr h

theorem Memory.mem_write {m : Memory} {a : Nat} {v : Word} {p : Nat × Word} (h : p ∈ m.write a v) :
    p.1 = a ∨ p ∈ m := by
  induction m with
  | nil => exact mem_cons h
  | cons q m ih =>
    obtain ⟨k, w⟩ := q
    unfold Memory.write at h
    split at h
    · exact mem_cons h
    · split at h
      · rcases mem_cons h with h | h
        · exact .inl h
        · exact .inr (by simp [h])
      · rcases List.mem_cons.mp h with rfl | h
        · exact .inr (by simp)
        · rcases ih h with h | h
          · exact .inl h
          · exact .inr (by simp [h])

/-- A write keeps the canonical form. -/
theorem Memory.wf_write {m : Memory} (hm : m.wf) (a : Nat) (v : Word) : (m.write a v).wf := by
  induction m with
  | nil => exact wf_cons wf_nil (by simp)
  | cons q m ih =>
    obtain ⟨k, w⟩ := q
    have hlt := wf_head_lt hm
    unfold Memory.write
    split
    · rename_i hak
      refine wf_cons hm fun p hp => ?_
      rcases List.mem_cons.mp hp with rfl | hp
      · exact hak
      · exact Nat.lt_trans hak (hlt p hp)
    · split
      · rename_i hak; subst hak
        exact wf_cons (wf_tail hm) hlt
      · rename_i h1 h2
        have ht := ih (wf_tail hm)
        refine ⟨List.pairwise_cons.mpr ⟨fun p hp => ?_, ht.1⟩, fun p hp => ?_⟩
        · rcases mem_write hp with h | h
          · omega
          · exact hlt p h
        · rcases List.mem_cons.mp hp with rfl | hp
          · exact hm.2 _ (by simp)
          · exact ht.2 p hp

/-- A read after a write gives the word written at its address and leaves every other address alone. -/
theorem Memory.read_write {m : Memory} (hm : m.wf) (a : Nat) (v : Word) (b : Nat) :
    (m.write a v).read b = if a = b then v else m.read b := by
  induction m with
  | nil => exact read_cons (by simp) b
  | cons q m ih =>
    obtain ⟨k, w⟩ := q
    have hlt := wf_head_lt hm
    unfold Memory.write
    split
    · rename_i hak
      refine read_cons (fun p hp => ?_) b
      rcases List.mem_cons.mp hp with rfl | hp
      · exact hak
      · exact Nat.lt_trans hak (hlt p hp)
    · split
      · rename_i hak; subst hak
        rw [read_cons hlt, read_entry]
        split <;> rfl
      · rename_i h1 h2
        rw [read_entry, read_entry, ih (wf_tail hm)]
        split
        · rename_i hkb; subst hkb; rw [if_neg h2]
        · rfl

/-- Canonical register files with equal reads are equal data. -/
theorem Memory.ext {m n : Memory} (hm : m.wf) (hn : n.wf) (h : ∀ a, m.read a = n.read a) : m = n := by
  induction m generalizing n with
  | nil =>
    cases n with
    | nil => rfl
    | cons q n =>
      obtain ⟨l, w⟩ := q
      have := h l
      exact absurd (by simpa using this.symm) (hn.2 (l, w) (by simp))
  | cons p m ih =>
    obtain ⟨k, v⟩ := p
    have hv : v ≠ 0#32 := hm.2 (k, v) (by simp)
    cases n with
    | nil => exact absurd (by simpa using h k) hv
    | cons q n =>
      obtain ⟨l, w⟩ := q
      have hw : w ≠ 0#32 := hn.2 (l, w) (by simp)
      have hkl : k = l := by
        rcases Nat.lt_trichotomy k l with hlt | heq | hgt
        · have := h k
          rw [read_entry, if_pos rfl, read_of_lt ((l, w) :: n) k] at this
          · exact absurd this hv
          · intro p hp
            rcases List.mem_cons.mp hp with rfl | hp
            · exact hlt
            · exact Nat.lt_trans hlt (wf_head_lt hn p hp)
        · exact heq
        · have := h l
          rw [read_entry l w, if_pos rfl, read_of_lt ((k, v) :: m) l] at this
          · exact absurd this.symm hw
          · intro p hp
            rcases List.mem_cons.mp hp with rfl | hp
            · exact hgt
            · exact Nat.lt_trans hgt (wf_head_lt hm p hp)
      subst hkl
      have hvw : v = w := by simpa using h k
      subst hvw
      refine congrArg _ (ih (wf_tail hm) (wf_tail hn) fun a => ?_)
      by_cases hka : k = a
      · subst hka
        rw [read_of_lt m k (wf_head_lt hm), read_of_lt n k (wf_head_lt hn)]
      · simpa [hka] using h a

/-- A listed address reads as its entry. -/
theorem Memory.read_mem {m : Memory} (hm : m.wf) {p : Nat × Word} (hp : p ∈ m) : m.read p.1 = p.2 := by
  induction m with
  | nil => cases hp
  | cons q m ih =>
    obtain ⟨k, v⟩ := q
    rcases List.mem_cons.mp hp with rfl | h
    · simp
    · have := Memory.wf_head_lt hm p h
      rw [Memory.read_entry, if_neg (by dsimp at this; omega)]
      exact ih (Memory.wf_tail hm) h

/-- Writing back the word an address holds changes nothing. -/
theorem Memory.write_read {m : Memory} (hm : m.wf) (a : Nat) : m.write a (m.read a) = m := by
  refine Memory.ext (Memory.wf_write hm _ _) hm fun b => ?_
  rw [Memory.read_write hm]
  split
  · rename_i h; rw [h]
  · rfl

end Sys2Proof.Machine
end

