-- ==== Sys2Proof/Laws/State.lean ====
section
/-! SUPPORT. What each update of the state does to each field, so that no proof unfolds a record update. -/

namespace Sys2Proof.Machine

@[simp] theorem State.log_cfg (s : State) (e : Event) : (s.log e).cfg = s.cfg := rfl
@[simp] theorem State.log_phase (s : State) (e : Event) : (s.log e).phase = s.phase := rfl
@[simp] theorem State.log_upc (s : State) (e : Event) : (s.log e).upc = s.upc := rfl
@[simp] theorem State.log_cnt (s : State) (e : Event) : (s.log e).cnt = s.cnt := rfl
@[simp] theorem State.log_cmd (s : State) (e : Event) : (s.log e).cmd = s.cmd := rfl
@[simp] theorem State.log_opaddr (s : State) (e : Event) : (s.log e).opaddr = s.opaddr := rfl
@[simp] theorem State.log_opa (s : State) (e : Event) : (s.log e).opa = s.opa := rfl
@[simp] theorem State.log_opb (s : State) (e : Event) : (s.log e).opb = s.opb := rfl
@[simp] theorem State.log_t (s : State) (e : Event) : (s.log e).t = s.t := rfl
@[simp] theorem State.log_rsp (s : State) (e : Event) : (s.log e).rsp = s.rsp := rfl
@[simp] theorem State.log_fcause (s : State) (e : Event) : (s.log e).fcause = s.fcause := rfl
@[simp] theorem State.log_finfo (s : State) (e : Event) : (s.log e).finfo = s.finfo := rfl
@[simp] theorem State.log_regs (s : State) (e : Event) : (s.log e).regs = s.regs := rfl
@[simp] theorem State.log_eoc (s : State) (e : Event) : (s.log e).eoc = s.eoc := rfl
@[simp] theorem State.log_conv (s : State) (e : Event) : (s.log e).conv = s.conv := rfl
@[simp] theorem State.log_settled (s : State) (e : Event) : (s.log e).settled = s.settled := rfl
@[simp] theorem State.log_trace (s : State) (e : Event) : (s.log e).trace = s.trace ++ [e] := rfl
@[simp] theorem State.log_draws (s : State) (e : Event) : (s.log e).draws = s.draws := rfl
@[simp] theorem State.log_schedule (s : State) (e : Event) : (s.log e).schedule = s.schedule := rfl
@[simp] theorem State.log_turns (s : State) (e : Event) : (s.log e).turns = s.turns := rfl

@[simp] theorem State.setReg_cfg (s : State) (a v : Word) : (s.setReg a v).cfg = s.cfg := rfl
@[simp] theorem State.setReg_phase (s : State) (a v : Word) : (s.setReg a v).phase = s.phase := rfl
@[simp] theorem State.setReg_upc (s : State) (a v : Word) : (s.setReg a v).upc = s.upc := rfl
@[simp] theorem State.setReg_cnt (s : State) (a v : Word) : (s.setReg a v).cnt = s.cnt := rfl
@[simp] theorem State.setReg_cmd (s : State) (a v : Word) : (s.setReg a v).cmd = s.cmd := rfl
@[simp] theorem State.setReg_opaddr (s : State) (a v : Word) : (s.setReg a v).opaddr = s.opaddr := rfl
@[simp] theorem State.setReg_opa (s : State) (a v : Word) : (s.setReg a v).opa = s.opa := rfl
@[simp] theorem State.setReg_opb (s : State) (a v : Word) : (s.setReg a v).opb = s.opb := rfl
@[simp] theorem State.setReg_t (s : State) (a v : Word) : (s.setReg a v).t = s.t := rfl
@[simp] theorem State.setReg_rsp (s : State) (a v : Word) : (s.setReg a v).rsp = s.rsp := rfl
@[simp] theorem State.setReg_fcause (s : State) (a v : Word) : (s.setReg a v).fcause = s.fcause := rfl
@[simp] theorem State.setReg_finfo (s : State) (a v : Word) : (s.setReg a v).finfo = s.finfo := rfl
@[simp] theorem State.setReg_regs (s : State) (a v : Word) : (s.setReg a v).regs = s.regs.write a.toNat v := rfl
@[simp] theorem State.setReg_eoc (s : State) (a v : Word) : (s.setReg a v).eoc = s.eoc := rfl
@[simp] theorem State.setReg_conv (s : State) (a v : Word) : (s.setReg a v).conv = s.conv := rfl
@[simp] theorem State.setReg_settled (s : State) (a v : Word) : (s.setReg a v).settled = s.settled := rfl
@[simp] theorem State.setReg_trace (s : State) (a v : Word) : (s.setReg a v).trace = s.trace := rfl
@[simp] theorem State.setReg_draws (s : State) (a v : Word) : (s.setReg a v).draws = s.draws := rfl
@[simp] theorem State.setReg_schedule (s : State) (a v : Word) : (s.setReg a v).schedule = s.schedule := rfl
@[simp] theorem State.setReg_turns (s : State) (a v : Word) : (s.setReg a v).turns = s.turns := rfl

@[simp] theorem takeFault_cfg (c : Cause) (w : Word) (s : State) : (takeFault c w s).cfg = s.cfg := rfl
@[simp] theorem takeFault_phase (c : Cause) (w : Word) (s : State) : (takeFault c w s).phase = .fault := rfl
@[simp] theorem takeFault_upc (c : Cause) (w : Word) (s : State) : (takeFault c w s).upc = s.upc := rfl
@[simp] theorem takeFault_cnt (c : Cause) (w : Word) (s : State) : (takeFault c w s).cnt = s.cnt := rfl
@[simp] theorem takeFault_cmd (c : Cause) (w : Word) (s : State) : (takeFault c w s).cmd = s.cmd := rfl
@[simp] theorem takeFault_opaddr (c : Cause) (w : Word) (s : State) : (takeFault c w s).opaddr = s.opaddr := rfl
@[simp] theorem takeFault_opa (c : Cause) (w : Word) (s : State) : (takeFault c w s).opa = s.opa := rfl
@[simp] theorem takeFault_opb (c : Cause) (w : Word) (s : State) : (takeFault c w s).opb = s.opb := rfl
@[simp] theorem takeFault_t (c : Cause) (w : Word) (s : State) : (takeFault c w s).t = s.t := rfl
@[simp] theorem takeFault_rsp (c : Cause) (w : Word) (s : State) : (takeFault c w s).rsp = s.rsp := rfl
@[simp] theorem takeFault_fcause (c : Cause) (w : Word) (s : State) : (takeFault c w s).fcause = some c := rfl
@[simp] theorem takeFault_finfo (c : Cause) (w : Word) (s : State) : (takeFault c w s).finfo = w := rfl
@[simp] theorem takeFault_regs (c : Cause) (w : Word) (s : State) : (takeFault c w s).regs = s.regs := rfl
@[simp] theorem takeFault_eoc (c : Cause) (w : Word) (s : State) : (takeFault c w s).eoc = s.eoc := rfl
@[simp] theorem takeFault_conv (c : Cause) (w : Word) (s : State) : (takeFault c w s).conv = s.conv := rfl
@[simp] theorem takeFault_settled (c : Cause) (w : Word) (s : State) : (takeFault c w s).settled = s.settled := rfl
@[simp] theorem takeFault_trace (c : Cause) (w : Word) (s : State) : (takeFault c w s).trace = s.trace ++ [.fault c w] := rfl
@[simp] theorem takeFault_draws (c : Cause) (w : Word) (s : State) : (takeFault c w s).draws = s.draws := rfl
@[simp] theorem takeFault_schedule (c : Cause) (w : Word) (s : State) : (takeFault c w s).schedule = s.schedule := rfl
@[simp] theorem takeFault_turns (c : Cause) (w : Word) (s : State) : (takeFault c w s).turns = s.turns := rfl

@[simp] theorem respond_cfg (r : Response) (s : State) : (respond r s).cfg = s.cfg := rfl
@[simp] theorem respond_phase (r : Response) (s : State) : (respond r s).phase = .idle := rfl
@[simp] theorem respond_upc (r : Response) (s : State) : (respond r s).upc = s.upc := rfl
@[simp] theorem respond_cnt (r : Response) (s : State) : (respond r s).cnt = s.cnt := rfl
@[simp] theorem respond_cmd (r : Response) (s : State) : (respond r s).cmd = s.cmd := rfl
@[simp] theorem respond_opaddr (r : Response) (s : State) : (respond r s).opaddr = s.opaddr := rfl
@[simp] theorem respond_opa (r : Response) (s : State) : (respond r s).opa = s.opa := rfl
@[simp] theorem respond_opb (r : Response) (s : State) : (respond r s).opb = s.opb := rfl
@[simp] theorem respond_t (r : Response) (s : State) : (respond r s).t = s.t := rfl
@[simp] theorem respond_rsp (r : Response) (s : State) : (respond r s).rsp = some r := rfl
@[simp] theorem respond_fcause (r : Response) (s : State) : (respond r s).fcause = s.fcause := rfl
@[simp] theorem respond_finfo (r : Response) (s : State) : (respond r s).finfo = s.finfo := rfl
@[simp] theorem respond_regs (r : Response) (s : State) : (respond r s).regs = s.regs := rfl
@[simp] theorem respond_eoc (r : Response) (s : State) : (respond r s).eoc = s.eoc := rfl
@[simp] theorem respond_conv (r : Response) (s : State) : (respond r s).conv = s.conv := rfl
@[simp] theorem respond_settled (r : Response) (s : State) : (respond r s).settled = s.settled := rfl
@[simp] theorem respond_trace (r : Response) (s : State) : (respond r s).trace = s.trace ++ [.rsp r] := rfl
@[simp] theorem respond_draws (r : Response) (s : State) : (respond r s).draws = s.draws := rfl
@[simp] theorem respond_schedule (r : Response) (s : State) : (respond r s).schedule = s.schedule := rfl
@[simp] theorem respond_turns (r : Response) (s : State) : (respond r s).turns = s.turns := rfl

@[simp] theorem enter_cfg (p : Phase) (s : State) : (enter p s).cfg = s.cfg := rfl
@[simp] theorem enter_phase (p : Phase) (s : State) : (enter p s).phase = p := rfl
@[simp] theorem enter_upc (p : Phase) (s : State) : (enter p s).upc = 0#4 := rfl
@[simp] theorem enter_cnt (p : Phase) (s : State) : (enter p s).cnt = s.cnt := rfl
@[simp] theorem enter_cmd (p : Phase) (s : State) : (enter p s).cmd = s.cmd := rfl
@[simp] theorem enter_opaddr (p : Phase) (s : State) : (enter p s).opaddr = s.opaddr := rfl
@[simp] theorem enter_opa (p : Phase) (s : State) : (enter p s).opa = s.opa := rfl
@[simp] theorem enter_opb (p : Phase) (s : State) : (enter p s).opb = s.opb := rfl
@[simp] theorem enter_t (p : Phase) (s : State) : (enter p s).t = s.t := rfl
@[simp] theorem enter_rsp (p : Phase) (s : State) : (enter p s).rsp = s.rsp := rfl
@[simp] theorem enter_fcause (p : Phase) (s : State) : (enter p s).fcause = s.fcause := rfl
@[simp] theorem enter_finfo (p : Phase) (s : State) : (enter p s).finfo = s.finfo := rfl
@[simp] theorem enter_regs (p : Phase) (s : State) : (enter p s).regs = s.regs := rfl
@[simp] theorem enter_eoc (p : Phase) (s : State) : (enter p s).eoc = s.eoc := rfl
@[simp] theorem enter_conv (p : Phase) (s : State) : (enter p s).conv = s.conv := rfl
@[simp] theorem enter_settled (p : Phase) (s : State) : (enter p s).settled = s.settled := rfl
@[simp] theorem enter_trace (p : Phase) (s : State) : (enter p s).trace = s.trace := rfl
@[simp] theorem enter_draws (p : Phase) (s : State) : (enter p s).draws = s.draws := rfl
@[simp] theorem enter_schedule (p : Phase) (s : State) : (enter p s).schedule = s.schedule := rfl
@[simp] theorem enter_turns (p : Phase) (s : State) : (enter p s).turns = s.turns := rfl

@[simp] theorem nextMicro_cfg (s : State) : (nextMicro s).cfg = s.cfg := rfl
@[simp] theorem nextMicro_phase (s : State) : (nextMicro s).phase = s.phase := rfl
@[simp] theorem nextMicro_upc (s : State) : (nextMicro s).upc = s.upc + 1#4 := rfl
@[simp] theorem nextMicro_cnt (s : State) : (nextMicro s).cnt = s.cnt := rfl
@[simp] theorem nextMicro_cmd (s : State) : (nextMicro s).cmd = s.cmd := rfl
@[simp] theorem nextMicro_opaddr (s : State) : (nextMicro s).opaddr = s.opaddr := rfl
@[simp] theorem nextMicro_opa (s : State) : (nextMicro s).opa = s.opa := rfl
@[simp] theorem nextMicro_opb (s : State) : (nextMicro s).opb = s.opb := rfl
@[simp] theorem nextMicro_t (s : State) : (nextMicro s).t = s.t := rfl
@[simp] theorem nextMicro_rsp (s : State) : (nextMicro s).rsp = s.rsp := rfl
@[simp] theorem nextMicro_fcause (s : State) : (nextMicro s).fcause = s.fcause := rfl
@[simp] theorem nextMicro_finfo (s : State) : (nextMicro s).finfo = s.finfo := rfl
@[simp] theorem nextMicro_regs (s : State) : (nextMicro s).regs = s.regs := rfl
@[simp] theorem nextMicro_eoc (s : State) : (nextMicro s).eoc = s.eoc := rfl
@[simp] theorem nextMicro_conv (s : State) : (nextMicro s).conv = s.conv := rfl
@[simp] theorem nextMicro_settled (s : State) : (nextMicro s).settled = s.settled := rfl
@[simp] theorem nextMicro_trace (s : State) : (nextMicro s).trace = s.trace := rfl
@[simp] theorem nextMicro_draws (s : State) : (nextMicro s).draws = s.draws := rfl
@[simp] theorem nextMicro_schedule (s : State) : (nextMicro s).schedule = s.schedule := rfl
@[simp] theorem nextMicro_turns (s : State) : (nextMicro s).turns = s.turns := rfl

@[simp] theorem latchT_cfg (v : Word) (s : State) : (latchT v s).cfg = s.cfg := rfl
@[simp] theorem latchT_phase (v : Word) (s : State) : (latchT v s).phase = s.phase := rfl
@[simp] theorem latchT_upc (v : Word) (s : State) : (latchT v s).upc = s.upc := rfl
@[simp] theorem latchT_cnt (v : Word) (s : State) : (latchT v s).cnt = s.cnt := rfl
@[simp] theorem latchT_cmd (v : Word) (s : State) : (latchT v s).cmd = s.cmd := rfl
@[simp] theorem latchT_opaddr (v : Word) (s : State) : (latchT v s).opaddr = s.opaddr := rfl
@[simp] theorem latchT_opa (v : Word) (s : State) : (latchT v s).opa = s.opa := rfl
@[simp] theorem latchT_opb (v : Word) (s : State) : (latchT v s).opb = s.opb := rfl
@[simp] theorem latchT_t (v : Word) (s : State) : (latchT v s).t = some v := rfl
@[simp] theorem latchT_rsp (v : Word) (s : State) : (latchT v s).rsp = s.rsp := rfl
@[simp] theorem latchT_fcause (v : Word) (s : State) : (latchT v s).fcause = s.fcause := rfl
@[simp] theorem latchT_finfo (v : Word) (s : State) : (latchT v s).finfo = s.finfo := rfl
@[simp] theorem latchT_regs (v : Word) (s : State) : (latchT v s).regs = s.regs := rfl
@[simp] theorem latchT_eoc (v : Word) (s : State) : (latchT v s).eoc = s.eoc := rfl
@[simp] theorem latchT_conv (v : Word) (s : State) : (latchT v s).conv = s.conv := rfl
@[simp] theorem latchT_settled (v : Word) (s : State) : (latchT v s).settled = s.settled := rfl
@[simp] theorem latchT_trace (v : Word) (s : State) : (latchT v s).trace = s.trace := rfl
@[simp] theorem latchT_draws (v : Word) (s : State) : (latchT v s).draws = s.draws := rfl
@[simp] theorem latchT_schedule (v : Word) (s : State) : (latchT v s).schedule = s.schedule := rfl
@[simp] theorem latchT_turns (v : Word) (s : State) : (latchT v s).turns = s.turns := rfl

@[simp] theorem setCnt_cfg (n : Nat) (s : State) : (setCnt n s).cfg = s.cfg := rfl
@[simp] theorem setCnt_phase (n : Nat) (s : State) : (setCnt n s).phase = s.phase := rfl
@[simp] theorem setCnt_upc (n : Nat) (s : State) : (setCnt n s).upc = s.upc := rfl
@[simp] theorem setCnt_cnt (n : Nat) (s : State) : (setCnt n s).cnt = n := rfl
@[simp] theorem setCnt_cmd (n : Nat) (s : State) : (setCnt n s).cmd = s.cmd := rfl
@[simp] theorem setCnt_opaddr (n : Nat) (s : State) : (setCnt n s).opaddr = s.opaddr := rfl
@[simp] theorem setCnt_opa (n : Nat) (s : State) : (setCnt n s).opa = s.opa := rfl
@[simp] theorem setCnt_opb (n : Nat) (s : State) : (setCnt n s).opb = s.opb := rfl
@[simp] theorem setCnt_t (n : Nat) (s : State) : (setCnt n s).t = s.t := rfl
@[simp] theorem setCnt_rsp (n : Nat) (s : State) : (setCnt n s).rsp = s.rsp := rfl
@[simp] theorem setCnt_fcause (n : Nat) (s : State) : (setCnt n s).fcause = s.fcause := rfl
@[simp] theorem setCnt_finfo (n : Nat) (s : State) : (setCnt n s).finfo = s.finfo := rfl
@[simp] theorem setCnt_regs (n : Nat) (s : State) : (setCnt n s).regs = s.regs := rfl
@[simp] theorem setCnt_eoc (n : Nat) (s : State) : (setCnt n s).eoc = s.eoc := rfl
@[simp] theorem setCnt_conv (n : Nat) (s : State) : (setCnt n s).conv = s.conv := rfl
@[simp] theorem setCnt_settled (n : Nat) (s : State) : (setCnt n s).settled = s.settled := rfl
@[simp] theorem setCnt_trace (n : Nat) (s : State) : (setCnt n s).trace = s.trace := rfl
@[simp] theorem setCnt_draws (n : Nat) (s : State) : (setCnt n s).draws = s.draws := rfl
@[simp] theorem setCnt_schedule (n : Nat) (s : State) : (setCnt n s).schedule = s.schedule := rfl
@[simp] theorem setCnt_turns (n : Nat) (s : State) : (setCnt n s).turns = s.turns := rfl

@[simp] theorem setPhase_cfg (p : Phase) (s : State) : (setPhase p s).cfg = s.cfg := rfl
@[simp] theorem setPhase_phase (p : Phase) (s : State) : (setPhase p s).phase = p := rfl
@[simp] theorem setPhase_upc (p : Phase) (s : State) : (setPhase p s).upc = s.upc := rfl
@[simp] theorem setPhase_cnt (p : Phase) (s : State) : (setPhase p s).cnt = s.cnt := rfl
@[simp] theorem setPhase_cmd (p : Phase) (s : State) : (setPhase p s).cmd = s.cmd := rfl
@[simp] theorem setPhase_opaddr (p : Phase) (s : State) : (setPhase p s).opaddr = s.opaddr := rfl
@[simp] theorem setPhase_opa (p : Phase) (s : State) : (setPhase p s).opa = s.opa := rfl
@[simp] theorem setPhase_opb (p : Phase) (s : State) : (setPhase p s).opb = s.opb := rfl
@[simp] theorem setPhase_t (p : Phase) (s : State) : (setPhase p s).t = s.t := rfl
@[simp] theorem setPhase_rsp (p : Phase) (s : State) : (setPhase p s).rsp = s.rsp := rfl
@[simp] theorem setPhase_fcause (p : Phase) (s : State) : (setPhase p s).fcause = s.fcause := rfl
@[simp] theorem setPhase_finfo (p : Phase) (s : State) : (setPhase p s).finfo = s.finfo := rfl
@[simp] theorem setPhase_regs (p : Phase) (s : State) : (setPhase p s).regs = s.regs := rfl
@[simp] theorem setPhase_eoc (p : Phase) (s : State) : (setPhase p s).eoc = s.eoc := rfl
@[simp] theorem setPhase_conv (p : Phase) (s : State) : (setPhase p s).conv = s.conv := rfl
@[simp] theorem setPhase_settled (p : Phase) (s : State) : (setPhase p s).settled = s.settled := rfl
@[simp] theorem setPhase_trace (p : Phase) (s : State) : (setPhase p s).trace = s.trace := rfl
@[simp] theorem setPhase_draws (p : Phase) (s : State) : (setPhase p s).draws = s.draws := rfl
@[simp] theorem setPhase_schedule (p : Phase) (s : State) : (setPhase p s).schedule = s.schedule := rfl
@[simp] theorem setPhase_turns (p : Phase) (s : State) : (setPhase p s).turns = s.turns := rfl

@[simp] theorem settle_cfg (s : State) : (settle s).cfg = s.cfg := rfl
@[simp] theorem settle_phase (s : State) : (settle s).phase = s.phase := rfl
@[simp] theorem settle_upc (s : State) : (settle s).upc = s.upc := rfl
@[simp] theorem settle_cnt (s : State) : (settle s).cnt = s.cnt := rfl
@[simp] theorem settle_cmd (s : State) : (settle s).cmd = s.cmd := rfl
@[simp] theorem settle_opaddr (s : State) : (settle s).opaddr = s.opaddr := rfl
@[simp] theorem settle_opa (s : State) : (settle s).opa = s.opa := rfl
@[simp] theorem settle_opb (s : State) : (settle s).opb = s.opb := rfl
@[simp] theorem settle_t (s : State) : (settle s).t = s.t := rfl
@[simp] theorem settle_rsp (s : State) : (settle s).rsp = s.rsp := rfl
@[simp] theorem settle_fcause (s : State) : (settle s).fcause = s.fcause := rfl
@[simp] theorem settle_finfo (s : State) : (settle s).finfo = s.finfo := rfl
@[simp] theorem settle_regs (s : State) : (settle s).regs = s.regs := rfl
@[simp] theorem settle_eoc (s : State) : (settle s).eoc = s.eoc := rfl
@[simp] theorem settle_conv (s : State) : (settle s).conv = s.conv := rfl
@[simp] theorem settle_settled (s : State) : (settle s).settled = true := rfl
@[simp] theorem settle_trace (s : State) : (settle s).trace = s.trace := rfl
@[simp] theorem settle_draws (s : State) : (settle s).draws = s.draws := rfl
@[simp] theorem settle_schedule (s : State) : (settle s).schedule = s.schedule := rfl
@[simp] theorem settle_turns (s : State) : (settle s).turns = s.turns := rfl

@[simp] theorem startPolling_cfg (s : State) : (startPolling s).cfg = s.cfg := rfl
@[simp] theorem startPolling_phase (s : State) : (startPolling s).phase = .converting := rfl
@[simp] theorem startPolling_upc (s : State) : (startPolling s).upc = s.upc := rfl
@[simp] theorem startPolling_cnt (s : State) : (startPolling s).cnt = 0 := rfl
@[simp] theorem startPolling_cmd (s : State) : (startPolling s).cmd = s.cmd := rfl
@[simp] theorem startPolling_opaddr (s : State) : (startPolling s).opaddr = s.opaddr := rfl
@[simp] theorem startPolling_opa (s : State) : (startPolling s).opa = s.opa := rfl
@[simp] theorem startPolling_opb (s : State) : (startPolling s).opb = s.opb := rfl
@[simp] theorem startPolling_t (s : State) : (startPolling s).t = s.t := rfl
@[simp] theorem startPolling_rsp (s : State) : (startPolling s).rsp = s.rsp := rfl
@[simp] theorem startPolling_fcause (s : State) : (startPolling s).fcause = s.fcause := rfl
@[simp] theorem startPolling_finfo (s : State) : (startPolling s).finfo = s.finfo := rfl
@[simp] theorem startPolling_regs (s : State) : (startPolling s).regs = s.regs := rfl
@[simp] theorem startPolling_eoc (s : State) : (startPolling s).eoc = s.eoc := rfl
@[simp] theorem startPolling_conv (s : State) : (startPolling s).conv = s.conv := rfl
@[simp] theorem startPolling_settled (s : State) : (startPolling s).settled = s.settled := rfl
@[simp] theorem startPolling_trace (s : State) : (startPolling s).trace = s.trace := rfl
@[simp] theorem startPolling_draws (s : State) : (startPolling s).draws = s.draws := rfl
@[simp] theorem startPolling_schedule (s : State) : (startPolling s).schedule = s.schedule := rfl
@[simp] theorem startPolling_turns (s : State) : (startPolling s).turns = s.turns := rfl

@[simp] theorem latchCommand_cfg (w : CommandWords) (s : State) : (latchCommand w s).cfg = s.cfg := rfl
@[simp] theorem latchCommand_phase (w : CommandWords) (s : State) : (latchCommand w s).phase = .decode := rfl
@[simp] theorem latchCommand_upc (w : CommandWords) (s : State) : (latchCommand w s).upc = s.upc := rfl
@[simp] theorem latchCommand_cnt (w : CommandWords) (s : State) : (latchCommand w s).cnt = s.cnt := rfl
@[simp] theorem latchCommand_cmd (w : CommandWords) (s : State) : (latchCommand w s).cmd = some w.cmd := rfl
@[simp] theorem latchCommand_opaddr (w : CommandWords) (s : State) : (latchCommand w s).opaddr = some w.addr := rfl
@[simp] theorem latchCommand_opa (w : CommandWords) (s : State) : (latchCommand w s).opa = some w.a := rfl
@[simp] theorem latchCommand_opb (w : CommandWords) (s : State) : (latchCommand w s).opb = some w.b := rfl
@[simp] theorem latchCommand_t (w : CommandWords) (s : State) : (latchCommand w s).t = s.t := rfl
@[simp] theorem latchCommand_rsp (w : CommandWords) (s : State) : (latchCommand w s).rsp = s.rsp := rfl
@[simp] theorem latchCommand_fcause (w : CommandWords) (s : State) : (latchCommand w s).fcause = s.fcause := rfl
@[simp] theorem latchCommand_finfo (w : CommandWords) (s : State) : (latchCommand w s).finfo = s.finfo := rfl
@[simp] theorem latchCommand_regs (w : CommandWords) (s : State) : (latchCommand w s).regs = s.regs := rfl
@[simp] theorem latchCommand_eoc (w : CommandWords) (s : State) : (latchCommand w s).eoc = s.eoc := rfl
@[simp] theorem latchCommand_conv (w : CommandWords) (s : State) : (latchCommand w s).conv = s.conv := rfl
@[simp] theorem latchCommand_settled (w : CommandWords) (s : State) : (latchCommand w s).settled = s.settled := rfl
@[simp] theorem latchCommand_trace (w : CommandWords) (s : State) : (latchCommand w s).trace = s.trace := rfl
@[simp] theorem latchCommand_draws (w : CommandWords) (s : State) : (latchCommand w s).draws = s.draws := rfl
@[simp] theorem latchCommand_schedule (w : CommandWords) (s : State) : (latchCommand w s).schedule = s.schedule := rfl
@[simp] theorem latchCommand_turns (w : CommandWords) (s : State) : (latchCommand w s).turns = s.turns := rfl

@[simp] theorem hostTake_cfg (s : State) : (hostTake s).cfg = s.cfg := rfl
@[simp] theorem hostTake_phase (s : State) : (hostTake s).phase = s.phase := rfl
@[simp] theorem hostTake_upc (s : State) : (hostTake s).upc = s.upc := rfl
@[simp] theorem hostTake_cnt (s : State) : (hostTake s).cnt = s.cnt := rfl
@[simp] theorem hostTake_cmd (s : State) : (hostTake s).cmd = s.cmd := rfl
@[simp] theorem hostTake_opaddr (s : State) : (hostTake s).opaddr = s.opaddr := rfl
@[simp] theorem hostTake_opa (s : State) : (hostTake s).opa = s.opa := rfl
@[simp] theorem hostTake_opb (s : State) : (hostTake s).opb = s.opb := rfl
@[simp] theorem hostTake_t (s : State) : (hostTake s).t = s.t := rfl
@[simp] theorem hostTake_rsp (s : State) : (hostTake s).rsp = none := rfl
@[simp] theorem hostTake_fcause (s : State) : (hostTake s).fcause = s.fcause := rfl
@[simp] theorem hostTake_finfo (s : State) : (hostTake s).finfo = s.finfo := rfl
@[simp] theorem hostTake_regs (s : State) : (hostTake s).regs = s.regs := rfl
@[simp] theorem hostTake_eoc (s : State) : (hostTake s).eoc = s.eoc := rfl
@[simp] theorem hostTake_conv (s : State) : (hostTake s).conv = s.conv := rfl
@[simp] theorem hostTake_settled (s : State) : (hostTake s).settled = s.settled := rfl
@[simp] theorem hostTake_trace (s : State) : (hostTake s).trace = s.trace := rfl
@[simp] theorem hostTake_draws (s : State) : (hostTake s).draws = s.draws := rfl
@[simp] theorem hostTake_schedule (s : State) : (hostTake s).schedule = s.schedule := rfl
@[simp] theorem hostTake_turns (s : State) : (hostTake s).turns = s.turns := rfl

@[simp] theorem hostReset_cfg (s : State) : (hostReset s).cfg = s.cfg := rfl
@[simp] theorem hostReset_phase (s : State) : (hostReset s).phase = .idle := rfl
@[simp] theorem hostReset_upc (s : State) : (hostReset s).upc = 0#4 := rfl
@[simp] theorem hostReset_cnt (s : State) : (hostReset s).cnt = 0 := rfl
@[simp] theorem hostReset_cmd (s : State) : (hostReset s).cmd = none := rfl
@[simp] theorem hostReset_opaddr (s : State) : (hostReset s).opaddr = none := rfl
@[simp] theorem hostReset_opa (s : State) : (hostReset s).opa = none := rfl
@[simp] theorem hostReset_opb (s : State) : (hostReset s).opb = none := rfl
@[simp] theorem hostReset_t (s : State) : (hostReset s).t = none := rfl
@[simp] theorem hostReset_rsp (s : State) : (hostReset s).rsp = none := rfl
@[simp] theorem hostReset_fcause (s : State) : (hostReset s).fcause = none := rfl
@[simp] theorem hostReset_finfo (s : State) : (hostReset s).finfo = 0#32 := rfl
@[simp] theorem hostReset_regs (s : State) : (hostReset s).regs = resetRegs s.cfg s.draws := by
  simp only [hostReset]
@[simp] theorem hostReset_eoc (s : State) : (hostReset s).eoc = Config.resetEocDraw s.draws := rfl
@[simp] theorem hostReset_conv (s : State) : (hostReset s).conv = .idle := rfl
@[simp] theorem hostReset_settled (s : State) : (hostReset s).settled = false := rfl
@[simp] theorem hostReset_trace (s : State) : (hostReset s).trace = [] := rfl
@[simp] theorem hostReset_draws (s : State) : (hostReset s).draws = s.draws + 1 := rfl
@[simp] theorem hostReset_schedule (s : State) : (hostReset s).schedule = s.schedule := rfl
@[simp] theorem hostReset_turns (s : State) : (hostReset s).turns = s.turns := rfl

/-- `REG[a]` is the word the register file holds at the address (R29). -/
theorem State.reg_def (s : State) (a : Word) : s.reg a = s.regs.read a.toNat := rfl

end Sys2Proof.Machine
end

