-- ==== Sys2Proof/Laws/Bus.lean ====
section
/-! SUPPORT. What a bus access does, said once: every field after a read, a write and a start request, and the two
outcomes of a micro-operation that makes one access. -/

namespace Sys2Proof.Machine

variable {s : State}

@[simp] theorem unsettleIf_cfg (b : Bool) (s : State) : (unsettleIf b s).cfg = s.cfg := by
  cases b <;> rfl
@[simp] theorem unsettleIf_phase (b : Bool) (s : State) : (unsettleIf b s).phase = s.phase := by
  cases b <;> rfl
@[simp] theorem unsettleIf_upc (b : Bool) (s : State) : (unsettleIf b s).upc = s.upc := by
  cases b <;> rfl
@[simp] theorem unsettleIf_cnt (b : Bool) (s : State) : (unsettleIf b s).cnt = s.cnt := by
  cases b <;> rfl
@[simp] theorem unsettleIf_cmd (b : Bool) (s : State) : (unsettleIf b s).cmd = s.cmd := by
  cases b <;> rfl
@[simp] theorem unsettleIf_opaddr (b : Bool) (s : State) : (unsettleIf b s).opaddr = s.opaddr := by
  cases b <;> rfl
@[simp] theorem unsettleIf_opa (b : Bool) (s : State) : (unsettleIf b s).opa = s.opa := by
  cases b <;> rfl
@[simp] theorem unsettleIf_opb (b : Bool) (s : State) : (unsettleIf b s).opb = s.opb := by
  cases b <;> rfl
@[simp] theorem unsettleIf_t (b : Bool) (s : State) : (unsettleIf b s).t = s.t := by
  cases b <;> rfl
@[simp] theorem unsettleIf_rsp (b : Bool) (s : State) : (unsettleIf b s).rsp = s.rsp := by
  cases b <;> rfl
@[simp] theorem unsettleIf_fcause (b : Bool) (s : State) : (unsettleIf b s).fcause = s.fcause := by
  cases b <;> rfl
@[simp] theorem unsettleIf_finfo (b : Bool) (s : State) : (unsettleIf b s).finfo = s.finfo := by
  cases b <;> rfl
@[simp] theorem unsettleIf_regs (b : Bool) (s : State) : (unsettleIf b s).regs = s.regs := by
  cases b <;> rfl
@[simp] theorem unsettleIf_schedule (b : Bool) (s : State) : (unsettleIf b s).schedule = s.schedule := by
  cases b <;> rfl
@[simp] theorem unsettleIf_turns (b : Bool) (s : State) : (unsettleIf b s).turns = s.turns := by
  cases b <;> rfl
@[simp] theorem unsettleIf_eoc (b : Bool) (s : State) : (unsettleIf b s).eoc = s.eoc := by
  cases b <;> rfl
@[simp] theorem unsettleIf_conv (b : Bool) (s : State) : (unsettleIf b s).conv = s.conv := by
  cases b <;> rfl
@[simp] theorem unsettleIf_trace (b : Bool) (s : State) : (unsettleIf b s).trace = s.trace := by
  cases b <;> rfl
@[simp] theorem unsettleIf_draws (b : Bool) (s : State) : (unsettleIf b s).draws = s.draws := by
  cases b <;> rfl

@[simp] theorem unsettleIf_settled (b : Bool) (s : State) : (unsettleIf b s).settled = (s.settled && !b) := by
  cases b <;> simp [unsettleIf]

@[simp] theorem startEoc_cfg (s : State) : (startEoc s).cfg = s.cfg := by
  unfold startEoc; split <;> rfl
@[simp] theorem startEoc_phase (s : State) : (startEoc s).phase = s.phase := by
  unfold startEoc; split <;> rfl
@[simp] theorem startEoc_upc (s : State) : (startEoc s).upc = s.upc := by
  unfold startEoc; split <;> rfl
@[simp] theorem startEoc_cnt (s : State) : (startEoc s).cnt = s.cnt := by
  unfold startEoc; split <;> rfl
@[simp] theorem startEoc_cmd (s : State) : (startEoc s).cmd = s.cmd := by
  unfold startEoc; split <;> rfl
@[simp] theorem startEoc_opaddr (s : State) : (startEoc s).opaddr = s.opaddr := by
  unfold startEoc; split <;> rfl
@[simp] theorem startEoc_opa (s : State) : (startEoc s).opa = s.opa := by
  unfold startEoc; split <;> rfl
@[simp] theorem startEoc_opb (s : State) : (startEoc s).opb = s.opb := by
  unfold startEoc; split <;> rfl
@[simp] theorem startEoc_t (s : State) : (startEoc s).t = s.t := by
  unfold startEoc; split <;> rfl
@[simp] theorem startEoc_rsp (s : State) : (startEoc s).rsp = s.rsp := by
  unfold startEoc; split <;> rfl
@[simp] theorem startEoc_fcause (s : State) : (startEoc s).fcause = s.fcause := by
  unfold startEoc; split <;> rfl
@[simp] theorem startEoc_finfo (s : State) : (startEoc s).finfo = s.finfo := by
  unfold startEoc; split <;> rfl
@[simp] theorem startEoc_regs (s : State) : (startEoc s).regs = s.regs := by
  unfold startEoc; split <;> rfl
@[simp] theorem startEoc_schedule (s : State) : (startEoc s).schedule = s.schedule := by
  unfold startEoc; split <;> rfl
@[simp] theorem startEoc_turns (s : State) : (startEoc s).turns = s.turns := by
  unfold startEoc; split <;> rfl
@[simp] theorem startEoc_conv (s : State) : (startEoc s).conv = s.conv := by
  unfold startEoc; split <;> rfl
@[simp] theorem startEoc_settled (s : State) : (startEoc s).settled = s.settled := by
  unfold startEoc; split <;> rfl
@[simp] theorem startEoc_trace (s : State) : (startEoc s).trace = s.trace := by
  unfold startEoc; split <;> rfl

@[simp] theorem startRequest_cfg (s : State) : (startRequest s).cfg = s.cfg := by
  unfold startRequest; split <;> simp
@[simp] theorem startRequest_phase (s : State) : (startRequest s).phase = s.phase := by
  unfold startRequest; split <;> simp
@[simp] theorem startRequest_upc (s : State) : (startRequest s).upc = s.upc := by
  unfold startRequest; split <;> simp
@[simp] theorem startRequest_cnt (s : State) : (startRequest s).cnt = s.cnt := by
  unfold startRequest; split <;> simp
@[simp] theorem startRequest_cmd (s : State) : (startRequest s).cmd = s.cmd := by
  unfold startRequest; split <;> simp
@[simp] theorem startRequest_opaddr (s : State) : (startRequest s).opaddr = s.opaddr := by
  unfold startRequest; split <;> simp
@[simp] theorem startRequest_opa (s : State) : (startRequest s).opa = s.opa := by
  unfold startRequest; split <;> simp
@[simp] theorem startRequest_opb (s : State) : (startRequest s).opb = s.opb := by
  unfold startRequest; split <;> simp
@[simp] theorem startRequest_t (s : State) : (startRequest s).t = s.t := by
  unfold startRequest; split <;> simp
@[simp] theorem startRequest_rsp (s : State) : (startRequest s).rsp = s.rsp := by
  unfold startRequest; split <;> simp
@[simp] theorem startRequest_fcause (s : State) : (startRequest s).fcause = s.fcause := by
  unfold startRequest; split <;> simp
@[simp] theorem startRequest_finfo (s : State) : (startRequest s).finfo = s.finfo := by
  unfold startRequest; split <;> simp
@[simp] theorem startRequest_regs (s : State) : (startRequest s).regs = s.regs := by
  unfold startRequest; split <;> simp
@[simp] theorem startRequest_schedule (s : State) : (startRequest s).schedule = s.schedule := by
  unfold startRequest; split <;> simp
@[simp] theorem startRequest_turns (s : State) : (startRequest s).turns = s.turns := by
  unfold startRequest; split <;> simp
@[simp] theorem startRequest_settled (s : State) : (startRequest s).settled = s.settled := by
  unfold startRequest; split <;> simp

/-- A start request starts a conversion exactly when ADON is set (R157, R159). -/
theorem startRequest_conv (s : State) : (startRequest s).conv =
    if s.adon then .converting (sq1Field s.cfg (s.reg s.cfg.aSqr)) (s.trusted (sq1Field s.cfg (s.reg s.cfg.aSqr)))
    else s.conv := by
  unfold startRequest; split <;> rfl

/-- A start request draws EOC exactly when it starts a conversion and finds EOC set (R157). -/
theorem startRequest_eoc (s : State) :
    (startRequest s).eoc = if s.adon && s.eoc then Config.eocDraw s.draws else s.eoc := by
  unfold startRequest startEoc
  cases s.adon <;> cases h : s.eoc <;> simp [h]

theorem startRequest_draws (s : State) :
    (startRequest s).draws = if s.adon && s.eoc then s.draws + 1 else s.draws := by
  unfold startRequest startEoc
  cases s.adon <;> cases h : s.eoc <;> simp [h]

theorem startRequest_trace (s : State) : (startRequest s).trace =
    if s.adon then s.trace ++ [.convStart (sq1Field s.cfg (s.reg s.cfg.aSqr))
      (s.trusted (sq1Field s.cfg (s.reg s.cfg.aSqr)))]
    else s.trace := by
  unfold startRequest; split <;> simp

@[simp] theorem startIf_cfg (b : Bool) (s : State) : (startIf b s).cfg = s.cfg := by
  cases b <;> simp [startIf]
@[simp] theorem startIf_phase (b : Bool) (s : State) : (startIf b s).phase = s.phase := by
  cases b <;> simp [startIf]
@[simp] theorem startIf_upc (b : Bool) (s : State) : (startIf b s).upc = s.upc := by
  cases b <;> simp [startIf]
@[simp] theorem startIf_cnt (b : Bool) (s : State) : (startIf b s).cnt = s.cnt := by
  cases b <;> simp [startIf]
@[simp] theorem startIf_cmd (b : Bool) (s : State) : (startIf b s).cmd = s.cmd := by
  cases b <;> simp [startIf]
@[simp] theorem startIf_opaddr (b : Bool) (s : State) : (startIf b s).opaddr = s.opaddr := by
  cases b <;> simp [startIf]
@[simp] theorem startIf_opa (b : Bool) (s : State) : (startIf b s).opa = s.opa := by
  cases b <;> simp [startIf]
@[simp] theorem startIf_opb (b : Bool) (s : State) : (startIf b s).opb = s.opb := by
  cases b <;> simp [startIf]
@[simp] theorem startIf_t (b : Bool) (s : State) : (startIf b s).t = s.t := by
  cases b <;> simp [startIf]
@[simp] theorem startIf_rsp (b : Bool) (s : State) : (startIf b s).rsp = s.rsp := by
  cases b <;> simp [startIf]
@[simp] theorem startIf_fcause (b : Bool) (s : State) : (startIf b s).fcause = s.fcause := by
  cases b <;> simp [startIf]
@[simp] theorem startIf_finfo (b : Bool) (s : State) : (startIf b s).finfo = s.finfo := by
  cases b <;> simp [startIf]
@[simp] theorem startIf_regs (b : Bool) (s : State) : (startIf b s).regs = s.regs := by
  cases b <;> simp [startIf]
@[simp] theorem startIf_schedule (b : Bool) (s : State) : (startIf b s).schedule = s.schedule := by
  cases b <;> simp [startIf]
@[simp] theorem startIf_turns (b : Bool) (s : State) : (startIf b s).turns = s.turns := by
  cases b <;> simp [startIf]
@[simp] theorem startIf_settled (b : Bool) (s : State) : (startIf b s).settled = s.settled := by
  cases b <;> simp [startIf]

@[simp] theorem writeEffects_cfg (a o v : Word) (s : State) : (writeEffects a o v s).cfg = s.cfg := by
  simp [writeEffects]
@[simp] theorem writeEffects_phase (a o v : Word) (s : State) : (writeEffects a o v s).phase = s.phase := by
  simp [writeEffects]
@[simp] theorem writeEffects_upc (a o v : Word) (s : State) : (writeEffects a o v s).upc = s.upc := by
  simp [writeEffects]
@[simp] theorem writeEffects_cnt (a o v : Word) (s : State) : (writeEffects a o v s).cnt = s.cnt := by
  simp [writeEffects]
@[simp] theorem writeEffects_cmd (a o v : Word) (s : State) : (writeEffects a o v s).cmd = s.cmd := by
  simp [writeEffects]
@[simp] theorem writeEffects_opaddr (a o v : Word) (s : State) : (writeEffects a o v s).opaddr = s.opaddr := by
  simp [writeEffects]
@[simp] theorem writeEffects_opa (a o v : Word) (s : State) : (writeEffects a o v s).opa = s.opa := by
  simp [writeEffects]
@[simp] theorem writeEffects_opb (a o v : Word) (s : State) : (writeEffects a o v s).opb = s.opb := by
  simp [writeEffects]
@[simp] theorem writeEffects_t (a o v : Word) (s : State) : (writeEffects a o v s).t = s.t := by
  simp [writeEffects]
@[simp] theorem writeEffects_rsp (a o v : Word) (s : State) : (writeEffects a o v s).rsp = s.rsp := by
  simp [writeEffects]
@[simp] theorem writeEffects_fcause (a o v : Word) (s : State) : (writeEffects a o v s).fcause = s.fcause := by
  simp [writeEffects]
@[simp] theorem writeEffects_finfo (a o v : Word) (s : State) : (writeEffects a o v s).finfo = s.finfo := by
  simp [writeEffects]
@[simp] theorem writeEffects_regs (a o v : Word) (s : State) : (writeEffects a o v s).regs = s.regs := by
  simp [writeEffects]
@[simp] theorem writeEffects_schedule (a o v : Word) (s : State) : (writeEffects a o v s).schedule = s.schedule := by
  simp [writeEffects]
@[simp] theorem writeEffects_turns (a o v : Word) (s : State) : (writeEffects a o v s).turns = s.turns := by
  simp [writeEffects]

@[simp] theorem afterRead_cfg (a : Word) (s : State) : (afterRead a s).cfg = s.cfg := by
  unfold afterRead; split <;> (try split) <;> rfl
@[simp] theorem afterRead_phase (a : Word) (s : State) : (afterRead a s).phase = s.phase := by
  unfold afterRead; split <;> (try split) <;> rfl
@[simp] theorem afterRead_upc (a : Word) (s : State) : (afterRead a s).upc = s.upc := by
  unfold afterRead; split <;> (try split) <;> rfl
@[simp] theorem afterRead_cnt (a : Word) (s : State) : (afterRead a s).cnt = s.cnt := by
  unfold afterRead; split <;> (try split) <;> rfl
@[simp] theorem afterRead_cmd (a : Word) (s : State) : (afterRead a s).cmd = s.cmd := by
  unfold afterRead; split <;> (try split) <;> rfl
@[simp] theorem afterRead_opaddr (a : Word) (s : State) : (afterRead a s).opaddr = s.opaddr := by
  unfold afterRead; split <;> (try split) <;> rfl
@[simp] theorem afterRead_opa (a : Word) (s : State) : (afterRead a s).opa = s.opa := by
  unfold afterRead; split <;> (try split) <;> rfl
@[simp] theorem afterRead_opb (a : Word) (s : State) : (afterRead a s).opb = s.opb := by
  unfold afterRead; split <;> (try split) <;> rfl
@[simp] theorem afterRead_t (a : Word) (s : State) : (afterRead a s).t = s.t := by
  unfold afterRead; split <;> (try split) <;> rfl
@[simp] theorem afterRead_rsp (a : Word) (s : State) : (afterRead a s).rsp = s.rsp := by
  unfold afterRead; split <;> (try split) <;> rfl
@[simp] theorem afterRead_fcause (a : Word) (s : State) : (afterRead a s).fcause = s.fcause := by
  unfold afterRead; split <;> (try split) <;> rfl
@[simp] theorem afterRead_finfo (a : Word) (s : State) : (afterRead a s).finfo = s.finfo := by
  unfold afterRead; split <;> (try split) <;> rfl
@[simp] theorem afterRead_regs (a : Word) (s : State) : (afterRead a s).regs = s.regs := by
  unfold afterRead; split <;> (try split) <;> rfl
@[simp] theorem afterRead_schedule (a : Word) (s : State) : (afterRead a s).schedule = s.schedule := by
  unfold afterRead; split <;> (try split) <;> rfl
@[simp] theorem afterRead_turns (a : Word) (s : State) : (afterRead a s).turns = s.turns := by
  unfold afterRead; split <;> (try split) <;> rfl
@[simp] theorem afterRead_conv (a : Word) (s : State) : (afterRead a s).conv = s.conv := by
  unfold afterRead; split <;> (try split) <;> rfl
@[simp] theorem afterRead_settled (a : Word) (s : State) : (afterRead a s).settled = s.settled := by
  unfold afterRead; split <;> (try split) <;> rfl

/-- A read leaves EOC as it is, but for `A_DR`, which clears it (R66). -/
theorem afterRead_eoc (h : s.cfg.WF) (a : Word) :
    (afterRead a s).eoc = if a = s.cfg.aDr then false else s.eoc := by
  unfold afterRead
  by_cases hs : a = s.cfg.aSr
  · subst hs
    simp [h.converter_nodup.2.2.2.2.2]
  · rw [if_neg hs]
    by_cases hd : a = s.cfg.aDr
    · rw [if_pos hd, if_pos hd]; rfl
    · rw [if_neg hd, if_neg hd]; rfl

@[simp] theorem afterRead_trace (a : Word) (s : State) :
    (afterRead a s).trace = s.trace ++ [.busRd a (readValue a s)] := by
  unfold afterRead; split <;> (try split) <;> rfl

/-- A read of a register without effects changes only `TRACE`. -/
theorem afterRead_plain {a : Word} (hs : a ≠ s.cfg.aSr) (hd : a ≠ s.cfg.aDr) :
    afterRead a s = s.log (.busRd a (s.reg a)) ∧ readValue a s = s.reg a := by
  simp [afterRead, readValue, hs, hd]

@[simp] theorem afterWrite_cfg (a v : Word) (s : State) : (afterWrite a v s).cfg = s.cfg := by
  simp [afterWrite]
@[simp] theorem afterWrite_phase (a v : Word) (s : State) : (afterWrite a v s).phase = s.phase := by
  simp [afterWrite]
@[simp] theorem afterWrite_upc (a v : Word) (s : State) : (afterWrite a v s).upc = s.upc := by
  simp [afterWrite]
@[simp] theorem afterWrite_cnt (a v : Word) (s : State) : (afterWrite a v s).cnt = s.cnt := by
  simp [afterWrite]
@[simp] theorem afterWrite_cmd (a v : Word) (s : State) : (afterWrite a v s).cmd = s.cmd := by
  simp [afterWrite]
@[simp] theorem afterWrite_opaddr (a v : Word) (s : State) : (afterWrite a v s).opaddr = s.opaddr := by
  simp [afterWrite]
@[simp] theorem afterWrite_opa (a v : Word) (s : State) : (afterWrite a v s).opa = s.opa := by
  simp [afterWrite]
@[simp] theorem afterWrite_opb (a v : Word) (s : State) : (afterWrite a v s).opb = s.opb := by
  simp [afterWrite]
@[simp] theorem afterWrite_t (a v : Word) (s : State) : (afterWrite a v s).t = s.t := by
  simp [afterWrite]
@[simp] theorem afterWrite_rsp (a v : Word) (s : State) : (afterWrite a v s).rsp = s.rsp := by
  simp [afterWrite]
@[simp] theorem afterWrite_fcause (a v : Word) (s : State) : (afterWrite a v s).fcause = s.fcause := by
  simp [afterWrite]
@[simp] theorem afterWrite_finfo (a v : Word) (s : State) : (afterWrite a v s).finfo = s.finfo := by
  simp [afterWrite]
@[simp] theorem afterWrite_schedule (a v : Word) (s : State) : (afterWrite a v s).schedule = s.schedule := by
  simp [afterWrite]
@[simp] theorem afterWrite_turns (a v : Word) (s : State) : (afterWrite a v s).turns = s.turns := by
  simp [afterWrite]

@[simp] theorem afterWrite_regs (a v : Word) (s : State) :
    (afterWrite a v s).regs = s.regs.write a.toNat (storedWord s.cfg a v) := by simp [afterWrite]

/-- The effects of a write on `SETTLED` (R33, R156). -/
theorem afterWrite_settled (a v : Word) (s : State) : (afterWrite a v s).settled =
    (s.settled && !(a == s.cfg.aCr && (s.reg a).getLsbD s.cfg.bAdon != v.getLsbD s.cfg.bAdon) &&
      !(a == s.cfg.aClkAdc && !v.getLsbD s.cfg.bClkAdc)) := by
  simp only [afterWrite, writeEffects, unsettleIf_settled, startIf_settled, State.log_settled, State.setReg_settled,
    State.log_cfg, State.setReg_cfg]

/-- The effects of a write on `CONV` (R156, R157): a start request judged after `SETTLED` was. -/
theorem afterWrite_conv (a v : Word) (s : State) : (afterWrite a v s).conv =
    (startIf (a == s.cfg.aCr && v.getLsbD s.cfg.bStart)
      (unsettleIf (a == s.cfg.aCr && (s.reg a).getLsbD s.cfg.bAdon != v.getLsbD s.cfg.bAdon)
        ((s.setReg a (storedWord s.cfg a v)).log (.busWr a v)))).conv := by
  simp only [afterWrite, writeEffects, unsettleIf_conv, State.log_cfg, State.setReg_cfg]

/-- After a write, its address holds the stored word and every other address what it held. -/
theorem reg_setReg (h : s.regs.wf) (a v b : Word) : (s.setReg a v).reg b = if a = b then v else s.reg b := by
  simp [State.reg, Memory.read_write h, BitVec.toNat_inj]

theorem afterWrite_reg (h : s.regs.wf) (a v b : Word) :
    (afterWrite a v s).reg b = if a = b then storedWord s.cfg a v else s.reg b := by
  rw [State.reg, afterWrite_regs, ← State.setReg_regs, ← State.reg, reg_setReg h]

/-- A micro-operation that reads takes the fault of the first check that applies, or completes (R64, R185). -/
theorem onRead_eq (a : Word) (s : State) (k : Word → State → State) : onRead a s k =
    .next (match accessFault s a with
      | some c => takeFault c a s
      | none => k (readValue a s) (afterRead a s)) := by
  unfold onRead busRead
  cases accessFault s a <;> rfl

/-- A micro-operation that writes takes the fault of the first check that applies, or completes (R65, R185). -/
theorem onWrite_eq (a v : Word) (s : State) (k : State → State) : onWrite a v s k =
    .next (match writeFault s a v with
      | some c => takeFault c a s
      | none => k (afterWrite a v s)) := by
  unfold onWrite busWrite
  cases writeFault s a v <;> rfl

theorem readHalf_eq (a : Word) (s : State) : readHalf a s =
    .next (match accessFault s a with
      | some c => takeFault c a s
      | none => nextMicro (latchT (readValue a s) (afterRead a s))) :=
  onRead_eq a s _

/-- A write half without a latched word faults (R28). -/
theorem writeHalf_none (h : s.t = none) (a x y : Word) (k : State → State) :
    writeHalf a x y s k = .next (faultEmptyRead s) := by
  simp only [writeHalf, h]

/-- A write half with a latched word is a write of the merge. -/
theorem writeHalf_some {w : Word} (h : s.t = some w) (a x y : Word) (k : State → State) :
    writeHalf a x y s k = .next (match writeFault s a (merge w x y) with
      | some c => takeFault c a s
      | none => k (afterWrite a (merge w x y) s)) := by
  simp only [writeHalf, h, onWrite_eq]

/-- What a write half leads to: the fault of an empty `T`, or a write of the merge (R28, R65). -/
theorem writeHalf_next {a x y : Word} {k : State → State} {t : State} (h : writeHalf a x y s k = .next t) :
    (s.t = none ∧ t = faultEmptyRead s) ∨
    ∃ w, s.t = some w ∧ t = match writeFault s a (merge w x y) with
      | some c => takeFault c a s
      | none => k (afterWrite a (merge w x y) s) := by
  cases ht : s.t with
  | none =>
    rw [writeHalf_none ht] at h
    exact .inl ⟨rfl, (Host.Outcome.next.inj h).symm⟩
  | some w =>
    rw [writeHalf_some ht] at h
    exact .inr ⟨w, rfl, (Host.Outcome.next.inj h).symm⟩

end Sys2Proof.Machine
end

