-- ==== Sys2Proof/Laws/Device.lean ====
section
/-! SUPPORT. What a whole access does to the device, as one equation for each kind of register, and the part of the
invariant that speaks of the device alone, which every access keeps. -/

namespace Sys2Proof.Machine

variable {s : State} {a v : Word}

/-! ### Which check an address passes -/

/-- The clock-enable registers are neither the status nor the data register (W2). -/
theorem Cfg.WF.clock_plain (h : s.cfg.WF) (ha : a ∈ s.cfg.clockAddresses) : a ≠ s.cfg.aSr ∧ a ≠ s.cfg.aDr :=
  ⟨h.clock_ne ha (by simp), h.clock_ne ha (by simp)⟩

/-- The port registers are neither the status nor the data register (W3). -/
theorem Cfg.WF.port_plain (h : s.cfg.WF) (ha : a ∈ [s.cfg.aModerOut, s.cfg.aOdrOut, s.cfg.aModerAn]) :
    a ≠ s.cfg.aSr ∧ a ≠ s.cfg.aDr :=
  ⟨(h.converter_ne (by simp) ha).symm, (h.converter_ne (by simp) ha).symm⟩

theorem accessFault_clocked (h : s.cfg.WF) (ha : a ∈ mapped s.cfg) (hc : s.clocked a = true) :
    accessFault s a = none := by
  rw [accessFault_mapped h ha, hc]; rfl

/-- A clocked register other than the status and the data register passes the checks of R104. -/
theorem writeCheck_clocked (h : s.cfg.WF) (ha : a ∈ mapped s.cfg) (hc : s.clocked a = true) (hs : a ≠ s.cfg.aSr)
    (hd : a ≠ s.cfg.aDr) : writeCheck s a = none :=
  writeCheck_none.mpr ⟨accessFault_clocked h ha hc, hs, hd⟩

/-- The checks of R104 depend only on the configuration and the clock-enable registers. -/
theorem writeCheck_congr {t : State} (hc : t.cfg = s.cfg) (h1 : t.reg s.cfg.aClkOut = s.reg s.cfg.aClkOut)
    (h2 : t.reg s.cfg.aClkAn = s.reg s.cfg.aClkAn) (h3 : t.reg s.cfg.aClkAdc = s.reg s.cfg.aClkAdc) (a : Word) :
    writeCheck t a = writeCheck s a := by
  have he : ∀ d, t.enabled d = s.enabled d := by
    intro d; cases d <;> simp [State.enabled, State.outClock, State.anClock, State.adcClock, hc, h1, h2, h3]
  have hk : t.clocked a = s.clocked a := by
    unfold State.clocked
    rw [hc]
    cases domainOf s.cfg a with
    | none => rfl
    | some d => exact he d
  unfold writeCheck accessFault
  rw [hk, hc]

/-- A write outside the three registers that command the converter never disturbs it (R69). -/
theorem disturbs_plain (h1 : a ≠ s.cfg.aCr) (h2 : a ≠ s.cfg.aClkAdc) (h3 : a = s.cfg.aSqr → s.conv = .idle) :
    s.disturbs a v = false := by
  unfold State.disturbs
  by_cases h : a = s.cfg.aSqr
  · simp [h3 h]
  · simp [h1, h2, h]

/-- Nothing disturbs an idle converter (R69). -/
theorem disturbs_idle (h : s.conv = .idle) : s.disturbs a v = false := by simp [State.disturbs, h]

/-- A write of the converter's clock register disturbs only by clearing the clock bit (R69). -/
theorem disturbs_clock (hne : s.cfg.aClkAdc ≠ s.cfg.aCr) (hsq : s.cfg.aClkAdc ≠ s.cfg.aSqr)
    (h : s.conv = .idle ∨ v.getLsbD s.cfg.bClkAdc = true) : s.disturbs s.cfg.aClkAdc v = false := by
  rcases h with h | h <;> simp [State.disturbs, h, hne, hsq]

/-- A write of `A_CR` disturbs only by a start or by clearing ADON (R69). -/
theorem disturbs_control (hne : s.cfg.aCr ≠ s.cfg.aClkAdc) (hsq : s.cfg.aCr ≠ s.cfg.aSqr)
    (h : s.conv = .idle ∨ (v.getLsbD s.cfg.bStart = false ∧ v.getLsbD s.cfg.bAdon = true)) :
    s.disturbs s.cfg.aCr v = false := by
  rcases h with h | ⟨h1, h2⟩
  · simp [State.disturbs, h]
  · simp [State.disturbs, h1, h2, hne, hsq]

/-! ### One access, by the kind of its register -/

@[simp] theorem unsettleIf_false (s : State) : unsettleIf false s = s := rfl
@[simp] theorem unsettleIf_true (s : State) : unsettleIf true s = { s with settled := false } := rfl
theorem unsettleIf_eq (b : Bool) (s : State) : unsettleIf b s = { s with settled := s.settled && !b } := by
  cases b <;> simp
@[simp] theorem startIf_false (s : State) : startIf false s = s := rfl
@[simp] theorem startIf_true (s : State) : startIf true s = startRequest s := rfl

/-- A write of a register without effects stores the word and records the access (R65). -/
theorem afterWrite_plain (h1 : a ≠ s.cfg.aCr) (h2 : a ≠ s.cfg.aClkAdc) :
    afterWrite a v s = (s.setReg a v).log (.busWr a v) := by
  have e1 : (a == s.cfg.aCr) = false := by simpa using h1
  have e2 : (a == s.cfg.aClkAdc) = false := by simpa using h2
  simp [-beq_eq_false_iff_ne, afterWrite, writeEffects, storedWord, h1, e1, e2]

/-- A write of the converter's clock register also clears `SETTLED` if it leaves the clock off (R156). -/
theorem afterWrite_clock (h1 : s.cfg.aClkAdc ≠ s.cfg.aCr) : afterWrite s.cfg.aClkAdc v s =
    unsettleIf (!v.getLsbD s.cfg.bClkAdc) ((s.setReg s.cfg.aClkAdc v).log (.busWr s.cfg.aClkAdc v)) := by
  have e1 : (s.cfg.aClkAdc == s.cfg.aCr) = false := by simpa using h1
  simp [-beq_eq_false_iff_ne, afterWrite, writeEffects, storedWord, h1, e1]

/-- A word whose bit is 0 is unchanged by clearing that bit. -/
theorem and_not_bit_of_clear {w : Word} {i : Nat} (h : w.getLsbD i = false) : w &&& ~~~bit i = w := by
  ext j hj
  rw [← BitVec.getLsbD_eq_getElem, ← BitVec.getLsbD_eq_getElem, getLsbD_and_not_bit]
  by_cases hij : i = j
  · subst hij; simp [h]
  · simp [hij]

/-- A write of `A_CR` without START stores the word and clears `SETTLED` if it changes ADON (R65, R156). -/
theorem afterWrite_control (h1 : s.cfg.aCr ≠ s.cfg.aClkAdc) (h : v.getLsbD s.cfg.bStart = false) :
    afterWrite s.cfg.aCr v s =
      unsettleIf (s.adon != v.getLsbD s.cfg.bAdon) ((s.setReg s.cfg.aCr v).log (.busWr s.cfg.aCr v)) := by
  have e1 : (s.cfg.aCr == s.cfg.aClkAdc) = false := by simpa using h1
  simp [-beq_eq_false_iff_ne, afterWrite, writeEffects, storedWord, e1, h, and_not_bit_of_clear h, State.adon]

/-- A write of `A_CR` with START is a start request, judged after `SETTLED` (R65, R156, R157). -/
theorem afterWrite_start (h1 : s.cfg.aCr ≠ s.cfg.aClkAdc) (h : v.getLsbD s.cfg.bStart = true) :
    afterWrite s.cfg.aCr v s =
      startRequest (unsettleIf (s.adon != v.getLsbD s.cfg.bAdon)
        ((s.setReg s.cfg.aCr (v &&& ~~~bit s.cfg.bStart)).log (.busWr s.cfg.aCr v))) := by
  have e1 : (s.cfg.aCr == s.cfg.aClkAdc) = false := by simpa using h1
  simp [-beq_eq_false_iff_ne, afterWrite, writeEffects, storedWord, e1, h, State.adon]

/-- A start request with ADON set, as one update (R157). -/
theorem startRequest_on (h : s.adon = true) : startRequest s =
    { s with
      conv := .converting (sq1Field s.cfg (s.reg s.cfg.aSqr)) (s.trusted (sq1Field s.cfg (s.reg s.cfg.aSqr)))
      eoc := if s.eoc then Config.eocDraw s.draws else false
      draws := if s.eoc then s.draws + 1 else s.draws
      trace := s.trace ++ [.convStart (sq1Field s.cfg (s.reg s.cfg.aSqr))
        (s.trusted (sq1Field s.cfg (s.reg s.cfg.aSqr)))] } := by
  unfold startRequest startEoc
  rw [if_pos h]
  cases he : s.eoc <;> simp [State.log, he]

/-- A start request with ADON clear does nothing (R159). -/
theorem startRequest_off (h : s.adon = false) : startRequest s = s := by
  unfold startRequest
  rw [if_neg (by simp [h])]

/-- A read half of a clocked register without read effects latches its word (R64, R66). -/
theorem readHalf_clocked (h : s.cfg.WF) (ha : a ∈ mapped s.cfg) (hc : s.clocked a = true) (hs : a ≠ s.cfg.aSr)
    (hd : a ≠ s.cfg.aDr) : readHalf a s = .next (nextMicro (latchT (s.reg a) (s.log (.busRd a (s.reg a))))) := by
  obtain ⟨e1, e2⟩ := afterRead_plain hs hd
  rw [readHalf_eq, accessFault_clocked h ha hc, e1, e2]

/-- The channel a start latches fits the slot (R37). -/
theorem sq1Field_lt {c : Cfg} (w : Word) : sq1Field c w < 2 ^ c.sq1Width := BitVec.isLt _

/-- A write only appends to `TRACE`: its own event, and the start of a conversion if it starts one (R42, R65, R157). -/
theorem afterWrite_trace (a v : Word) (s : State) :
    ∃ later, (afterWrite a v s).trace = s.trace ++ .busWr a v :: later := by
  unfold afterWrite writeEffects
  simp only [unsettleIf_trace]
  generalize (_ && _ : Bool) = b
  generalize hs' : unsettleIf _ _ = s'
  have ht : s'.trace = s.trace ++ [.busWr a v] := by subst hs'; simp
  cases b with
  | false => exact ⟨[], by simpa using ht⟩
  | true =>
    simp only [startIf_true, startRequest_trace, ht]
    split
    · exact ⟨[_], by rw [List.append_assoc]; rfl⟩
    · exact ⟨[], rfl⟩

/-- A write outside `A_CR` changes neither EOC nor the conversion, and draws nothing (R156). -/
theorem afterWrite_quiet {a : Word} (v : Word) {s : State} (h : a ≠ s.cfg.aCr) :
    (afterWrite a v s).eoc = s.eoc ∧ (afterWrite a v s).conv = s.conv ∧ (afterWrite a v s).draws = s.draws := by
  have e : (a == s.cfg.aCr) = false := by simpa using h
  simp [-beq_eq_false_iff_ne, afterWrite, writeEffects, e]

/-- A write outside `A_CR` and the converter's clock register keeps `SETTLED` (R33, R156). -/
theorem afterWrite_settled_ne {a : Word} (v : Word) {s : State} (h : a ≠ s.cfg.aCr) (h2 : a ≠ s.cfg.aClkAdc) :
    (afterWrite a v s).settled = s.settled := by
  have e : (a == s.cfg.aCr) = false := by simpa using h
  have e2 : (a == s.cfg.aClkAdc) = false := by simpa using h2
  rw [afterWrite_settled, e, e2]
  simp

/-! ### The device part of the invariant -/

theorem RegsOk.setReg (h : RegsOk s) (ha : a ∈ mapped s.cfg) (hs : a ≠ s.cfg.aSr) : RegsOk (s.setReg a v) := by
  refine ⟨Memory.wf_write h.1 _ _, fun p hp => ?_⟩
  rcases Memory.mem_write hp with h1 | h1
  · exact ⟨a, ha, hs, h1.symm⟩
  · exact h.2 p h1

/-- The clauses of `Inv` that speak of the registers, the converter and `SETTLED` only. -/
structure DeviceOk (s : State) : Prop where
  config : s.cfg.WF
  regs : RegsOk s
  trigger : TriggerClear s
  data : DataInRange s
  conv : ConvOk s
  settled : SettledOk s

/-- A write that passed its checks keeps the device part of the invariant. -/
theorem afterWrite_deviceOk {s : State} (h : DeviceOk s) {a v : Word} (hw : writeFault s a v = none) :
    DeviceOk (afterWrite a v s) := by
  obtain ⟨hc, hd⟩ := writeFault_none.mp hw
  obtain ⟨hacc, hsr, hdr⟩ := writeCheck_none.mp hc
  obtain ⟨-, hmap, hclk⟩ := accessFault_none hacc
  have hwf := h.regs.1
  have hreg := afterWrite_reg hwf a v
  have hclkcr : s.cfg.aClkAdc ≠ s.cfg.aCr := h.config.clock_ne (by simp) (by simp)
  have hb := h.config.bits_lt
  have hne := h.config.w6.2.1
  have hadc : (a = s.cfg.aClkAdc → v.getLsbD s.cfg.bClkAdc = true) → s.adcClock = true →
      (afterWrite a v s).adcClock = true := by
    intro h1 h2
    simp only [State.adcClock, afterWrite_cfg, hreg]
    split
    · rename_i h3
      simp [storedWord, h3, hclkcr, h1 h3]
    · exact h2
  have hadon : (a = s.cfg.aCr → v.getLsbD s.cfg.bAdon = true) → s.adon = true →
      (afterWrite a v s).adon = true := by
    intro h1 h2
    simp only [State.adon, afterWrite_cfg, hreg]
    split
    · rename_i h3
      rw [storedWord, if_pos h3, getLsbD_and_not_bit, h1 h3]
      simp [hne.symm]
    · exact h2
  refine ⟨?_, ?_, ?_, ?_, ?_, ?_⟩
  · simpa using h.config
  · have := RegsOk.setReg (v := storedWord s.cfg a v) h.regs hmap hsr
    simpa [RegsOk] using this
  · simp only [TriggerClear, afterWrite_cfg, hreg]
    split
    · rename_i h3
      rw [storedWord, if_pos h3, getLsbD_and_not_bit]; simp
    · exact h.trigger
  · simp only [DataInRange, afterWrite_cfg, hreg, if_neg hdr]
    exact h.data
  · unfold ConvOk
    rw [afterWrite_conv]
    by_cases hst : a = s.cfg.aCr ∧ v.getLsbD s.cfg.bStart = true
    · obtain ⟨rfl, hst⟩ := hst
      rw [beq_self_eq_true, hst, Bool.true_and, Bool.true_and, startIf, if_pos rfl, startRequest_conv]
      split
      · trivial
      · rename_i ch tr heq
        split at heq
        · rename_i hon
          simp only [Conv.converting.injEq] at heq
          obtain ⟨rfl, rfl⟩ := heq
          have hon' : (afterWrite s.cfg.aCr v s).adon = true := by
            simpa [State.adon, State.reg] using hon
          refine ⟨?_, ?_, hon', ?_⟩
          · simpa using sq1Field_lt (c := s.cfg) _
          · rw [clocked_converter h.config (by simp)] at hclk
            exact hadc (fun h => absurd h hclkcr.symm) hclk
          · intro htr
            simp only [State.trusted, unsettleIf_settled, Bool.and_eq_true] at htr
            refine ⟨by simpa using htr.1.2, ?_⟩
            rw [afterWrite_settled]
            simpa [hclkcr.symm] using htr.1.1
        · cases hcv : s.conv with
          | idle => simp [hcv] at heq
          | converting c' t' => simp [State.disturbs, hcv, hst] at hd
    · have hf : (a == s.cfg.aCr && v.getLsbD s.cfg.bStart) = false := by simpa using hst
      rw [hf]; simp only [startIf, Bool.false_eq_true, if_false, unsettleIf_conv, State.log_conv, State.setReg_conv]
      cases hcv : s.conv with
      | idle => trivial
      | converting ch tr =>
        have hk := h.conv
        simp only [ConvOk, hcv] at hk
        have hA : a = s.cfg.aCr → v.getLsbD s.cfg.bAdon = true := by
          intro ha; simp [State.disturbs, hcv, ha] at hd; exact hd.1.1.2
        have hB : a = s.cfg.aClkAdc → v.getLsbD s.cfg.bClkAdc = true := by
          intro ha; simp [State.disturbs, hcv, ha] at hd; exact hd.2
        refine ⟨by simpa using hk.1, hadc hB hk.2.1, hadon hA hk.2.2.1, fun ht => ?_⟩
        obtain ⟨h1, h2⟩ := hk.2.2.2 ht
        refine ⟨by simpa using h1, ?_⟩
        rw [afterWrite_settled, h2]
        have hon := hk.2.2.1
        by_cases ha : a = s.cfg.aCr
        · subst ha
          unfold State.adon at hon
          simp [hon, hA rfl, hclkcr.symm]
        · by_cases hb2 : a = s.cfg.aClkAdc
          · simp [ha, hB hb2]
          · simp [ha, hb2]
  · intro hs
    rw [afterWrite_settled] at hs
    simp only [Bool.and_eq_true, Bool.not_eq_true', Bool.and_eq_false_iff] at hs
    obtain ⟨⟨h1, h2⟩, h3⟩ := hs
    obtain ⟨p1, p2⟩ := h.settled h1
    refine ⟨hadc (fun ha => ?_) p1, hadon (fun ha => ?_) p2⟩
    · simpa [ha] using h3
    · subst ha
      unfold State.adon at p2
      simp [p2] at h2
      exact h2

/-- The device part depends on four fields only. -/
theorem DeviceOk.of_eq {s t : State} (h : DeviceOk s) (h1 : t.cfg = s.cfg) (h2 : t.regs = s.regs) (h3 : t.conv = s.conv)
    (h4 : t.settled = s.settled) : DeviceOk t := by
  obtain ⟨a, b, c, d, e, f⟩ := h
  have hr : ∀ a, t.reg a = s.reg a := fun a => by simp [State.reg, h2]
  refine ⟨?_, ?_, ?_, ?_, ?_, ?_⟩
  · rwa [h1]
  · simpa only [RegsOk, h1, h2] using b
  · simpa only [TriggerClear, h1, hr] using c
  · simpa only [DataInRange, h1, hr] using d
  · simpa only [ConvOk, State.adcClock, State.adon, h1, hr, h3, h4] using e
  · simpa only [SettledOk, State.adcClock, State.adon, h1, hr, h3, h4] using f

theorem Inv.deviceOk (h : Inv s) : DeviceOk s := ⟨h.1, h.2, h.3, h.4, h.5, h.6⟩

/-- A read keeps the device part of the invariant. -/
theorem afterRead_deviceOk (h : DeviceOk s) (a : Word) : DeviceOk (afterRead a s) :=
  h.of_eq (by simp) (by simp) (by simp) (by simp)

/-! ### The waits -/

/-- The end of `ADC_INIT`, as one update (R146). -/
theorem endStab_eq (s : State) : endStab s =
    { s with settled := s.settled || s.adon, rsp := some .ok, phase := .idle, trace := s.trace ++ [.rsp .ok] } := by
  unfold endStab
  split
  · rename_i h; simp [respond, settle, h]
  · rename_i h; simp [respond, h]

/-- The stabilization wait either counts down or ends (R145, R146). -/
theorem stabTick_next {t : State} (h : stabTick s = .next t) :
    ∃ n, s.cnt = n + 1 ∧ t = if n = 0 then endStab (setCnt n s) else setCnt n s := by
  unfold stabTick at h
  split at h
  · cases h
  · rename_i n hn
    exact ⟨n, hn, (Host.Outcome.next.inj h).symm⟩

/-- What a poll leads to, by EOC and the poll limit (R151, R152). -/
theorem afterPoll_cases (v : Word) (s : State) :
    (v.getLsbD s.cfg.bEoc = true ∧ afterPoll v s = setPhase .done s) ∨
    (v.getLsbD s.cfg.bEoc = false ∧ s.cfg.pollLimit = .unbounded ∧ afterPoll v s = s) ∨
    (∃ n, v.getLsbD s.cfg.bEoc = false ∧ s.cfg.pollLimit = .bounded n ∧ s.cnt + 1 = n ∧
      afterPoll v s = respond .timeout (setCnt (s.cnt + 1) s)) ∨
    (∃ n, v.getLsbD s.cfg.bEoc = false ∧ s.cfg.pollLimit = .bounded n ∧ s.cnt + 1 ≠ n ∧
      afterPoll v s = setCnt (s.cnt + 1) s) := by
  unfold afterPoll
  cases hv : v.getLsbD s.cfg.bEoc with
  | true => exact .inl ⟨rfl, rfl⟩
  | false =>
    cases hp : s.cfg.pollLimit with
    | unbounded => exact .inr (.inl ⟨rfl, rfl, rfl⟩)
    | bounded n =>
      by_cases hn : s.cnt + 1 = n
      · exact .inr (.inr (.inl ⟨n, rfl, rfl, hn, by simp [hn]⟩))
      · exact .inr (.inr (.inr ⟨n, rfl, rfl, hn, by simp [hn]⟩))

/-- EOC is what a status read shows in bit `B_EOC` (R39). -/
theorem statusWord_eoc (c : Cfg) (h : c.bEoc < 32) (d : Word) (e : Bool) : (statusWord c d e).getLsbD c.bEoc = e := by
  have hb : ((zextBit e <<< c.bEoc : Word)).getLsbD c.bEoc = e := by
    cases e
    · simp [zextBit]
    · exact getLsbD_bit_self h
  rw [statusWord, BitVec.getLsbD_or, hb, getLsbD_and_not_bit]
  simp

/-- Every other bit of a status read is the draw's (R39, R64). -/
theorem statusWord_other (c : Cfg) (d : Word) (e : Bool) {j : Nat} (hne : j ≠ c.bEoc) :
    (statusWord c d e).getLsbD j = d.getLsbD j := by
  have hb : ((zextBit e <<< c.bEoc : Word)).getLsbD j = false := by
    cases e
    · simp [zextBit]
    · have := getLsbD_bit c.bEoc j
      simp only [bit] at this
      simp only [zextBit, if_true]
      rw [this]; simp [hne.symm]
  rw [statusWord, BitVec.getLsbD_or, hb, getLsbD_and_not_bit]
  simp [hne.symm]

/-! ### The register file after the host's reset -/

/-- The register file that `resetRegs` builds holds one word for each listed address, in canonical form. -/
theorem Memory.foldl_write (f : Word → Word) (l : List Word) (m : Memory) (hm : m.wf) :
    (l.foldl (fun m a => m.write a.toNat (f a)) m).wf ∧
      ∀ b : Word, (l.foldl (fun m a => m.write a.toNat (f a)) m).read b.toNat =
        if b ∈ l then f b else m.read b.toNat := by
  induction l generalizing m with
  | nil => exact ⟨hm, fun b => by simp⟩
  | cons a l ih =>
    obtain ⟨h1, h2⟩ := ih (m.write a.toNat (f a)) (Memory.wf_write hm _ _)
    refine ⟨h1, fun b => ?_⟩
    rw [List.foldl_cons, h2, Memory.read_write hm]
    by_cases hb : b ∈ l
    · simp [hb]
    · by_cases hab : a = b
      · subst hab; simp
      · simp [hb, BitVec.toNat_inj, hab, Ne.symm hab]

theorem Memory.mem_foldl_write (f : Word → Word) (l : List Word) (m : Memory) (p : Nat × Word)
    (hp : p ∈ l.foldl (fun m a => m.write a.toNat (f a)) m) : p ∈ m ∨ ∃ a ∈ l, a.toNat = p.1 := by
  induction l generalizing m with
  | nil => exact .inl hp
  | cons a l ih =>
    rcases ih _ hp with h | ⟨b, hb, h⟩
    · rcases Memory.mem_write h with h | h
      · exact .inr ⟨a, by simp, h.symm⟩
      · exact .inl h
    · exact .inr ⟨b, by simp [hb], h⟩

/-- After the host's reset every mapped register holds its drawn word (R44, R210). -/
theorem hostReset_reg (s : State) (ha : a ∈ mapped s.cfg) : (hostReset s).reg a = resetWord s.cfg s.draws a := by
  have := (Memory.foldl_write (resetWord s.cfg s.draws) (mapped s.cfg) [] Memory.wf_nil).2 a
  rw [if_pos ha] at this
  rw [State.reg, hostReset_regs, resetRegs]
  exact this

theorem hostReset_regs_wf (s : State) : (hostReset s).regs.wf := by
  rw [hostReset_regs, resetRegs]
  exact (Memory.foldl_write (resetWord s.cfg s.draws) (mapped s.cfg) [] Memory.wf_nil).1

end Sys2Proof.Machine
end

