-- ==== Sys2Proof/Laws/Exec.lean ====
section
/-! SUPPORT. What a micro-operation of any command can do, said once: the proofs about all commands cite this and unfold
no meaning. -/

namespace Sys2Proof.Machine

/-- What follows a read that passed its checks, with the command it belongs to. -/
inductive ReadEnd (i : Instr) (s : State) (a : Word) (t : State) : Prop where
  | latch (h : t = nextMicro (latchT (readValue a s) (afterRead a s)))
      (hp : s.phase = .exec ∨ (s.phase = .startRequested ∧ i = .adcRead))
      (ha : (∃ x y, i = .mod a x y ∧ writeCheck s a = none) ∨ a ∈ s.cfg.clockAddresses ∨
        a ∈ [s.cfg.aModerOut, s.cfg.aOdrOut, s.cfg.aModerAn] ∨ a = s.cfg.aSqr ∨ a = s.cfg.aCr)
  | answer (h : t = respond (.data (readValue a s)) (latchT (readValue a s) (afterRead a s))) (hi : i = .rd a)
      (hp : s.phase = .exec)
  | poll (h : t = afterPoll (readValue a s) (afterRead a s)) (hi : i = .adcRead) (ha : a = s.cfg.aSr)
      (hp : s.phase = .converting)
  | result (h : t = respond (.data (resultWord (readValue a s))) (afterRead a s)) (hi : i = .adcRead)
      (ha : a = s.cfg.aDr) (hp : s.phase = .done)

/-- What follows a write that passed its checks, with the command it belongs to. -/
inductive WriteEnd (i : Instr) (s : State) (a v : Word) (t : State) : Prop where
  | next (h : t = nextMicro (afterWrite a v s)) (hp : s.phase = .exec)
  | answer (h : t = respond .ok (afterWrite a v s)) (hp : s.phase = .exec)
  | start (h : t = startPolling (afterWrite a v s)) (hi : i = .adcRead) (ha : a = s.cfg.aCr)
      (hp : s.phase = .startRequested)
  | stab (h : t = beginStab (afterWrite a v s)) (hi : i = .adcInit) (ha : a = s.cfg.aCr) (hp : s.phase = .exec)

/-- What a micro-operation that answers a next state did. -/
inductive Micro (i : Instr) (s t : State) : Prop where
  | decoded (p : Phase) (h : t = enter p s) (hp : p = .exec ∨ p = .startRequested) (hd : s.phase = .decode)
  | faulted (c : Cause) (a : Word) (h : t = takeFault c a s) (hp : s.phase ≠ .decode ∧ s.phase ≠ .idle ∧ s.phase ≠ .fault)
  | read (a : Word) (hf : accessFault s a = none) (h : ReadEnd i s a t)
  | write (a v : Word) (hf : writeFault s a v = none) (h : WriteEnd i s a v t)
  | tick (n : Nat) (hn : s.cnt = n + 1) (h : t = if n = 0 then endStab (setCnt n s) else setCnt n s)
      (hi : i = .adcInit) (hp : s.phase = .stabWait)

variable {i : Instr} {s t : State} {a x y : Word}

theorem Micro.of_onRead {k : Word → State → State} (h : onRead a s k = .next t)
    (hp : s.phase ≠ .decode ∧ s.phase ≠ .idle ∧ s.phase ≠ .fault)
    (hk : accessFault s a = none → ReadEnd i s a (k (readValue a s) (afterRead a s))) : Micro i s t := by
  rw [onRead_eq] at h
  have h := Host.Outcome.next.inj h
  cases hf : accessFault s a with
  | some c => rw [hf] at h; exact .faulted c a h.symm hp
  | none => rw [hf] at h; exact .read a hf (h ▸ hk hf)

theorem Micro.of_onWrite {v : Word} {k : State → State} (h : onWrite a v s k = .next t)
    (hp : s.phase ≠ .decode ∧ s.phase ≠ .idle ∧ s.phase ≠ .fault) (hk : WriteEnd i s a v (k (afterWrite a v s))) :
    Micro i s t := by
  rw [onWrite_eq] at h
  have h := Host.Outcome.next.inj h
  cases hf : writeFault s a v with
  | some c => rw [hf] at h; exact .faulted c a h.symm hp
  | none => rw [hf] at h; exact .write a v hf (h ▸ hk)

theorem Micro.of_writeHalf {k : State → State} (h : writeHalf a x y s k = .next t)
    (hp : s.phase ≠ .decode ∧ s.phase ≠ .idle ∧ s.phase ≠ .fault)
    (hk : ∀ v, WriteEnd i s a v (k (afterWrite a v s))) : Micro i s t := by
  unfold writeHalf at h
  split at h
  · exact .faulted _ _ (Host.Outcome.next.inj h).symm hp
  · exact .of_onWrite h hp (hk _)

/-- Every micro-operation of every command is one of `Micro`'s five (R21, R88, R100 to R102, R120, R122, R140, R148). -/
theorem exec_micro (h : exec i s = .next t) : Micro i s t := by
  have next : ∀ {u : State}, (.next u : Result) = .next t → t = u := fun h => (Host.Outcome.next.inj h).symm
  cases i with
  | rd addr =>
    simp only [exec, execRd] at h
    split at h
    · exact .decoded .exec (next h) (.inl rfl) ‹_›
    · rename_i hp
      split at h
      · exact .of_onRead h (by simp [hp]) fun _ => .answer rfl rfl hp
      · cases h
    · cases h
  | wr addr data =>
    simp only [exec, execWr] at h
    split at h
    · exact .decoded .exec (next h) (.inl rfl) ‹_›
    · rename_i hp
      split at h
      · exact .of_onWrite h (by simp [hp]) (.answer rfl hp)
      · cases h
    · cases h
  | mod addr sm cm =>
    simp only [exec, execMod] at h
    split at h
    · exact .decoded .exec (next h) (.inl rfl) ‹_›
    · rename_i hp
      split at h
      · split at h
        · exact .faulted _ addr (next h) (by simp [hp])
        · exact .of_onRead h (by simp [hp]) fun _ => .latch rfl (.inl hp) (.inl ⟨_, _, rfl, ‹_›⟩)
      · exact .of_writeHalf h (by simp [hp]) fun _ => .answer rfl hp
      · cases h
    · cases h
  | portInit mask =>
    simp only [exec, execPortInit] at h
    split at h
    · exact .decoded .exec (next h) (.inl rfl) ‹_›
    · rename_i hp
      split at h
      · exact .of_onRead h (by simp [hp]) fun _ => .latch rfl (.inl hp) (.inr (.inl (by simp)))
      · exact .of_writeHalf h (by simp [hp]) fun _ => .next rfl hp
      · exact .of_onRead h (by simp [hp]) fun _ => .latch rfl (.inl hp) (.inr (.inr (.inl (by simp))))
      · exact .of_writeHalf h (by simp [hp]) fun _ => .answer rfl hp
      · cases h
    · cases h
  | pinSet pin level =>
    simp only [exec, execPinSet] at h
    split at h
    · exact .decoded .exec (next h) (.inl rfl) ‹_›
    · rename_i hp
      split at h
      · exact .of_onRead h (by simp [hp]) fun _ => .latch rfl (.inl hp) (.inr (.inr (.inl (by simp))))
      · split at h
        · exact .of_writeHalf h (by simp [hp]) fun _ => .answer rfl hp
        · exact .of_writeHalf h (by simp [hp]) fun _ => .answer rfl hp
      · cases h
    · cases h
  | adcInit =>
    simp only [exec, execAdcInit] at h
    split at h
    · exact .decoded .exec (next h) (.inl rfl) ‹_›
    · rename_i hp
      split at h
      · exact .of_onRead h (by simp [hp]) fun _ => .latch rfl (.inl hp) (.inr (.inl (by simp)))
      · exact .of_writeHalf h (by simp [hp]) fun _ => .next rfl hp
      · exact .of_onRead h (by simp [hp]) fun _ => .latch rfl (.inl hp) (.inr (.inl (by simp)))
      · exact .of_writeHalf h (by simp [hp]) fun _ => .next rfl hp
      · exact .of_onRead h (by simp [hp]) fun _ => .latch rfl (.inl hp) (.inr (.inr (.inl (by simp))))
      · exact .of_writeHalf h (by simp [hp]) fun _ => .next rfl hp
      · exact .of_onRead h (by simp [hp]) fun _ => .latch rfl (.inl hp) (.inr (.inr (.inr (.inl rfl))))
      · exact .of_writeHalf h (by simp [hp]) fun _ => .next rfl hp
      · exact .of_onRead h (by simp [hp]) fun _ => .latch rfl (.inl hp) (.inr (.inr (.inr (.inr rfl))))
      · exact .of_writeHalf h (by simp [hp]) fun _ => .stab rfl rfl rfl hp
      · cases h
    · rename_i hp
      obtain ⟨n, hn, ht⟩ := stabTick_next h
      exact .tick n hn ht rfl hp
    · cases h
  | adcRead =>
    simp only [exec, execAdcRead] at h
    split at h
    · exact .decoded .startRequested (next h) (.inr rfl) ‹_›
    · rename_i hp
      split at h
      · exact .of_onRead h (by simp [hp]) fun _ => .latch rfl (.inr ⟨hp, rfl⟩) (.inr (.inr (.inr (.inr rfl))))
      · exact .of_writeHalf h (by simp [hp]) fun _ => .start rfl rfl rfl hp
      · cases h
    · rename_i hp
      exact .of_onRead h (by simp [hp]) fun _ => .poll rfl rfl rfl hp
    · rename_i hp
      exact .of_onRead h (by simp [hp]) fun _ => .result rfl rfl rfl hp
    · cases h

/-- What a step of the sequencer that answers a next state did: nothing outside a command, the fault of an empty latch, a
rejected command word, or a micro-operation of the latched command (R21, R28, R88). -/
theorem sequencerStep_next (h : sequencerStep s = .next t) :
    (s.busy = false ∧ t = s) ∨
    (s.busy = true ∧ latched s = none ∧ t = faultEmptyRead s) ∨
    (s.phase = .decode ∧ ∃ w, latched s = some w ∧ t = takeFault .illegalCommand w.cmd s) ∨
    ∃ w i, latched s = some w ∧ decode w = .ok i ∧ exec i s = .next t := by
  unfold sequencerStep at h
  split at h
  · rename_i hb
    split at h
    · rename_i hl
      exact .inr (.inl ⟨hb, hl, (Host.Outcome.next.inj h).symm⟩)
    · rename_i w hl
      split at h
      · rename_i i hd
        exact .inr (.inr (.inr ⟨w, i, hl, hd, h⟩))
      · unfold rejectCommand at h
        split at h
        · rename_i hp
          exact .inr (.inr (.inl ⟨hp, w, hl, (Host.Outcome.next.inj h).symm⟩))
        · cases h
  · rename_i hb
    exact .inl ⟨by simpa using hb, (Host.Outcome.next.inj h).symm⟩

end Sys2Proof.Machine
end

