-- ==== Sys2Proof/Laws/PerInstr.lean ====
section
/-! SUPPORT. Statements for all commands, one lemma per constructor (LAWS.json `per_instruction`). -/

namespace Sys2Proof.Laws

namespace EncodedLegal

/-- What the encoder writes is legal in the sense of spec/30_encoding.md R87. -/
def Statement (i : Instr) : Prop := i.WF → legal (encode i).cmd (encode i).a = true

theorem rd (addr : Word) : Statement (.rd addr) := fun _ => by
  simp [legal, encode, opcode, rsvField, opField, pinLevelField]

theorem wr (addr data : Word) : Statement (.wr addr data) := fun _ => by
  simp [legal, encode, opcode, rsvField, opField, pinLevelField]

theorem mod (addr setMask clearMask : Word) : Statement (.mod addr setMask clearMask) := fun _ => by
  simp [legal, encode, opcode, rsvField, opField, pinLevelField]

theorem portInit (mask : Word) : Statement (.portInit mask) := fun h => by
  have hm : mask.extractLsb' 16 16 = 0#16 := h
  simp [legal, encode, opcode, rsvField, opField, pinLevelField, hm]

theorem pinSet (pin : BitVec 4) (level : Bool) : Statement (.pinSet pin level) := fun _ => by
  revert pin level; decide

theorem adcInit : Statement .adcInit := fun _ => rfl

theorem adcRead : Statement .adcRead := fun _ => rfl

end EncodedLegal

end Sys2Proof.Laws
end

