-- ==== Sys2Proof/Laws/Run.lean ====
section
/-! SUPPORT. Runs: a turn reads neither `schedule` nor `turns`, so every run of `step` is a run over its turns; and a
sequencer that polls stays in `CONVERTING` until a poll of its own. -/

namespace Sys2Proof.Machine

/-! ### A turn does not read the order of turns -/

/-- The state with another order of turns still to come (log 5). -/
def State.withOrder (l : List Turn) (k : Nat) (s : State) : State := { s with schedule := l, turns := k }

/-- A result with its next state mapped. -/
def mapNext (f : State → State) : Result → Result
  | .next t => .next (f t)
  | .fault r => .fault r
  | .refused r => .refused r

/-- An operation that neither reads nor writes the order of turns. -/
abbrev Keeps (l : List Turn) (k : Nat) (f : State → State) : Prop := ∀ s, f (s.withOrder l k) = (f s).withOrder l k

variable {l : List Turn} {k : Nat}

theorem startEoc_withOrder : Keeps l k startEoc := fun s => by
  have h : (s.withOrder l k).eoc = s.eoc := rfl
  unfold startEoc; rw [h]; split <;> rfl

theorem startRequest_withOrder : Keeps l k startRequest := fun s => by
  have h : (s.withOrder l k).adon = s.adon := rfl
  unfold startRequest; rw [h]; split
  · rw [startEoc_withOrder]; rfl
  · rfl

theorem unsettleIf_withOrder (b : Bool) : Keeps l k (unsettleIf b) := fun s => by cases b <;> rfl

theorem startIf_withOrder (b : Bool) : Keeps l k (startIf b) := fun s => by
  cases b with
  | false => rfl
  | true => exact startRequest_withOrder s

theorem afterWrite_withOrder (a v : Word) : Keeps l k (afterWrite a v) := fun s => by
  unfold afterWrite writeEffects
  have h : ((s.withOrder l k).setReg a (storedWord (s.withOrder l k).cfg a v)).log (.busWr a v) =
      ((s.setReg a (storedWord s.cfg a v)).log (.busWr a v)).withOrder l k := rfl
  rw [h, unsettleIf_withOrder, startIf_withOrder, unsettleIf_withOrder]; rfl

theorem afterRead_withOrder (a : Word) : Keeps l k (afterRead a) := fun s => by
  have h : (s.withOrder l k).cfg = s.cfg := rfl
  unfold afterRead; rw [h]; split <;> (try split) <;> rfl

theorem onRead_withOrder (a : Word) {f : Word → State → State} (hf : ∀ v, Keeps l k (f v)) (s : State) :
    onRead a (s.withOrder l k) f = mapNext (State.withOrder l k) (onRead a s f) := by
  rw [onRead_eq, onRead_eq]
  have h : accessFault (s.withOrder l k) a = accessFault s a := rfl
  rw [h]; cases accessFault s a with
  | some c => rfl
  | none => simp only [mapNext]; rw [afterRead_withOrder, hf]; rfl

theorem onWrite_withOrder (a v : Word) {f : State → State} (hf : Keeps l k f) (s : State) :
    onWrite a v (s.withOrder l k) f = mapNext (State.withOrder l k) (onWrite a v s f) := by
  rw [onWrite_eq, onWrite_eq]
  have h : writeFault (s.withOrder l k) a v = writeFault s a v := rfl
  rw [h]; cases writeFault s a v with
  | some c => rfl
  | none => simp only [mapNext]; rw [afterWrite_withOrder, hf]

theorem writeHalf_withOrder (a x y : Word) {f : State → State} (hf : Keeps l k f) (s : State) :
    writeHalf a x y (s.withOrder l k) f = mapNext (State.withOrder l k) (writeHalf a x y s f) := by
  unfold writeHalf
  have h : (s.withOrder l k).t = s.t := rfl
  rw [h]; cases s.t with
  | none => rfl
  | some w => exact onWrite_withOrder a _ hf s

theorem readHalf_withOrder (a : Word) (s : State) :
    readHalf a (s.withOrder l k) = mapNext (State.withOrder l k) (readHalf a s) := by
  refine onRead_withOrder a ?_ s
  exact fun _ _ => rfl

theorem endStab_withOrder : Keeps l k endStab := fun s => by rw [endStab_eq, endStab_eq]; rfl

theorem beginStab_withOrder : Keeps l k beginStab := fun s => by
  have h : (s.withOrder l k).cfg = s.cfg := rfl
  unfold beginStab; rw [h]; split
  · exact endStab_withOrder s
  · rfl

theorem stabTick_withOrder (s : State) : stabTick (s.withOrder l k) = mapNext (State.withOrder l k) (stabTick s) := by
  have h : (s.withOrder l k).cnt = s.cnt := rfl
  unfold stabTick; rw [h]; split
  · rfl
  · rename_i n _
    simp only [mapNext]; split
    · rw [← endStab_withOrder]; rfl
    · rfl

theorem afterPoll_withOrder (v : Word) : Keeps l k (afterPoll v) := fun s => by
  have h : (s.withOrder l k).cfg = s.cfg := rfl
  have h2 : (s.withOrder l k).cnt = s.cnt := rfl
  unfold afterPoll; rw [h, h2]; split
  · rfl
  · split
    · rfl
    · split <;> rfl

/-- No micro-operation of any command reads or writes the order of turns. -/
theorem exec_withOrder (i : Instr) (s : State) :
    exec i (s.withOrder l k) = mapNext (State.withOrder l k) (exec i s) := by
  have hp : (s.withOrder l k).phase = s.phase := rfl
  have hu : (s.withOrder l k).upc = s.upc := rfl
  have hc : (s.withOrder l k).cfg = s.cfg := rfl
  have hnext : Keeps l k nextMicro := fun _ => rfl
  have hok : Keeps l k (respond .ok) := fun _ => rfl
  have hstart : Keeps l k startPolling := fun _ => rfl
  cases i with
  | rd addr =>
    simp only [exec, execRd, hp, hu]
    split
    · rfl
    · split
      · refine onRead_withOrder _ ?_ _
        exact fun _ _ => rfl
      · rfl
    · rfl
  | wr addr data =>
    simp only [exec, execWr, hp, hu]
    split
    · rfl
    · split
      · exact onWrite_withOrder _ _ hok _
      · rfl
    · rfl
  | mod addr setMask clearMask =>
    have hw : writeCheck (s.withOrder l k) addr = writeCheck s addr := rfl
    simp only [exec, execMod, hp, hu, hw]
    split
    · rfl
    · split
      · split
        · rfl
        · exact readHalf_withOrder _ _
      · exact writeHalf_withOrder _ _ _ hok _
      · rfl
    · rfl
  | portInit mask =>
    simp only [exec, execPortInit, hp, hu, hc]
    split
    · rfl
    · split
      · exact readHalf_withOrder _ _
      · exact writeHalf_withOrder _ _ _ hnext _
      · exact readHalf_withOrder _ _
      · exact writeHalf_withOrder _ _ _ hok _
      · rfl
    · rfl
  | pinSet pin level =>
    simp only [exec, execPinSet, hp, hu, hc]
    split
    · rfl
    · split
      · exact readHalf_withOrder _ _
      · split <;> exact writeHalf_withOrder _ _ _ hok _
      · rfl
    · rfl
  | adcInit =>
    simp only [exec, execAdcInit, hp, hu, hc]
    split
    · rfl
    · split
      · exact readHalf_withOrder _ _
      · exact writeHalf_withOrder _ _ _ hnext _
      · exact readHalf_withOrder _ _
      · exact writeHalf_withOrder _ _ _ hnext _
      · exact readHalf_withOrder _ _
      · exact writeHalf_withOrder _ _ _ hnext _
      · exact readHalf_withOrder _ _
      · exact writeHalf_withOrder _ _ _ hnext _
      · exact readHalf_withOrder _ _
      · exact writeHalf_withOrder _ _ _ beginStab_withOrder _
      · rfl
    · exact stabTick_withOrder _
    · rfl
  | adcRead =>
    simp only [exec, execAdcRead, hp, hu, hc]
    split
    · rfl
    · split
      · exact readHalf_withOrder _ _
      · exact writeHalf_withOrder _ _ _ hstart _
      · rfl
    · exact onRead_withOrder _ afterPoll_withOrder _
    · refine onRead_withOrder _ ?_ _
      exact fun _ _ => rfl
    · rfl

/-- No turn reads or writes the order of turns. -/
theorem act_withOrder (turn : Turn) (s : State) :
    act turn (s.withOrder l k) = mapNext (State.withOrder l k) (act turn s) := by
  cases turn with
  | issue c a x y =>
    have h : (s.withOrder l k).ready = s.ready := rfl
    simp only [act, mapNext, hostIssue, h]; split <;> rfl
  | take => rfl
  | reset => simp only [act, mapNext, hostReset, State.withOrder]
  | converter =>
    have h : (s.withOrder l k).conv = s.conv := rfl
    simp only [act, mapNext, converterStep, h]; split <;> rfl
  | sequencer =>
    have hb : (s.withOrder l k).busy = s.busy := rfl
    have hl : latched (s.withOrder l k) = latched s := rfl
    have hp : (s.withOrder l k).phase = s.phase := rfl
    simp only [act, sequencerStep, hb, hl]
    split
    · split
      · rfl
      · split
        · exact exec_withOrder _ _
        · simp only [rejectCommand, hp]; split <;> rfl
    · rfl

/-- Every run of `step` is, but for the record of the order, a run over the turns it took. -/
theorem run_of_steps {r : Nat → State} (h : ∀ n, step (r n) = .next (r (n + 1))) :
    StepsBy (fun n => (nextTurn (r n)).1) (fun n => (r n).withOrder [] 0) := by
  intro n
  have e : (r n).withOrder [] 0 = (nextTurn (r n)).2.withOrder [] 0 := by unfold nextTurn; split <;> rfl
  have hn : act (nextTurn (r n)).1 (nextTurn (r n)).2 = .next (r (n + 1)) := h n
  show act (nextTurn (r n)).1 ((r n).withOrder [] 0) = .next ((r (n + 1)).withOrder [] 0)
  rw [e, act_withOrder, hn]
  rfl

/-! ### Polling -/

/-- A sequencer that polls: what every turn but its own and the host's reset keeps (R151, R155). -/
structure Polls (w : CommandWords) (s : State) : Prop where
  config : s.cfg.WF
  latches : latched s = some w
  phase : s.phase = .converting
  clock : s.adcClock = true

/-- The sequencer's turn while it polls is one poll, which never faults (R151). -/
theorem Polls.sequencer {w : CommandWords} {s : State} (h : Polls w s) (hd : decode w = .ok .adcRead) :
    act .sequencer s = .next (afterPoll (readValue s.cfg.aSr s) (afterRead s.cfg.aSr s)) := by
  have ha : accessFault s s.cfg.aSr = none :=
    accessFault_clocked h.config (by simp [mapped]) ((clocked_converter h.config (by simp)).trans h.clock)
  have hb : s.busy = true := by simp [State.busy, h.phase]
  simp only [act, sequencerStep, hb, if_true, h.latches, hd, exec, execAdcRead, h.phase, onRead_eq, ha]

/-- Every turn but the sequencer's and the host's reset leaves it polling, with the same count. -/
theorem Polls.other {w : CommandWords} {s t : State} {turn : Turn} (h : Polls w s) (hw : s.regs.wf)
    (hs : turn ≠ .sequencer) (hr : turn ≠ .reset) (ht : act turn s = .next t) :
    Polls w t ∧ t.cnt = s.cnt ∧ t.cfg = s.cfg ∧ t.regs.wf := by
  cases turn with
  | sequencer => exact absurd rfl hs
  | reset => exact absurd rfl hr
  | issue c a x y =>
    have e : hostIssue ⟨c, a, x, y⟩ s = s := by simp [hostIssue, State.ready, h.phase]
    cases ht
    rw [e]
    exact ⟨h, rfl, rfl, hw⟩
  | take => cases ht; exact ⟨⟨h.config, h.latches, h.phase, h.clock⟩, rfl, rfl, hw⟩
  | converter =>
    cases ht
    unfold converterStep
    split
    · exact ⟨h, rfl, rfl, hw⟩
    · refine ⟨⟨h.config, h.latches, h.phase, ?_⟩, rfl, rfl, Memory.wf_write hw _ _⟩
      have hne : s.cfg.aDr ≠ s.cfg.aClkAdc := (h.config.clock_ne (by simp) (by simp)).symm
      have hreg := reg_setReg hw s.cfg.aDr ((Config.sampleDraw s.draws).zeroExtend 32) s.cfg.aClkAdc
      have hc := h.clock
      rw [if_neg hne] at hreg
      rwa [State.adcClock, ← hreg] at hc

/-- A poll sees EOC in bit `B_EOC` (R39). -/
theorem readValue_eoc {s : State} (h : s.cfg.WF) : (readValue s.cfg.aSr s).getLsbD s.cfg.bEoc = s.eoc := by
  rw [readValue, if_pos rfl, statusWord_eoc _ h.bits_lt.2.2.2.2.2]

end Sys2Proof.Machine
end

