-- ==== Sys2Proof/Tests/Slice0.lean ====
section
/-! SUPPORT. The model's own tests: configurations each check refuses, command words written from spec/30_encoding.md R85,
one-step vectors of spec/95_test_vectors.md, and for every statement with hypotheses a state that meets them. -/

namespace Sys2Proof.Tests

open Sys2Proof.Machine

/-! ### Configurations (spec/00_scope.md R8; 95_test_vectors.md section 0) -/

theorem test_exU_wellFormed : Cfg.exU.WF :=
  ⟨by simp [Cfg.W1, Cfg.exU], by simp [Cfg.W2, Cfg.exU], by simp [Cfg.W3, Cfg.exU], by decide, by decide, by decide, by decide, by decide, trivial⟩

theorem test_exB_wellFormed : Cfg.exB.WF :=
  ⟨by simp [Cfg.W1, Cfg.exU, Cfg.exB], by simp [Cfg.W2, Cfg.exU, Cfg.exB], by simp [Cfg.W3, Cfg.exU, Cfg.exB], by decide, by decide, by decide, by decide, by decide, Nat.le_succ 1⟩

theorem test_ex2_wellFormed : Cfg.ex2.WF :=
  ⟨by simp [Cfg.W1, Cfg.exU, Cfg.ex2], by simp [Cfg.W2, Cfg.exU, Cfg.ex2], by simp [Cfg.W3, Cfg.exU, Cfg.ex2], by decide, by decide, by decide, by decide, by decide, trivial⟩

theorem test_W1_refuses_misaligned : ¬ { Cfg.exU with aOdrOut := 0x20000016#32 }.W1 := by simp [Cfg.W1, Cfg.exU]

theorem test_W2_refuses_clock_on_peripheral : ¬ { Cfg.exU with aClkAdc := 0x20000014#32 }.W2 := by simp [Cfg.W2, Cfg.exU]

theorem test_W3_refuses_shared_converter : ¬ { Cfg.exU with aSr := 0x30000008#32 }.W3 := by simp [Cfg.W3, Cfg.exU]

theorem test_W3_refuses_converter_on_port : ¬ { Cfg.exU with aDr := 0x20000014#32 }.W3 := by simp [Cfg.W3, Cfg.exU]

theorem test_W4_refuses_mode_on_output : ¬ { Cfg.exU with aOdrOut := 0x20000000#32 }.W4 := by decide

theorem test_W5_refuses_two_clocks_of_one_port : ¬ { Cfg.exU with bClkAn := 1 }.W5 := by decide

theorem test_W6_refuses_bit_32 : ¬ { Cfg.exU with bEoc := 32 }.W6 := by decide

theorem test_W6_refuses_empty_slot : ¬ { Cfg.exU with sq1Width := 0 }.W6 := by decide

theorem test_W7_refuses_equal_pins : ¬ { Cfg.exU with pinPiezo := 2 }.W7 := by decide

theorem test_W7_refuses_sensor_on_output : ¬ { Cfg.exU with pinSensor := 3 }.W7 := by decide

theorem test_W8_refuses_wide_channel : ¬ { Cfg.exU with chSensor := 32, nCh := 40 }.W8 := by decide

theorem test_W9_refuses_no_poll : ¬ { Cfg.exU with pollLimit := .bounded 0 }.W9 := Nat.not_succ_le_zero 0

theorem test_operands_refuse_high_mask : ¬ (Instr.portInit 0x00010000#32).WF := by decide

/-! ### Decoding (30_encoding.md R85; 95_test_vectors.md section 2.1) -/

theorem test_decode_rd : decode ⟨0x00000001#32, 0x20000014#32, 7, 9⟩ = .ok (.rd 0x20000014#32) := by rfl

theorem test_decode_wr : decode ⟨0x00000002#32, 0x20000014#32, 7, 9⟩ = .ok (.wr 0x20000014#32 7) := by rfl

theorem test_decode_mod : decode ⟨0x00000003#32, 0x20000014#32, 7, 9⟩ = .ok (.mod 0x20000014#32 7 9) := by rfl

theorem test_decode_portInit : decode ⟨0x00000004#32, 5, 0x0000FFFF#32, 9⟩ = .ok (.portInit 0x0000FFFF#32) := by rfl

theorem test_decode_pinSet : decode ⟨0x00000125#32, 5, 7, 9⟩ = .ok (.pinSet 2 true) := by rfl

theorem test_decode_pinSet_high : decode ⟨0b000000000000000000000000011110101#32, 5, 7, 9⟩ = .ok (.pinSet 15 false) := by
  rfl

theorem test_decode_adcInit : decode ⟨0x00000006#32, 5, 7, 9⟩ = .ok .adcInit := by rfl

theorem test_decode_adcRead : decode ⟨0x00000007#32, 5, 7, 9⟩ = .ok .adcRead := by rfl

theorem test_decode_refuses_opcode :
    decode ⟨0x00000000#32, 0, 0, 0⟩ = .error .opcode ∧ decode ⟨0x00000008#32, 0, 0, 0⟩ = .error .opcode ∧
      decode ⟨0x0000000F#32, 0, 0, 0⟩ = .error .opcode := ⟨by rfl, by rfl, by rfl⟩

theorem test_decode_refuses_reserved :
    decode ⟨0x00000201#32, 0, 0, 0⟩ = .error .reservedBits ∧
      decode ⟨0x80000007#32, 0, 0, 0⟩ = .error .reservedBits := ⟨by rfl, by rfl⟩

theorem test_decode_refuses_unused_field :
    decode ⟨0x00000011#32, 0, 0, 0⟩ = .error .unusedField ∧
      decode ⟨0x00000106#32, 0, 0, 0⟩ = .error .unusedField := ⟨by rfl, by rfl⟩

theorem test_decode_refuses_mask : decode ⟨0x00000004#32, 0, 0x00010000#32, 0⟩ = .error .maskHigh := by rfl

theorem test_encode_pinSet : (encode (.pinSet 15 true)).cmd = 0x000001F5#32 := by decide

/-- The operand words of a table word count on from the command word: address, operand A, operand B (R80, R85). -/
theorem test_tableWord_mod :
    decodeTableWord 128 (0x00000003 + 0x20000014 * 2 ^ 32 + 7 * 2 ^ 64 + 9 * 2 ^ 96) =
      some (.mod 0x20000014#32 7 9) := by rfl

/-- An LED call is the command of R91: the critical LED on is `PIN_SET 2, 1`. -/
theorem test_ledSet_critical : (encode (ledSet Cfg.exU .critical true)).cmd = 0x00000125#32 := by decide

/-- `leds_init()` is `PORT_INIT 0x0007` under EX (R91; 95_test_vectors.md E5). -/
theorem test_ledsInit : ledsInit Cfg.exU = .portInit 0x00000007#32 := by decide

/-- `State.reset` meets the premise `CleanReset` (spec/10_state.md R44; log 2). -/
theorem test_reset_isClean : CleanReset State.reset := ⟨fun _ _ => rfl, rfl, rfl, rfl⟩

/-! ### Small states -/

/-- *S_ready* of 95_test_vectors.md section 0. -/
def sReady : State :=
  { State.reset with
    regs := [(0x10000000, 1#32), (0x10000004, 0x100#32), (0x20000000, 0x355#32), (0x30000008, 1#32), (0x30000034, 4#32)]
    settled := true }

/-- *S_ready* at a phase and micro-step. -/
def sAt (p : Phase) (u : BitVec 4) : State := { sReady with phase := p, upc := u }

/-- The same with a word latched by a read half. -/
def sHalf (p : Phase) (u : BitVec 4) (w : Word) : State := { sAt p u with t := some w }

/-- The same with a conversion in flight. -/
def inFlight (s : State) : State := { s with conv := .converting 4 true }

/-- A command latched as the host's issue latches it. -/
def latching (c a x y : Word) (s : State) : State :=
  { s with cmd := some c, opaddr := some a, opa := some x, opb := some y }

/-- The state a micro-operation answers, if it answers one. -/
def nextOf (r : Result) : Option State :=
  match r with
  | .next t => some t
  | .fault _ => none
  | .refused _ => none

/-! ### One step of each command (95_test_vectors.md sections 2.2 to 2.4) -/

/-- Section 2.2: `RD 0x20000014` with `ODR = 4` responds `DATA(4)`. -/
theorem test_rd_odr :
    (nextOf (exec (.rd 0x20000014#32) ((sAt .exec 0).setReg 0x20000014#32 4#32))).map State.rsp =
      some (some (.data 4#32)) := by decide

/-- Section 2.2: `RD 0x20000001` is `MISALIGNED`, checked before the mapping. -/
theorem test_rd_misaligned :
    (nextOf (exec (.rd 0x20000001#32) (sAt .exec 0))).map (fun t => (t.phase, t.fcause, t.finfo)) =
      some (.fault, some .misaligned, 0x20000001#32) := by decide

/-- Section 2.2: `WR 0x30000008, 0x40000001` starts a trusted conversion on channel 4 and stores 1. -/
theorem test_wr_start :
    (nextOf (exec (.wr 0x30000008#32 0x40000001#32) (sAt .exec 0))).map (fun t => (t.conv, t.reg 0x30000008#32)) =
      some (.converting 4 true, 1#32) := by decide

/-- Section 2.2: `WR 0x10000004, 0` under a conversion in flight is `CONVERTER_DISTURBED`. -/
theorem test_wr_disturbs :
    (nextOf (exec (.wr 0x10000004#32 0#32) (inFlight (sAt .exec 0)))).map State.fcause =
      some (some .converterDisturbed) := by decide

/-- Section 2.2: `MOD 0x20000014, 0x11, 0x30` on `ODR = 0xF0` leaves `0xD1`. -/
theorem test_mod_merges :
    (nextOf (exec (.mod 0x20000014#32 0x11#32 0x30#32) (sHalf .exec 1 0xF0#32))).map
      (fun t => (t.reg 0x20000014#32, t.rsp)) = some (0xD1#32, some .ok) := by decide

/-- Section 2.2: `MOD` of the data register is `RO_WRITE` before any read, and EOC stays 1. -/
theorem test_mod_data_register :
    (nextOf (exec (.mod 0x3000004C#32 0 0) { sAt .exec 0 with eoc := true })).map (fun t => (t.fcause, t.eoc)) =
      some (some .roWrite, true) := by decide

/-- Section 2.3: `PORT_INIT 0xFFFF` turns `MODER = 0xFFFFFFFF` into `0x55555555`. -/
theorem test_portInit_all :
    (nextOf (exec (.portInit 0xFFFF#32) (sHalf .exec 3 0xFFFFFFFF#32))).map (State.reg · 0x20000000#32) =
      some 0x55555555#32 := by decide

/-- Section 2.3: `PORT_INIT` keeps the other clock bits, `CLK0 = 0xFFFFFFFE`. -/
theorem test_portInit_clock :
    (nextOf (exec (.portInit 1#32) (sHalf .exec 1 0xFFFFFFFE#32))).map (State.reg · 0x10000000#32) =
      some 0xFFFFFFFF#32 := by decide

/-- Section 2.3: `PIN_SET 15, 0` on `ODR = 0xFFFFFFFF` leaves `0xFFFF7FFF`. -/
theorem test_pinSet_clears :
    (nextOf (exec (.pinSet 15 false) (sHalf .exec 1 0xFFFFFFFF#32))).map (State.reg · 0x20000014#32) =
      some 0xFFFF7FFF#32 := by decide

/-- Section 2.3: `PIN_SET 2, 1` with the port clock off is `UNCLOCKED` at the output-data register. -/
theorem test_pinSet_unclocked :
    (nextOf (exec (.pinSet 2 true) { sAt .exec 0 with regs := [] })).map (fun t => (t.fcause, t.finfo)) =
      some (some .unclocked, 0x20000014#32) := by decide

/-- Section 2.4: the channel step of `ADC_INIT` on `SQR = 0xFFFFFFFF` leaves `0xFFFFFFE4`. -/
theorem test_adcInit_channel :
    (nextOf (exec .adcInit (sHalf .exec 7 0xFFFFFFFF#32))).map (State.reg · 0x30000034#32) =
      some 0xFFFFFFE4#32 := by decide

/-- Section 2.4: the last wait step settles the converter and responds `OK`. -/
theorem test_adcInit_settles :
    (nextOf (exec .adcInit { sAt .stabWait 9 with cnt := 1, settled := false })).map
      (fun t => (t.settled, t.rsp, t.phase)) = some (true, some .ok, .idle) := by decide

/-- Section 2.4 (EX-B): the second poll with EOC 0 responds `TIMEOUT` and leaves the conversion in flight. -/
theorem test_adcRead_timeout :
    let s := { inFlight (sAt .converting 1) with cfg := Cfg.exB, cnt := 1 }
    (afterPoll 0#32 s).rsp = some .timeout ∧ (afterPoll 0#32 s).conv = .converting 4 true := by decide

/-- Section 2.4: `DONE` responds the 12-bit result and clears EOC. -/
theorem test_adcRead_done :
    (nextOf (exec .adcRead ({ sAt .done 1 with eoc := true }.setReg 0x3000004C#32 0x7A3#32))).map
      (fun t => (t.rsp, t.eoc)) = some (some (.data 0x7A3#32), false) := by decide

/-- A command placed by `withFetchWord` right after reset runs in the next step: `ADC_READ` enters `START_REQUESTED`. -/
theorem test_fetchWord_runs :
    (nextOf (step (State.reset.withFetchWord 32 0x7))).map State.phase = some .startRequested := by decide

/-- 93_implementation_defined.md U20: a write half with an empty `T` enters `FAULT`, whatever the cause. -/
theorem test_emptyT_faults :
    (nextOf (exec (.mod 0x20000014#32 1 0) (sAt .exec 1))).map State.phase = some .fault := by decide

/-- U20: a busy sequencer with empty command latches enters `FAULT`. -/
theorem test_emptyLatch_faults : (nextOf (sequencerStep (sAt .exec 0))).map State.phase = some .fault := by decide

/-! ### States that meet the hypotheses of the statements -/

theorem test_witness_DecodeEncodeRoundTrip : (Instr.portInit 0xFFFF#32).WF := by decide

theorem test_witness_OperandWordsUsedAndIgnored_decoded : decode ⟨0x1F5#32, 1, 2, 3⟩ = .ok (.pinSet 15 true) := by rfl

theorem test_witness_IllegalCommandsFault :
    (latching 0x201 0 0 0 (sAt .decode 0)).phase = .decode ∧
      latched (latching 0x201 0 0 0 (sAt .decode 0)) = some ⟨0x201, 0, 0, 0⟩ ∧
      ¬∃ i, decode ⟨0x201, 0, 0, 0⟩ = .ok i :=
  ⟨by rfl, by rfl, fun ⟨i, h⟩ => by
    have e : decode ⟨0x201, 0, 0, 0⟩ = .error .reservedBits := by rfl
    rw [e] at h; cases h⟩

theorem test_witness_DecodeStepOutcome :
    (latching 7 0 0 0 (sAt .decode 0)).phase = .decode ∧
      latched (latching 7 0 0 0 (sAt .decode 0)) = some ⟨7, 0, 0, 0⟩ ∧ decode ⟨7, 0, 0, 0⟩ = .ok .adcRead ∧
      latched (latching 4 0 0x10000 0 (sAt .decode 0)) = some ⟨4, 0, 0x10000, 0⟩ ∧
      decode ⟨4, 0, 0x10000, 0⟩ = .error .maskHigh := ⟨by rfl, by rfl, by rfl, by rfl, by rfl⟩

theorem test_witness_OperandWordsUsedAndIgnored_ignored :
    (0x1#32).extractLsb' 0 4 = 1#4 ∧ (0x2#32).extractLsb' 0 4 = 2#4 ∧ (0x4#32).extractLsb' 0 4 = 4#4 ∧
      (0x1F5#32).extractLsb' 0 4 ∈ [5#4, 6#4, 7#4] ∧ (0x7#32).extractLsb' 0 4 ∈ [5#4, 6#4, 7#4] := by decide

theorem test_witness_StepRunsLatchedCommand :
    let s := { latching 1 0x20000014 0 0 (sAt .exec 0) with schedule := [.sequencer] }
    s.schedule = [.sequencer] ∧ s.phase ≠ .idle ∧ s.phase ≠ .fault ∧ latched s = some ⟨1, 0x20000014, 0, 0⟩ ∧
      decode ⟨1, 0x20000014, 0, 0⟩ = .ok (.rd 0x20000014) :=
  ⟨by rfl, by decide, by decide, by rfl, by rfl⟩

theorem test_witness_MergeBitwise : (0 : Nat) < 32 ∧ (31 : Nat) < 32 := by decide

theorem test_witness_MergeLaws :
    (0xF0#32 &&& 0x30#32 = 0x30#32 ∧ 0x10#32 &&& ~~~0x30#32 = 0#32) ∧
      (0x1#32 ||| 0x3#32) &&& (0x10#32 ||| 0x30#32) = 0#32 ∧ (0x1#32 ||| 0x3#32).getLsbD 31 = false := by decide

theorem test_witness_MisalignedAccessFaults :
    (0x20000001#32).toNat % 4 ≠ 0 ∧ (0xFFFFFFFF#32).toNat % 4 ≠ 0 ∧ sReady.cfg.WF ∧ 0x20000014#32 ∈ mapped sReady.cfg :=
  ⟨by decide, by decide, test_exU_wellFormed, by decide⟩

theorem test_witness_UnmappedAccessFaults :
    (0x20000004#32).toNat % 4 = 0 ∧ 0x20000004#32 ∉ mapped sReady.cfg ∧ (0xFFFFFFFC#32).toNat % 4 = 0 ∧
      0xFFFFFFFC#32 ∉ mapped sReady.cfg := by decide

theorem test_witness_UnclockedAccessFaults :
    State.reset.cfg.WF ∧ (∀ a ∈ [0x20000000#32, 0x20000014#32, 0x30000008#32, 0x3000004C#32],
      a ∈ mapped State.reset.cfg ∧ State.reset.clocked a = false) :=
  ⟨test_exU_wellFormed, by simp only [List.forall_mem_cons]; exact ⟨by decide, by decide, by decide, by decide, nofun⟩⟩

theorem test_witness_ReadOnlyWriteFaults :
    sReady.cfg.WF ∧ 0x30000000#32 = sReady.cfg.aSr ∧ 0x3000004C#32 = sReady.cfg.aDr ∧ sReady.adcClock :=
  ⟨test_exU_wellFormed, by decide, by decide, by decide⟩

theorem test_witness_DisturbingWriteFaults :
    writeCheck (inFlight sReady) 0x30000034#32 = none ∧ writeCheck (inFlight sReady) 0x30000008#32 = none ∧
      writeCheck (inFlight sReady) 0x10000004#32 = none := by decide

theorem test_witness_RegisterAccessTakesFaults :
    (sAt .exec 0).phase = .exec ∧ (sAt .exec 0).upc = 0#4 ∧ busRead 2#32 (sAt .exec 0) = .error .misaligned ∧
      busWrite 0x30000000#32 0#32 (sAt .exec 0) = .error .roWrite ∧
      writeCheck (sAt .exec 0) 0x40000000#32 = some .unmapped ∧
      (sHalf .exec 1 4).upc = 1#4 ∧ (sHalf .exec 1 4).t = some 4 ∧
      busWrite 0x30000034#32 (merge 4 1 0) (inFlight (sHalf .exec 1 4)) = .error .converterDisturbed :=
  ⟨by decide, by decide, by rfl, by rfl, by decide, by decide, by decide, by rfl⟩

theorem test_witness_RdCompletes :
    let s := sAt .exec 0
    s.cfg.WF ∧ s.phase = .exec ∧ s.upc = 0#4 ∧ ∀ a ∈ [0x10000000#32, 0x20000014#32, 0x30000008#32],
      a ∈ mapped s.cfg ∧ s.clocked a ∧ a ≠ s.cfg.aSr ∧ a ≠ s.cfg.aDr :=
  ⟨test_exU_wellFormed, by decide, by decide,
    by simp only [List.forall_mem_cons]; exact ⟨by decide, by decide, by decide, nofun⟩⟩

theorem test_witness_RdConverterCompletes :
    (sAt .exec 0).cfg.WF ∧ (sAt .exec 0).phase = .exec ∧ (sAt .exec 0).upc = 0#4 ∧ (sAt .exec 0).adcClock :=
  ⟨test_exU_wellFormed, by decide, by decide, by decide⟩

theorem test_witness_WrCompletes :
    let s := sAt .exec 0
    s.cfg.WF ∧ s.phase = .exec ∧ s.upc = 0#4 ∧ ∀ a ∈ [0x10000000#32, 0x20000014#32, 0x30000034#32],
      a ∈ mapped s.cfg ∧ s.clocked a ∧ a ≠ s.cfg.aSr ∧ a ≠ s.cfg.aDr ∧ a ≠ s.cfg.aCr ∧ a ≠ s.cfg.aClkAdc ∧
        (a = s.cfg.aSqr → s.conv = .idle) :=
  ⟨test_exU_wellFormed, by decide, by decide,
    by simp only [List.forall_mem_cons]; exact ⟨by decide, by decide, by decide, nofun⟩⟩

theorem test_witness_WrCommandsConverter :
    let s := inFlight (sAt .exec 0)
    s.cfg.WF ∧ s.phase = .exec ∧ s.upc = 0#4 ∧ (0x100#32).getLsbD s.cfg.bClkAdc = true ∧ s.adcClock ∧
      (1#32).getLsbD s.cfg.bStart = false ∧ (1#32).getLsbD s.cfg.bAdon = true ∧ (sAt .exec 0).conv = .idle :=
  ⟨test_exU_wellFormed, by decide, by decide, by decide, by decide, by decide, by decide, by decide⟩

theorem test_witness_WrStartRequest :
    let s := { sAt .exec 0 with eoc := true }
    s.cfg.WF ∧ s.regs.wf ∧ s.phase = .exec ∧ s.upc = 0#4 ∧ s.adcClock ∧ s.conv = .idle ∧
      (0x40000001#32).getLsbD s.cfg.bStart = true ∧ (0x40000001#32).getLsbD s.cfg.bAdon = true ∧
      (0x40000000#32).getLsbD s.cfg.bStart = true ∧ (0x40000000#32).getLsbD s.cfg.bAdon = false :=
  ⟨test_exU_wellFormed, by decide, by decide, by decide, by decide, by decide, by decide, by decide, by decide,
    by decide⟩

theorem test_witness_ModCompletes :
    let s := sHalf .exec 1 7
    s.cfg.WF ∧ s.phase = .exec ∧ (sAt .exec 0).upc = 0#4 ∧ s.upc = 1#4 ∧ s.t = some 7 ∧
      ∀ a ∈ [0x10000000#32, 0x20000014#32, 0x30000034#32],
        a ∈ mapped s.cfg ∧ s.clocked a ∧ a ≠ s.cfg.aSr ∧ a ≠ s.cfg.aDr ∧ a ≠ s.cfg.aCr ∧ a ≠ s.cfg.aClkAdc ∧
          (a = s.cfg.aSqr → s.conv = .idle) :=
  ⟨test_exU_wellFormed, by decide, by decide, by decide, by decide,
    by simp only [List.forall_mem_cons]; exact ⟨by decide, by decide, by decide, nofun⟩⟩

theorem test_witness_ModWriteHalfIsWrOfMerge :
    (sHalf .exec 1 7).phase = .exec ∧ (sHalf .exec 1 7).upc = 1#4 ∧ (sHalf .exec 1 7).t = some 7 := by decide

theorem test_witness_ModRunMerges :
    let s := sAt .decode 0
    s.cfg.WF ∧ s.phase = .decode ∧ ∀ a ∈ [0x10000000#32, 0x20000000#32, 0x30000034#32],
      a ∈ mapped s.cfg ∧ s.clocked a ∧ a ≠ s.cfg.aSr ∧ a ≠ s.cfg.aDr ∧ a ≠ s.cfg.aCr ∧ a ≠ s.cfg.aClkAdc ∧
        (a = s.cfg.aSqr → s.conv = .idle) :=
  ⟨test_exU_wellFormed, by decide,
    by simp only [List.forall_mem_cons]; exact ⟨by decide, by decide, by decide, nofun⟩⟩

theorem test_witness_ModUpdateIsNotLost :
    let s := inFlight (sAt .exec 0)
    let turns : List Turn := [.converter, .take, .issue 1 2 3 4, .converter]
    s.cfg.WF ∧ s.regs.wf ∧ s.phase = .exec ∧ s.upc = 0#4 ∧ 0x20000014#32 ∈ mapped s.cfg ∧ s.clocked 0x20000014#32 ∧
      0x20000014#32 ≠ s.cfg.aSr ∧ 0x20000014#32 ≠ s.cfg.aDr ∧ 0x20000014#32 ≠ s.cfg.aCr ∧
      0x20000014#32 ≠ s.cfg.aClkAdc ∧ (0x20000014#32 = s.cfg.aSqr → s.conv = .idle) ∧ .sequencer ∉ turns ∧
      .reset ∉ turns :=
  ⟨test_exU_wellFormed, by decide, by decide, by decide, by decide, by decide, by decide, by decide, by decide,
    by decide, by decide, by decide, by decide⟩

theorem test_witness_RegisterAccessFrame :
    sReady.cfg.WF ∧ sReady.regs.wf ∧ (∃ t, exec (.rd 0x20000014) (sAt .exec 0) = .next t) ∧
      (∃ t, exec (.wr 0x20000014 5) (sAt .exec 0) = .next t) ∧
      (∃ t, exec (.mod 0x20000014 5 6) (sHalf .exec 1 7) = .next t) :=
  ⟨test_exU_wellFormed, by decide, ⟨_, rfl⟩, ⟨_, rfl⟩, ⟨_, rfl⟩⟩

theorem test_witness_PortInitStepsComplete :
    let s := sHalf .exec 1 1
    s.cfg.WF ∧ ClockHeld (inFlight s) ∧ s.phase = .exec ∧ (sAt .exec 0).upc = 0#4 ∧ s.upc = 1#4 ∧
      s.t = some 1 ∧ 1 = s.reg s.cfg.aClkOut ∧ (sAt .exec 2).upc = 2#4 ∧ (sAt .exec 2).outClock ∧
      (sHalf .exec 3 0x355).upc = 3#4 ∧ (sHalf .exec 3 0x355).outClock ∧ (sHalf .exec 3 0x355).t = some 0x355 :=
  ⟨test_exU_wellFormed, by decide, by decide, by decide, by decide, by decide, by decide, by decide, by decide,
    by decide, by decide, by decide⟩

theorem test_witness_PortInitRun :
    let s := State.reset
    ({ s with phase := .decode } : State).cfg.WF ∧ s.regs.wf ∧ ClockHeld s ∧
      ({ s with phase := .decode } : State).phase = .decode := ⟨test_exU_wellFormed, by decide, by decide, rfl⟩

theorem test_witness_PortInitLanes :
    (sAt .decode 0).cfg.WF ∧ (sAt .decode 0).regs.wf ∧ ClockHeld (sAt .decode 0) ∧ (sAt .decode 0).phase = .decode ∧
      (∃ t, execN (.portInit 0x8001) 5 (sAt .decode 0) = .next t) ∧ (0x8001#32).getLsbD 15 = true ∧
      (0x8001#32).getLsbD 14 = false := ⟨test_exU_wellFormed, by decide, by decide, rfl, ⟨_, rfl⟩, by decide, by decide⟩

theorem test_witness_PinSetStepsComplete :
    (sHalf .exec 1 7).cfg.WF ∧ (sHalf .exec 1 7).phase = .exec ∧ (sHalf .exec 1 7).outClock ∧ (sAt .exec 0).upc = 0#4 ∧
      (sHalf .exec 1 7).upc = 1#4 ∧ (sHalf .exec 1 7).t = some 7 :=
  ⟨test_exU_wellFormed, by decide, by decide, by decide, by decide, by decide⟩

theorem test_witness_PinSetIsIdempotent :
    (sAt .decode 0).cfg.WF ∧ (sAt .decode 0).regs.wf ∧ (sAt .decode 0).phase = .decode ∧
      ∃ t, execN (.pinSet 15 true) 3 (sAt .decode 0) = .next t := ⟨test_exU_wellFormed, by decide, rfl, ⟨_, rfl⟩⟩

theorem test_witness_PinDriveFollowsLatch :
    (sAt .decode 0).cfg.WF ∧ (sAt .decode 0).regs.wf ∧ (sAt .decode 0).phase = .decode ∧
      (∃ t, execN (.pinSet (BitVec.ofNat 4 (0 : Fin 16)) true) 3 (sAt .decode 0) = .next t) ∧
      modeField ((sAt .decode 0).reg (sAt .decode 0).cfg.aModerOut) 0 = 0b01#2 ∧
      modeField ((sAt .decode 0).reg (sAt .decode 0).cfg.aModerOut) 15 ≠ 0b01#2 :=
  ⟨test_exU_wellFormed, by decide, rfl, ⟨_, rfl⟩, by decide, by decide⟩

theorem test_witness_DigitalOutputFrame :
    sReady.cfg.WF ∧ sReady.regs.wf ∧ (∃ t, exec (.portInit 1) (sHalf .exec 3 0) = .next t) ∧
      (∃ t, exec (.pinSet 3 true) (sHalf .exec 1 0) = .next t) ∧ sReady.cfg.aClkOut ≠ sReady.cfg.aClkAdc :=
  ⟨test_exU_wellFormed, by decide, ⟨_, rfl⟩, ⟨_, rfl⟩, by decide⟩

theorem test_noWait_wellFormed : { Cfg.exU with stabCount := 0 }.WF :=
  let h := test_exU_wellFormed
  ⟨h.1, h.2, h.3, h.4, h.5, h.6, h.7, h.8, h.9⟩

/-- Every register step but UPC 7 with a conversion in flight, UPC 7 with none, and UPC 9 with and without a wait. -/
theorem test_witness_AdcInitStepsComplete :
    let at' (u : BitVec 4) (w : Word) : State := inFlight (sHalf .exec u w)
    let noWait : State := { at' 9 1 with cfg := { Cfg.exU with stabCount := 0 } }
    sReady.cfg.WF ∧ (∀ u w, (at' u w).phase = .exec ∧ (at' u w).upc = u ∧ (at' u w).t = some w ∧ (at' u w).conv ≠ .idle) ∧
      (∀ u w, (at' u w).anClock ∧ (at' u w).adcClock) ∧ LatchedFrom (at' 1 1) Cfg.exU.aClkAn ∧ ClockHeld (at' 1 1) ∧
      (sHalf .exec 7 4).conv = .idle ∧ (sHalf .exec 7 4).adcClock ∧
      LatchedFrom (at' 9 1) Cfg.exU.aCr ∧ TriggerClear (at' 9 1) ∧ Cfg.exU.stabCount ≠ 0 ∧
      noWait.cfg.WF ∧ noWait.adcClock ∧ LatchedFrom noWait noWait.cfg.aCr ∧ TriggerClear noWait ∧ noWait.regs.wf ∧
      noWait.cfg.stabCount = 0 ∧
      2 ≤ ({ sAt .stabWait 9 with cnt := 2 } : State).cnt ∧ ({ sAt .stabWait 9 with cnt := 1 } : State).cnt = 1 :=
  ⟨test_exU_wellFormed, fun _ _ => ⟨rfl, rfl, rfl, nofun⟩,
    fun _ _ => ⟨(by decide : sReady.anClock = true), (by decide : sReady.adcClock = true)⟩, by decide, by decide,
    by decide, by decide, by decide, by decide, by decide, test_noWait_wellFormed, by decide, by decide, by decide, by decide, rfl, by decide, by decide⟩

theorem test_witness_StabilizationWaitLength :
    ({ sAt .stabWait 9 with cnt := 1 } : State).phase = .stabWait ∧ ({ sAt .stabWait 9 with cnt := 1 } : State).cnt = 0 + 1 ∧
      ({ sAt .stabWait 9 with cnt := 3 } : State).cnt = 2 + 1 := by decide

theorem test_witness_AdcInitRun :
    let s := ({ State.reset with phase := .decode } : State)
    s.cfg.WF ∧ s.regs.wf ∧ TriggerClear s ∧ (s.settled → s.adcClock) ∧ s.conv = .idle ∧ s.phase = .decode :=
  ⟨test_exU_wellFormed, by decide, by decide, by decide, by decide, by decide⟩

theorem test_witness_AdcInitTwice :
    let s := ({ State.reset with phase := .decode } : State)
    s.cfg.WF ∧ s.regs.wf ∧ TriggerClear s ∧ (s.settled → s.adcClock) ∧ s.conv = .idle ∧ s.phase = .decode ∧
      ∃ t, execN .adcInit (11 + s.cfg.stabCount) s = .next t :=
  ⟨test_exU_wellFormed, by decide, by decide, by decide, by decide, by decide, ⟨_, rfl⟩⟩

theorem test_witness_AdcReadStartCompletes :
    let s := sHalf .startRequested 1 1
    let off := ({ s with regs := [(0x10000004, 0x100#32)], t := some 0 } : State)
    s.cfg.WF ∧ s.regs.wf ∧ TriggerClear s ∧ s.phase = .startRequested ∧ s.adcClock ∧
      (sAt .startRequested 0).upc = 0#4 ∧ s.upc = 1#4 ∧ s.t = some (s.reg s.cfg.aCr) ∧ s.conv = .idle ∧
      s.adon = true ∧ off.regs.wf ∧ off.adcClock ∧ off.t = some (off.reg off.cfg.aCr) ∧ off.adon = false :=
  ⟨test_exU_wellFormed, by decide, by decide, by decide, by decide, by decide, by decide, by decide, by decide,
    by decide, by decide, by decide, by decide, by decide⟩

theorem test_witness_PollStep :
    (sAt .converting 1).cfg.WF ∧ (sAt .converting 1).phase = .converting ∧ (sAt .converting 1).adcClock :=
  ⟨test_exU_wellFormed, by decide, by decide⟩

/-- EX-B about to poll, with a conversion in flight. -/
def poll0 : State := { inFlight (latching 7 0 0 0 (sAt .converting 1)) with cfg := Cfg.exB }

/-- After the first of the two polls EX-B allows. -/
def poll1 : State := setCnt 1 (afterRead Cfg.exB.aSr poll0)

/-- After the second: timed out. -/
def poll2 : State := respond .timeout (setCnt 2 (afterRead Cfg.exB.aSr poll1))

/-- A run of EX-B that polls twice, times out and has its response taken. -/
def timeoutRun : Nat → State
  | 0 => poll0
  | 1 => poll1
  | 2 => poll2
  | _ => hostTake poll2

/-- Its turns: the sequencer's, but for one `take`. -/
def timeoutTurns (n : Nat) : Turn := if n = 2 then .take else .sequencer

theorem timeoutRun_isRun : IsRun timeoutTurns timeoutRun where
  steps
    | 0 => by
      have h : Polls ⟨7, 0, 0, 0⟩ poll0 := ⟨test_exB_wellFormed, rfl, rfl, by decide⟩
      refine (h.sequencer rfl).trans ?_
      rw [afterPoll, afterRead_cfg, readValue_eoc h.config]
      rfl
    | 1 => by
      have h : Polls ⟨7, 0, 0, 0⟩ poll1 := ⟨test_exB_wellFormed, rfl, rfl, by decide⟩
      refine (h.sequencer rfl).trans ?_
      rw [afterPoll, afterRead_cfg, readValue_eoc h.config]
      rfl
    | 2 => rfl
    | _ + 3 => rfl
  sequencer n _ := by
    by_cases h : n = 2
    · exact ⟨2, by omega, .inl nofun⟩
    · exact ⟨n, Nat.le_refl n, .inr (if_neg h)⟩
  take
    | 0, h => absurd rfl h
    | 1, h => absurd rfl h
    | 2, _ => ⟨2, Nat.le_refl 2, .inr rfl⟩
    | _ + 3, h => absurd rfl h

theorem test_witness_PollTimeout :
    (poll0.cfg.WF ∧ poll0.cfg.pollLimit = .bounded 2 ∧ poll0.phase = .converting ∧ poll0.cnt = 0 ∧ poll0.adcClock ∧
      poll0.eoc = false ∧ latched poll0 = some ⟨7, 0, 0, 0⟩ ∧ decode ⟨7, 0, 0, 0⟩ = .ok .adcRead ∧ poll0.cnt < 2 ∧
      poll0.regs.wf) ∧
      timeoutRun 0 = poll0 ∧ IsRun timeoutTurns timeoutRun ∧ ∀ n, timeoutTurns n ≠ .reset :=
  ⟨⟨test_exB_wellFormed, rfl, rfl, rfl, by decide, rfl, rfl, rfl, by decide, by decide⟩, rfl, timeoutRun_isRun, fun n => by
    unfold timeoutTurns; split <;> decide⟩

theorem test_witness_PollNeverEndsUnbounded :
    let s := inFlight (latching 7 0 0 0 (sAt .converting 1))
    let turns : List Turn := [.sequencer, .take, .issue 1 2 3 4, .sequencer]
    s.cfg.WF ∧ s.cfg.pollLimit = .unbounded ∧ latched s = some ⟨7, 0, 0, 0⟩ ∧ decode ⟨7, 0, 0, 0⟩ = .ok .adcRead ∧
      s.phase = .converting ∧ s.adcClock ∧ s.eoc = false ∧ s.rsp = none ∧ .reset ∉ turns ∧ .converter ∉ turns :=
  ⟨test_exU_wellFormed, by decide, by rfl, by rfl, by decide, by decide, by decide, by decide, by decide, by decide⟩

theorem test_witness_DoneReturnsResult :
    (sAt .done 1).cfg.WF ∧ (sAt .done 1).phase = .done ∧ (sAt .done 1).adcClock :=
  ⟨test_exU_wellFormed, by decide, by decide⟩

theorem test_witness_AdcReadResultInRange :
    let s := (sAt .done 1).setReg 0x3000004C#32 0xFFF#32
    s.rsp = none ∧ ∃ t, exec .adcRead s = .next t ∧ t.rsp = some (.data 0xFFF#32) := ⟨rfl, _, rfl, by decide⟩

/-- Under EX-B the largest number of polls before the completion is 1. -/
theorem test_witness_AdcReadReturnsSample :
    let s := ({ latching 7 0 0 0 (sAt .decode 0) with cfg := Cfg.exB } : State)
    s.cfg.WF ∧ s.regs.wf ∧ TriggerClear s ∧ latched s = some ⟨7, 0, 0, 0⟩ ∧ decode ⟨7, 0, 0, 0⟩ = .ok .adcRead ∧
      s.phase = .decode ∧ s.adcClock ∧ s.adon ∧ s.conv = .idle ∧ s.eoc = false ∧
      (∀ n, s.cfg.pollLimit = .bounded n → 1 < n) :=
  ⟨test_exB_wellFormed, by decide, by decide, by rfl, by rfl, by decide, by decide, by decide, by decide, by decide,
    fun n h => by
      have : PollLimit.bounded 2 = .bounded n := h
      cases this; decide⟩

theorem test_witness_DriverCommandsFault :
    let off := ({ sAt .exec 0 with regs := [] } : State)
    let busy := inFlight (sHalf .exec 7 4)
    let start := inFlight (sHalf .startRequested 1 1)
    off.cfg.WF ∧ (off.phase = .exec ∧ off.upc = 0#4 ∧ off.outClock = false) ∧
      (busy.phase = .exec ∧ busy.upc = 7#4 ∧ busy.adcClock ∧ busy.t = some 4 ∧ busy.conv ≠ .idle) ∧
      (({ off with phase := .startRequested } : State).phase = .startRequested ∧ off.adcClock = false) ∧
      (start.phase = .startRequested ∧ start.upc = 1#4 ∧ start.adcClock ∧ start.t = some 1 ∧ start.conv ≠ .idle) :=
  ⟨test_exU_wellFormed, by decide, by decide, by decide, by decide⟩

theorem test_witness_AnalogInputFrame :
    sReady.cfg.WF ∧ sReady.regs.wf ∧ (∃ t, exec .adcInit (sHalf .exec 9 1) = .next t) ∧
      LatchedFrom (sHalf .exec 9 1) Cfg.exU.aCr ∧ TriggerClear (sHalf .exec 9 1) ∧
      (∃ t, exec .adcInit (sHalf .exec 5 0) = .next t) ∧ (sHalf .exec 5 0).upc ≠ 9#4 ∧
      (∃ t, exec .adcRead (sHalf .startRequested 1 1) = .next t) ∧
      LatchedFrom (sHalf .startRequested 1 1) Cfg.exU.aCr ∧ (∃ t, exec .adcRead (sAt .done 1) = .next t) ∧
      (sAt .done 1).phase ≠ .startRequested :=
  ⟨test_exU_wellFormed, by decide, ⟨_, rfl⟩, by decide, by decide, ⟨_, rfl⟩, by decide, ⟨_, rfl⟩, by decide, ⟨_, rfl⟩,
    by decide⟩

theorem test_witness_MicroProgramsEqualMods :
    let s := ({ State.reset with phase := .decode } : State)
    s.cfg.WF ∧ s.regs.wf ∧ ClockHeld s ∧ s.phase = .decode ∧ TriggerClear s ∧ (s.settled → s.adcClock) ∧
      s.conv = .idle :=
  ⟨test_exU_wellFormed, by decide, by decide, by decide, by decide, by decide, by decide⟩

theorem test_witness_ConverterCompletes :
    (inFlight sReady).conv = .converting 4 true ∧ sReady.conv = .idle := by decide

theorem test_witness_HostActions :
    sReady.phase = .idle ∧ sReady.rsp = none ∧ (sAt .exec 0).phase ≠ .idle ∧
      ({ sReady with rsp := some .ok } : State).rsp ≠ none := by decide

theorem test_witness_ResetLeaves : (sAt .fault 0).cfg.WF := test_exU_wellFormed

theorem test_witness_FaultIsSticky : (inFlight (sAt .fault 0)).phase = .fault ∧
    (inFlight (sAt .fault 0)).conv ≠ .idle ∧ Turn.take ≠ .reset := by decide

/-- A busy state of the invariant: `RD 2` about to make its misaligned access. -/
def rdMisaligned : State := latching 1 2 0 0 (sAt .exec 0)

theorem test_rdMisaligned_inv : Inv rdMisaligned where
  config := test_exU_wellFormed
  regs := ⟨by decide, by
    simp only [rdMisaligned, latching, sAt, sReady, List.forall_mem_cons]
    exact ⟨⟨0x10000000#32, by decide⟩, ⟨0x10000004#32, by decide⟩, ⟨0x20000000#32, by decide⟩,
      ⟨0x30000008#32, by decide⟩, ⟨0x30000034#32, by decide⟩, nofun⟩⟩
  trigger := by decide
  data := by decide
  conv := trivial
  settled := by decide
  response := trivial
  faultRegs := by decide
  sequencer := fun _ => ⟨_, rfl, .inr ⟨_, rfl, by decide, by decide⟩⟩

theorem test_witness_FaultTable :
    Inv rdMisaligned ∧ rdMisaligned.busy ∧ latched rdMisaligned = some ⟨1, 2, 0, 0⟩ ∧
      ∃ t, sequencerStep rdMisaligned = .next t ∧ t.phase = .fault :=
  ⟨test_rdMisaligned_inv, by decide, by rfl, _, rfl, by decide⟩

theorem test_witness_FaultEntryIsPrecise :
    rdMisaligned.phase ≠ .fault ∧ ∃ t, sequencerStep rdMisaligned = .next t ∧ t.phase = .fault :=
  ⟨by decide, _, rfl, by decide⟩

theorem test_witness_InterfaceOutputs :
    ({ sReady with rsp := some (.data 7) } : State).rsp = some (.data 7) ∧
      ({ sReady with rsp := some .timeout } : State).rsp = some .timeout ∧
      ({ sReady with fcause := some .roWrite } : State).fcause = some .roWrite := by decide

theorem test_witness_TraceIsWriteOnly :
    Turn.take ≠ .reset ∧ ∃ t, act .sequencer rdMisaligned = .next t := ⟨by decide, _, rfl⟩

/-- Each way `SETTLED` changes: the end of the wait, a write that clears ADON, a write that stops the clock, reset. -/
theorem test_witness_SettledChangesOnlyByRule :
    sReady.cfg.WF ∧ sReady.regs.wf ∧
      (∃ t, act .sequencer (latching 6 0 0 0 { sAt .stabWait 9 with cnt := 1, settled := false }) = .next t ∧
        t.settled ≠ false) ∧
      (∃ t, act .sequencer (latching 2 0x30000008 0 0 (sAt .exec 0)) = .next t ∧ t.settled ≠ true) ∧
      (∃ t, act .sequencer (latching 2 0x10000004 0 0 (sAt .exec 0)) = .next t ∧ t.settled ≠ true) ∧
      ∃ t, act .reset sReady = .next t ∧ t.settled ≠ true :=
  ⟨test_exU_wellFormed, by decide, ⟨_, rfl, by decide⟩, ⟨_, rfl, by decide⟩, ⟨_, rfl, by decide⟩, _, rfl, by decide⟩

/-- Each way the conversion changes: a start request, a completion, reset. -/
theorem test_witness_ConversionChangesOnlyByRule :
    sReady.cfg.WF ∧ sReady.regs.wf ∧
      (∃ t, act .sequencer (latching 2 0x30000008 0x40000001 0 (sAt .exec 0)) = .next t ∧ t.conv ≠ .idle) ∧
      (∃ t, act .converter (inFlight sReady) = .next t ∧ t.conv ≠ .converting 4 true) ∧
      ∃ t, act .reset (inFlight sReady) = .next t ∧ t.conv ≠ .converting 4 true :=
  ⟨test_exU_wellFormed, by decide, ⟨_, rfl, by decide⟩, ⟨_, rfl, by decide⟩, _, rfl, by decide⟩

/-- Each way EOC changes without a draw: a completion, and a read of the data register. -/
theorem test_witness_EocChangesOnlyByRule :
    sReady.cfg.WF ∧ Turn.converter ≠ .reset ∧ Turn.sequencer ≠ .reset ∧
      (∃ t, act .converter (inFlight sReady) = .next t ∧ t.eoc ≠ false) ∧
      ∃ t, act .sequencer (latching 1 0x3000004C 0 0 { sAt .exec 0 with eoc := true }) = .next t ∧ t.eoc ≠ true :=
  ⟨test_exU_wellFormed, by decide, by decide, ⟨_, rfl, by decide⟩, _, rfl, by decide⟩

theorem test_witness_ResetMeetsInvariant : Cfg.exB.WF ∧ Cfg.ex2.WF := ⟨test_exB_wellFormed, test_ex2_wellFormed⟩

/-- The sequencer's turn next, in a state of the invariant. -/
theorem test_witness_StepKeepsInvariant :
    Inv rdMisaligned ∧ ∃ t, act .sequencer rdMisaligned = .next t := ⟨test_rdMisaligned_inv, _, rfl⟩

theorem test_witness_InvariantNeverStuck : Inv rdMisaligned := test_rdMisaligned_inv

end Sys2Proof.Tests
end

/-! SUPPORT and PROOFS. The family 10_state.md. What a micro-operation does is said once (`Micro.finishes`: at most one
bus access, then the sequencer's own registers), and how a command goes on once (`exec_advances`); the statements about
the invariant, `SETTLED`, EOC, the conversion, reset, `TRACE` and the pins are assembled from these. -/

namespace Sys2Proof.Machine

variable {i : Instr} {s t u : State} {a v w : Word}

/-! ### One bus access, then the sequencer's own registers -/

/-- The bus access of a micro-operation, if it makes one that passes its checks. -/
inductive Access (s u : State) : Prop where
  | skip (h : u = s)
  | read (a : Word) (hf : accessFault s a = none) (h : u = afterRead a s)
  | write (a v : Word) (hf : writeFault s a v = none) (h : u = afterWrite a v s)

/-- The end of `ADC_INIT` (R146), after its wait or, with none to make, after its write of `A_CR`: the one place where
`SETTLED` is set (R33). -/
structure EndsWait (i : Instr) (s u t : State) : Prop where
  command : i = .adcInit
  response : t.rsp = some .ok
  settled : t.settled = (u.settled || u.adon)
  place : (s.phase = .stabWait ∧ u = s) ∨ ∃ v, writeFault s s.cfg.aCr v = none ∧ u = afterWrite s.cfg.aCr v s

/-- How a micro-operation of `i` from `s` goes on from the state `u` its bus access left: it changes the sequencer's own
registers, `TRACE`, and at the end of `ADC_INIT` `SETTLED`. -/
structure Finishes (i : Instr) (s u t : State) : Prop where
  command : SameCommand u t
  regs : t.regs = u.regs
  eoc : t.eoc = u.eoc
  conv : t.conv = u.conv
  trace : TraceGrows u t
  faultRegs : (t.phase = .fault ∧ t.fcause ≠ none) ∨
    (t.phase ≠ .fault ∧ t.fcause = u.fcause ∧ t.finfo = u.finfo)
  response : t.rsp = u.rsp ∨ (t.phase = .idle ∧ (t.rsp = some .timeout → u.cfg.pollLimit ≠ .unbounded))
  settled : t.settled = u.settled ∨ EndsWait i s u t

/-- A step of the sequencer's own registers that neither responds nor faults. -/
theorem Finishes.silent (hc : SameCommand u t) (hregs : t.regs = u.regs) (heoc : t.eoc = u.eoc)
    (hconv : t.conv = u.conv) (hset : t.settled = u.settled) (htr : t.trace = u.trace) (hrsp : t.rsp = u.rsp)
    (hp : t.phase ≠ .fault) (hfc : t.fcause = u.fcause) (hfi : t.finfo = u.finfo) : Finishes i s u t where
  command := hc
  regs := hregs
  eoc := heoc
  conv := hconv
  trace := ⟨[], by simp [htr]⟩
  faultRegs := .inr ⟨hp, hfc, hfi⟩
  response := .inl hrsp
  settled := .inl hset

theorem Finishes.stay (hp : u.phase ≠ .fault) : Finishes i s u u := by
  apply Finishes.silent <;> simp [SameCommand, hp]

theorem Finishes.latchT (hp : u.phase ≠ .fault) : Finishes i s u (latchT w u) := by
  apply Finishes.silent <;> simp [SameCommand, hp]

theorem Finishes.nextMicro (hp : u.phase ≠ .fault) : Finishes i s u (nextMicro u) := by
  apply Finishes.silent <;> simp [SameCommand, hp]

theorem Finishes.latch (hp : u.phase ≠ .fault) : Finishes i s u (Machine.nextMicro (Machine.latchT w u)) := by
  apply Finishes.silent <;> simp [SameCommand, hp]

theorem Finishes.enter {p : Phase} (hp : p ≠ .fault) : Finishes i s u (enter p u) := by
  apply Finishes.silent <;> simp [SameCommand, hp]

theorem Finishes.setPhase {p : Phase} (hp : p ≠ .fault) : Finishes i s u (setPhase p u) := by
  apply Finishes.silent <;> simp [SameCommand, hp]

theorem Finishes.setCnt {n : Nat} (hp : u.phase ≠ .fault) : Finishes i s u (setCnt n u) := by
  apply Finishes.silent <;> simp [SameCommand, hp]

theorem Finishes.startPolling : Finishes i s u (startPolling u) := by
  apply Finishes.silent <;> simp [SameCommand]

theorem Finishes.takeFault {c : Cause} : Finishes i s u (takeFault c w u) where
  command := by simp [SameCommand]
  regs := rfl
  eoc := rfl
  conv := rfl
  trace := ⟨_, rfl⟩
  faultRegs := .inl ⟨rfl, nofun⟩
  response := .inl rfl
  settled := .inl rfl

/-- A response ends the command in `IDLE`, whatever `T` and `CNT` became before it. -/
theorem Finishes.respond {r : Response} (hf : Finishes i s u t) (ht : t.settled = u.settled) (hp : t.phase ≠ .fault)
    (hr : r = .timeout → u.cfg.pollLimit ≠ .unbounded) : Finishes i s u (respond r t) where
  command := hf.command
  regs := hf.regs
  eoc := hf.eoc
  conv := hf.conv
  trace := by
    obtain ⟨events, h⟩ := hf.trace
    exact ⟨events ++ [.rsp r], by simp [h]⟩
  faultRegs := .inr ⟨nofun, (hf.faultRegs.resolve_left fun h => hp h.1).2⟩
  response := .inr ⟨rfl, fun h => hr (Option.some.inj h)⟩
  settled := .inl ht

/-- After a poll the sequencer is done, polls on, or has timed out in bounded mode (R151, R152). -/
theorem Finishes.afterPoll (hp : u.phase ≠ .fault) : Finishes i s u (afterPoll v u) := by
  rcases afterPoll_cases v u with ⟨-, h⟩ | ⟨-, -, h⟩ | ⟨n, -, hn, -, h⟩ | ⟨n, -, -, -, h⟩ <;> rw [h]
  · exact .setPhase nofun
  · exact .stay hp
  · exact .respond (.setCnt hp) rfl hp fun _ => by simp [hn]
  · exact .setCnt hp

/-- The end of the wait from a state that differs from `u` in `CNT` at most. -/
theorem Finishes.endStab {n : Nat} (hi : i = .adcInit)
    (hp : (s.phase = .stabWait ∧ u = s) ∨ ∃ v, writeFault s s.cfg.aCr v = none ∧ u = afterWrite s.cfg.aCr v s) :
    Finishes i s u (endStab (Machine.setCnt n u)) := by
  rw [endStab_eq]
  exact {
    command := by simp [SameCommand]
    regs := rfl
    eoc := rfl
    conv := rfl
    trace := ⟨_, rfl⟩
    faultRegs := .inr ⟨nofun, rfl, rfl⟩
    response := .inr ⟨rfl, nofun⟩
    settled := .inr ⟨hi, rfl, rfl, hp⟩ }

theorem Finishes.beginStab (hi : i = .adcInit) (hf : writeFault s s.cfg.aCr v = none)
    (hu : u = afterWrite s.cfg.aCr v s) : Finishes i s u (beginStab u) := by
  unfold Machine.beginStab
  split
  · exact Finishes.endStab (n := u.cnt) hi (.inr ⟨v, hf, hu⟩)
  · apply Finishes.silent <;> simp [SameCommand]

/-- Every micro-operation makes at most one bus access and then changes the sequencer's own registers. -/
theorem Micro.finishes (h : Micro i s t) : ∃ u, Access s u ∧ Finishes i s u t := by
  cases h with
  | decoded p h hp hd => exact ⟨s, .skip rfl, h ▸ .enter (by rcases hp with rfl | rfl <;> nofun)⟩
  | faulted c a h hp => exact ⟨s, .skip rfl, h ▸ .takeFault⟩
  | read a hf h =>
    refine ⟨afterRead a s, .read a hf rfl, ?_⟩
    cases h with
    | latch h hp _ => exact h ▸ .latch (by rcases hp with hp | ⟨hp, -⟩ <;> simp [hp])
    | answer h hi hp =>
      subst h
      exact .respond (.latchT (by simp [hp])) rfl (by simp [hp]) nofun
    | poll h hi ha hp => exact h ▸ .afterPoll (by simp [hp])
    | result h hi ha hp =>
      subst h
      exact .respond (.stay (by simp [hp])) rfl (by simp [hp]) nofun
  | write a v hf h =>
    refine ⟨afterWrite a v s, .write a v hf rfl, ?_⟩
    cases h with
    | next h hp => exact h ▸ .nextMicro (by simp [hp])
    | answer h hp =>
      subst h
      exact .respond (.stay (by simp [hp])) rfl (by simp [hp]) nofun
    | start h hi ha hp => exact h ▸ .startPolling
    | stab h hi ha hp => subst ha; exact h ▸ .beginStab hi hf rfl
  | tick n hn h hi hp =>
    refine ⟨s, .skip rfl, ?_⟩
    split at h
    · exact h ▸ .endStab hi (.inl ⟨hp, rfl⟩)
    · exact h ▸ .setCnt (by simp [hp])


/-! ### What a bus access and the end of a micro-operation keep -/

theorem Access.fields (h : Access s u) : SameCommand s u ∧ u.phase = s.phase ∧ u.rsp = s.rsp ∧ u.fcause = s.fcause ∧
    u.finfo = s.finfo ∧ TraceGrows s u := by
  cases h with
  | skip h => subst h; exact ⟨by simp [SameCommand], rfl, rfl, rfl, rfl, [], by simp⟩
  | read a _ h => subst h; exact ⟨by simp [SameCommand], by simp, by simp, by simp, by simp, _, afterRead_trace a s⟩
  | write a v _ h =>
    subst h
    obtain ⟨later, hl⟩ := afterWrite_trace a v s
    exact ⟨by simp [SameCommand], by simp, by simp, by simp, by simp, _, hl⟩

/-- No bus access breaks the device part of the invariant. -/
theorem Access.deviceOk (h : Access s u) (hd : DeviceOk s) : DeviceOk u := by
  cases h with
  | skip h => exact h ▸ hd
  | read a _ h => exact h ▸ afterRead_deviceOk hd a
  | write a v hf h => exact h ▸ afterWrite_deviceOk hd hf

/-- No micro-operation changes the configuration, the command latches or the order of turns (R20, R23). -/
theorem Micro.sameCommand (h : Micro i s t) : SameCommand s t := by
  obtain ⟨u, hu, hf⟩ := h.finishes
  obtain ⟨⟨a1, a2, a3, a4, a5, a6, a7⟩, -⟩ := hu.fields
  obtain ⟨b1, b2, b3, b4, b5, b6, b7⟩ := hf.command
  exact ⟨b1.trans a1, b2.trans a2, b3.trans a3, b4.trans a4, b5.trans a5, b6.trans a6, b7.trans a7⟩

/-- Every micro-operation only appends to `TRACE` (R42). -/
theorem Micro.traceGrows (h : Micro i s t) : TraceGrows s t := by
  obtain ⟨u, hu, hf⟩ := h.finishes
  obtain ⟨-, -, -, -, -, e1, h1⟩ := hu.fields
  obtain ⟨e2, h2⟩ := hf.trace
  exact ⟨e1 ++ e2, by rw [h2, h1, List.append_assoc]⟩

/-- A bit of a register is set after a write if the written word sets it there, or it was set and the write went
elsewhere. START is the one bit a write does not store (R38, R65). -/
theorem afterWrite_getLsbD (hr : s.regs.wf) {b : Word} {n : Nat} (hb : b = s.cfg.aCr → n ≠ s.cfg.bStart)
    (hv : a = b → v.getLsbD n = true) (ho : a ≠ b → (s.reg b).getLsbD n = true) :
    ((afterWrite a v s).reg b).getLsbD n = true := by
  rw [afterWrite_reg hr]
  split
  · rename_i hab
    unfold storedWord
    split
    · rename_i hac
      rw [getLsbD_and_not_bit, hv hab]
      simpa using (hb (hab ▸ hac)).symm
    · exact hv hab
  · exact ho ‹_›

/-- A converter that is clocked when `SETTLED` follows ADON keeps the device part of the invariant (R33, R146). -/
theorem DeviceOk.settle (h : DeviceOk u) (hclk : u.adcClock = true) (hc : t.cfg = u.cfg) (hr : t.regs = u.regs)
    (hv : t.conv = u.conv) (hs : t.settled = (u.settled || u.adon)) : DeviceOk t := by
  have hset : DeviceOk { u with settled := u.settled || u.adon } := by
    refine ⟨h.config, h.regs, h.trigger, h.data, ?_, fun hs => ⟨hclk, ?_⟩⟩
    · have hk := h.conv
      unfold ConvOk at hk ⊢
      cases hcv : u.conv with
      | idle => trivial
      | converting ch tr =>
        simp only [hcv] at hk ⊢
        obtain ⟨hch, hck, hon, htr⟩ := hk
        exact ⟨hch, hck, hon, fun ht => ⟨(htr ht).1, by simp [(htr ht).2]⟩⟩
    · rcases Bool.or_eq_true_iff.mp hs with h1 | h1
      · exact (h.settled h1).2
      · exact h1
  exact hset.of_eq hc hr hv hs

/-- Where `ADC_INIT` ends, the converter's clock is on. -/
theorem EndsWait.adcClock (h : EndsWait i s u t) (hd : DeviceOk s) (hw : s.phase = .stabWait → s.adcClock = true) :
    u.adcClock = true := by
  rcases h.place with ⟨hp, rfl⟩ | ⟨v, hf, rfl⟩
  · exact hw hp
  · have hne : s.cfg.aClkAdc ≠ s.cfg.aCr := hd.config.clock_ne (by simp) (by simp)
    obtain ⟨-, -, hclk⟩ := accessFault_none (writeCheck_none.mp (writeFault_none.mp hf).1).1
    rw [clocked_converter hd.config (by simp)] at hclk
    rw [State.adcClock, afterWrite_cfg]
    exact afterWrite_getLsbD hd.regs.1 (fun h => absurd h hne) (fun h => absurd h hne.symm) fun _ => hclk

/-- Every micro-operation keeps the device part of the invariant, if the clock is on during the wait (R145). -/
theorem Micro.deviceOk (h : Micro i s t) (hd : DeviceOk s) (hw : s.phase = .stabWait → s.adcClock = true) :
    DeviceOk t := by
  obtain ⟨u, hu, hf⟩ := h.finishes
  have hdu := hu.deviceOk hd
  rcases hf.settled with hs | he
  · exact hdu.of_eq hf.command.1 hf.regs hf.conv hs
  · exact hdu.settle (he.adcClock hd hw) hf.command.1 hf.regs hf.conv he.settled

/-- A micro-operation of a machine with an empty response slot leaves the slot as R25 says. -/
theorem Micro.responseOk (h : Micro i s t) (hr : s.rsp = none) : ResponseOk t := by
  obtain ⟨u, hu, hf⟩ := h.finishes
  obtain ⟨-, -, hrsp, -⟩ := hu.fields
  unfold ResponseOk
  rcases hf.response with hs | ⟨hp, ht⟩
  · rw [hs, hrsp, hr]; trivial
  · split
    · trivial
    · rename_i r hr
      exact ⟨hp, fun hrt => hf.command.1 ▸ ht (hrt ▸ hr)⟩

/-- A micro-operation sets the fault registers exactly where it enters `FAULT` (R26, R186). -/
theorem Micro.faultRegsOk (h : Micro i s t) (hc : s.fcause = none) (hi : s.finfo = 0#32) : FaultRegsOk t := by
  obtain ⟨u, hu, hf⟩ := h.finishes
  obtain ⟨-, -, -, hfc, hfi, -⟩ := hu.fields
  rcases hf.faultRegs with ⟨hp, hne⟩ | ⟨hp, hec, hei⟩
  · exact ⟨⟨fun _ => hne, fun _ => hp⟩, fun h => absurd h hne⟩
  · rw [hfc, hc] at hec
    rw [hfi, hi] at hei
    exact ⟨⟨fun h => absurd h hp, fun h => absurd hec h⟩, fun _ => hei⟩

/-! ### From a micro-operation of its command the sequencer reaches the next one -/

/-- The result of a micro-operation of `i` is a next state, and there the command has ended or stands at a
micro-operation again. -/
def Advances (i : Instr) (r : Result) : Prop := ∃ t, r = .next t ∧ (t.busy = true → microAt i t)

theorem not_busy_fault (h : t.phase = .fault) : t.busy ≠ true := by simp [State.busy, h]

theorem not_busy_idle (h : t.phase = .idle) : t.busy ≠ true := by simp [State.busy, h]

theorem Advances.next (h : microAt i t) : Advances i (.next t) := ⟨t, rfl, fun _ => h⟩

theorem Advances.ended (h : t.phase = .idle) : Advances i (.next t) :=
  ⟨t, rfl, fun hb => absurd hb (not_busy_idle h)⟩

theorem Advances.faulted (h : t.phase = .fault) : Advances i (.next t) :=
  ⟨t, rfl, fun hb => absurd hb (not_busy_fault h)⟩

theorem Advances.onRead {k : Word → State → State}
    (h : accessFault s a = none → Advances i (.next (k (readValue a s) (afterRead a s)))) :
    Advances i (onRead a s k) := by
  rw [onRead_eq]
  cases hf : accessFault s a with
  | some c => exact .faulted rfl
  | none => exact h hf

theorem Advances.onWrite {k : State → State}
    (h : writeFault s a v = none → Advances i (.next (k (afterWrite a v s)))) : Advances i (onWrite a v s k) := by
  rw [onWrite_eq]
  cases hf : writeFault s a v with
  | some c => exact .faulted rfl
  | none => exact h hf

/-- The state a read half leaves (R64, R102). -/
abbrev latchedState (a : Word) (s : State) : State := nextMicro (latchT (s.reg a) (s.log (.busRd a (s.reg a))))

/-- A read half of a register without read effects latches its word, or faults. -/
theorem Advances.readHalf (hp : a ≠ s.cfg.aSr ∧ a ≠ s.cfg.aDr)
    (h : s.clocked a = true → microAt i (latchedState a s)) : Advances i (readHalf a s) := by
  refine .onRead fun hf => .next ?_
  obtain ⟨hread, hval⟩ := afterRead_plain hp.1 hp.2
  rw [hread, hval]
  exact h (accessFault_none hf).2.2

/-- A write half with the register's own word in `T` writes the merge, or faults. -/
theorem Advances.writeHalf {x y : Word} {k : State → State} (ht : LatchedFrom s a)
    (h : s.clocked a = true → Advances i (.next (k (afterWrite a (merge (s.reg a) x y) s)))) :
    Advances i (writeHalf a x y s k) := by
  unfold Machine.writeHalf
  rw [ht]
  refine .onWrite fun hf => h ?_
  exact (accessFault_none (writeCheck_none.mp (writeFault_none.mp hf).1).1).2.2

/-- Counting up a micro-step of a micro-program, none of which is longer than 15 (R27). -/
theorem upc_succ {b : BitVec 4} {n : Nat} (h : b.toNat = n) (hn : n < 15) : (b + 1#4).toNat = n + 1 := by
  rw [BitVec.toNat_add, h]
  simp
  omega

theorem rd_advances (h : s.phase = .decode ∨ microAt (.rd a) s) : Advances (.rd a) (exec (.rd a) s) := by
  rcases h with hp | ⟨hp, hu⟩ <;> simp only [exec, execRd, hp]
  · exact .next ⟨rfl, rfl⟩
  · simp only [hu]
    exact .onRead fun _ => .ended rfl

theorem wr_advances (h : s.phase = .decode ∨ microAt (.wr a v) s) : Advances (.wr a v) (exec (.wr a v) s) := by
  rcases h with hp | ⟨hp, hu⟩ <;> simp only [exec, execWr, hp]
  · exact .next ⟨rfl, rfl⟩
  · simp only [hu]
    exact .onWrite fun _ => .ended rfl

theorem mod_advances {x y : Word} (h : s.phase = .decode ∨ microAt (.mod a x y) s) :
    Advances (.mod a x y) (exec (.mod a x y) s) := by
  rcases h with hp | ⟨hp, hu | ⟨hu, hchk, ht⟩⟩ <;> simp only [exec, execMod, hp]
  · exact .next ⟨rfl, .inl rfl⟩
  · simp only [hu]
    cases hchk : writeCheck s a with
    | some c => exact .faulted rfl
    | none =>
      refine .readHalf (writeCheck_none.mp hchk).2 fun _ => ⟨hp, .inr ⟨?_, ?_, rfl⟩⟩
      · simp [hu]
      · exact (writeCheck_congr (s := s) rfl rfl rfl rfl a).trans hchk
  · simp only [hu]
    exact .writeHalf ht fun _ => .ended rfl

/-- What `portInitAt` says at each micro-step, by its number. -/
def portInitFacts (s : State) (n : Nat) : Prop :=
  match n with
  | 0 => True
  | 1 => LatchedFrom s s.cfg.aClkOut
  | 2 => s.outClock = true
  | 3 => s.outClock = true ∧ LatchedFrom s s.cfg.aModerOut
  | _ => False

theorem portInitAt_iff {n : Nat} (h : s.upc.toNat = n) : portInitAt s ↔ portInitFacts s n := by
  subst h; rfl

/-- What `adcInitAt` says at each micro-step, by its number. -/
def adcInitFacts (s : State) (n : Nat) : Prop :=
  match n with
  | 0 => True
  | 1 => LatchedFrom s s.cfg.aClkAn
  | 2 => s.anClock = true
  | 3 => s.anClock = true ∧ LatchedFrom s s.cfg.aClkAdc
  | 4 => s.anClock = true ∧ s.adcClock = true
  | 5 => s.anClock = true ∧ s.adcClock = true ∧ LatchedFrom s s.cfg.aModerAn
  | 6 => s.adcClock = true
  | 7 => s.adcClock = true ∧ LatchedFrom s s.cfg.aSqr
  | 8 => s.adcClock = true
  | 9 => s.adcClock = true ∧ LatchedFrom s s.cfg.aCr
  | _ => False

theorem adcInitAt_iff {n : Nat} (h : s.upc.toNat = n) : adcInitAt s ↔ adcInitFacts s n := by
  subst h; rfl

/-- A write half that sets a bit of a clock-enable register leaves it set (R120, R140). -/
theorem clockBit_afterWrite_set (hd : DeviceOk s) {n : Nat} (hn : n < 32) (ha : a ∈ s.cfg.clockAddresses) :
    ((afterWrite a (merge w (bit n) 0#32) s).reg a).getLsbD n = true :=
  afterWrite_getLsbD hd.regs.1 (fun h => absurd h (hd.config.clock_ne ha (by simp))) (fun _ => getLsbD_merge_bit hn)
    fun h => absurd rfl h

/-- A set bit of a clock-enable register stays set under a write to a peripheral (W2). -/
theorem clockBit_afterWrite_peripheral (hd : DeviceOk s) {b : Word} {n : Nat} (hb : b ∈ s.cfg.clockAddresses)
    (ha : a ∈ s.cfg.peripheralAddresses) (h : (s.reg b).getLsbD n = true) :
    ((afterWrite a v s).reg b).getLsbD n = true :=
  afterWrite_getLsbD hd.regs.1 (fun h => absurd h (hd.config.clock_ne hb (by simp)))
    (fun h => absurd h.symm (hd.config.clock_ne hb ha)) fun _ => h

/-- A set bit of a clock-enable register stays set under a merge that sets bits of any clock-enable register. -/
theorem clockBit_afterWrite_merge (hd : DeviceOk s) {b x : Word} {n : Nat} (hb : b ∈ s.cfg.clockAddresses)
    (h : (s.reg b).getLsbD n = true) : ((afterWrite a (merge (s.reg a) x 0#32) s).reg b).getLsbD n = true :=
  afterWrite_getLsbD hd.regs.1 (fun h => absurd h (hd.config.clock_ne hb (by simp)))
    (fun hab => getLsbD_merge_set (hab ▸ h)) fun _ => h

theorem afterWrite_outClock (a v : Word) (s : State) :
    (afterWrite a v s).outClock = ((afterWrite a v s).reg s.cfg.aClkOut).getLsbD s.cfg.bClkOut := by
  rw [State.outClock, afterWrite_cfg]

theorem afterWrite_anClock (a v : Word) (s : State) :
    (afterWrite a v s).anClock = ((afterWrite a v s).reg s.cfg.aClkAn).getLsbD s.cfg.bClkAn := by
  rw [State.anClock, afterWrite_cfg]

theorem afterWrite_adcClock (a v : Word) (s : State) :
    (afterWrite a v s).adcClock = ((afterWrite a v s).reg s.cfg.aClkAdc).getLsbD s.cfg.bClkAdc := by
  rw [State.adcClock, afterWrite_cfg]

/-- Counting up a micro-step leaves what the earlier ones established. -/
theorem portInit_nextMicro {m : Word} {n : Nat} (hp : u.phase = .exec) (hu : u.upc.toNat = n) (hn : n < 15)
    (hf : portInitFacts u (n + 1)) : microAt (.portInit m) (nextMicro u) :=
  ⟨hp, (portInitAt_iff (upc_succ hu hn)).mpr hf⟩

theorem adcInit_nextMicro {n : Nat} (hp : u.phase = .exec) (hu : u.upc.toNat = n) (hn : n < 15)
    (hf : adcInitFacts u (n + 1)) : microAt .adcInit (nextMicro u) :=
  .inl ⟨hp, (adcInitAt_iff (upc_succ hu hn)).mpr hf⟩

theorem portInit_advances {m : Word} (hd : DeviceOk s) (h : s.phase = .decode ∨ microAt (.portInit m) s) :
    Advances (.portInit m) (exec (.portInit m) s) := by
  have hclk : s.cfg.aClkOut ∈ s.cfg.clockAddresses := by simp
  rcases h with hp | ⟨hp, hat⟩ <;> simp only [exec, execPortInit, hp]
  · exact .next ⟨rfl, trivial⟩
  · obtain ⟨n, hu⟩ : ∃ n, s.upc.toNat = n := ⟨_, rfl⟩
    rw [portInitAt_iff hu] at hat
    match n, hat with
    | 0, _ =>
      simp only [hu]
      exact .readHalf (Cfg.WF.clock_plain hd.config hclk) fun _ =>
        portInit_nextMicro hp hu (by decide) rfl
    | 1, ht =>
      simp only [hu]
      exact .writeHalf ht fun _ => .next (portInit_nextMicro (n := 1) (by simpa using hp) (by simpa using hu)
        (by decide) ((afterWrite_outClock ..).trans (clockBit_afterWrite_set hd hd.config.bits_lt.1 hclk)))
    | 2, hc =>
      simp only [hu]
      exact .readHalf (Cfg.WF.port_plain hd.config (by simp)) fun _ =>
        portInit_nextMicro hp hu (by decide) ⟨hc, rfl⟩
    | 3, ⟨_, ht⟩ =>
      simp only [hu]
      exact .writeHalf ht fun _ => .ended rfl

/-- Where `ADC_INIT` writes ADON it ends, or waits with the converter clocked and ADON set (R140, R145). -/
theorem beginStab_advances (hclk : u.adcClock = true) (hon : u.adon = true) :
    Advances .adcInit (.next (beginStab u)) := by
  unfold beginStab
  split
  · exact .ended (by rw [endStab_eq])
  · rename_i hn
    exact .next (.inr ⟨rfl, Nat.one_le_iff_ne_zero.mpr hn, Nat.le_refl _, hclk, hon⟩)

/-- A wait step counts down or ends `ADC_INIT` (R145, R146). -/
theorem stabTick_advances (h1 : 1 ≤ s.cnt) (hle : s.cnt ≤ s.cfg.stabCount) (hp : s.phase = .stabWait)
    (hclk : s.adcClock = true) (hon : s.adon = true) : Advances .adcInit (stabTick s) := by
  obtain ⟨n, hn⟩ : ∃ n, s.cnt = n + 1 := ⟨s.cnt - 1, by omega⟩
  simp only [stabTick, hn]
  split
  · exact .ended (by rw [endStab_eq])
  · rename_i hne
    refine .next (.inr ⟨hp, Nat.one_le_iff_ne_zero.mpr hne, ?_, hclk, hon⟩)
    show n ≤ s.cfg.stabCount
    omega

/-- The register steps of `ADC_INIT` that are reads (R140). -/
theorem adcInit_read {n : Nat} (hp : s.phase = .exec) (hu : s.upc.toNat = n) (hn : n < 15)
    (ha : a ≠ s.cfg.aSr ∧ a ≠ s.cfg.aDr)
    (hf : s.clocked a = true → adcInitFacts (latchT (s.reg a) (s.log (.busRd a (s.reg a)))) (n + 1)) :
    Advances .adcInit (readHalf a s) :=
  .readHalf ha fun hc => adcInit_nextMicro hp hu hn (hf hc)

/-- The register steps of `ADC_INIT` that are writes, but for the last (R140). -/
theorem adcInit_write {n : Nat} {x y : Word} (hp : s.phase = .exec) (hu : s.upc.toNat = n) (hn : n < 15)
    (ht : LatchedFrom s a) (hf : adcInitFacts (afterWrite a (merge (s.reg a) x y) s) (n + 1)) :
    Advances .adcInit (writeHalf a x y s nextMicro) :=
  .writeHalf ht fun _ => .next (adcInit_nextMicro (by simpa using hp) (by simpa using hu) hn hf)

theorem adcInit_advances (hd : DeviceOk s) (h : s.phase = .decode ∨ microAt .adcInit s) :
    Advances .adcInit (exec .adcInit s) := by
  have hwf := hd.config
  have han : s.cfg.aClkAn ∈ s.cfg.clockAddresses := by simp
  have hadc : s.cfg.aClkAdc ∈ s.cfg.clockAddresses := by simp
  have hmod : s.cfg.aModerAn ≠ s.cfg.aSr ∧ s.cfg.aModerAn ≠ s.cfg.aDr := Cfg.WF.port_plain hwf (by simp)
  obtain ⟨hsqcr, hsqsr, hsqdr, hcrsr, hcrdr, -⟩ := hwf.converter_nodup
  obtain ⟨-, hbAn, hbAdc, hbAdon, -, -⟩ := hwf.bits_lt
  rcases h with hp | ⟨hp, hat⟩ | ⟨hp, h1, hle, hclk, hon⟩
  · simp only [exec, execAdcInit, hp]
    exact .next (.inl ⟨rfl, trivial⟩)
  · simp only [exec, execAdcInit, hp]
    obtain ⟨n, hu⟩ : ∃ n, s.upc.toNat = n := ⟨_, rfl⟩
    rw [adcInitAt_iff hu] at hat
    match n, hat with
    | 0, _ =>
      simp only [hu]
      exact adcInit_read hp hu (by decide) (Cfg.WF.clock_plain hwf han) fun _ => rfl
    | 1, ht =>
      simp only [hu]
      exact adcInit_write hp hu (by decide) ht
        ((afterWrite_anClock ..).trans (clockBit_afterWrite_set hd hbAn han))
    | 2, hAn =>
      simp only [hu]
      exact adcInit_read hp hu (by decide) (Cfg.WF.clock_plain hwf hadc) fun _ => ⟨hAn, rfl⟩
    | 3, ⟨hAn, ht⟩ =>
      simp only [hu]
      exact adcInit_write hp hu (by decide) ht
        ⟨(afterWrite_anClock ..).trans (clockBit_afterWrite_merge hd han hAn),
          (afterWrite_adcClock ..).trans (clockBit_afterWrite_set hd hbAdc hadc)⟩
    | 4, ⟨hAn, hAdc⟩ =>
      simp only [hu]
      exact adcInit_read hp hu (by decide) hmod fun _ => ⟨hAn, hAdc, rfl⟩
    | 5, ⟨_, hAdc, ht⟩ =>
      simp only [hu]
      exact adcInit_write hp hu (by decide) ht
        ((afterWrite_adcClock ..).trans (clockBit_afterWrite_peripheral hd hadc (by simp) hAdc))
    | 6, hAdc =>
      simp only [hu]
      exact adcInit_read hp hu (by decide) ⟨hsqsr, hsqdr⟩ fun _ => ⟨hAdc, rfl⟩
    | 7, ⟨hAdc, ht⟩ =>
      simp only [hu]
      exact adcInit_write hp hu (by decide) ht
        ((afterWrite_adcClock ..).trans (clockBit_afterWrite_peripheral hd hadc (by simp) hAdc))
    | 8, hAdc =>
      simp only [hu]
      exact adcInit_read hp hu (by decide) ⟨hcrsr, hcrdr⟩ fun _ => ⟨hAdc, rfl⟩
    | 9, ⟨hAdc, ht⟩ =>
      simp only [hu]
      refine .writeHalf ht fun _ => beginStab_advances
        ((afterWrite_adcClock ..).trans (clockBit_afterWrite_peripheral hd hadc (by simp) hAdc)) ?_
      rw [State.adon, afterWrite_cfg]
      exact afterWrite_getLsbD hd.regs.1 (fun _ => hwf.w6.2.1) (fun _ => getLsbD_merge_bit hbAdon) fun h => absurd rfl h
  · simp only [exec, execAdcInit, hp]
    exact stabTick_advances h1 hle hp hclk hon

/-- A poll leaves `ADC_READ` polling with polls left, at `DONE` with EOC set, or ended (R151, R152). -/
theorem afterPoll_advances (hp : u.phase = .converting) (hclk : u.adcClock = true)
    (hv : v.getLsbD u.cfg.bEoc = u.eoc) (hcnt : ∀ n, u.cfg.pollLimit = .bounded n → u.cnt < n) :
    Advances .adcRead (.next (afterPoll v u)) := by
  rcases afterPoll_cases v u with ⟨he, h⟩ | ⟨-, -, h⟩ | ⟨n, -, -, -, h⟩ | ⟨n, -, hn, hne, h⟩ <;> rw [h]
  · exact .next (.inr (.inr ⟨rfl, hclk, hv.symm.trans he⟩))
  · exact .next (.inr (.inl ⟨hp, hclk, hcnt⟩))
  · exact .ended rfl
  · refine .next (.inr (.inl ⟨hp, hclk, fun m hm => ?_⟩))
    have hlt := hcnt m hm
    obtain rfl : n = m := PollLimit.bounded.inj (hn.symm.trans hm)
    show u.cnt + 1 < n
    omega

theorem adcRead_advances (hd : DeviceOk s) (h : s.phase = .decode ∨ microAt .adcRead s) :
    Advances .adcRead (exec .adcRead s) := by
  have hwf := hd.config
  obtain ⟨-, -, -, hcrsr, hcrdr, hsrdr⟩ := hwf.converter_nodup
  rcases h with hp | ⟨hp, hu | ⟨hu, hclk, ht⟩⟩ | ⟨hp, hclk, hcnt⟩ | ⟨hp, -, -⟩ <;>
    simp only [exec, execAdcRead, hp]
  · exact .next (.inl ⟨rfl, .inl rfl⟩)
  · simp only [hu]
    refine .readHalf ⟨hcrsr, hcrdr⟩ fun hc => .inl ⟨hp, .inr ⟨by simp [hu], ?_, rfl⟩⟩
    exact (clocked_converter hwf (by simp)).symm.trans hc
  · simp only [hu]
    refine .writeHalf ht fun _ => .next (.inr (.inl ⟨rfl, ?_, fun n hn => ?_⟩))
    · exact (afterWrite_adcClock ..).trans (clockBit_afterWrite_peripheral hd (by simp) (by simp) hclk)
    · have h9 := hwf.w9
      rw [startPolling_cfg, afterWrite_cfg] at hn
      simp only [Cfg.W9, hn] at h9
      exact h9
  · refine .onRead fun _ => afterPoll_advances (by simpa using hp) ?_ ?_ (by simpa using hcnt)
    · simpa [State.adcClock, State.reg] using hclk
    · rw [afterRead_cfg, readValue_eoc hwf, afterRead_eoc hwf, if_neg hsrdr]
  · exact .onRead fun _ => .ended rfl

theorem pinSet_advances {pin : BitVec 4} {level : Bool} (hd : DeviceOk s)
    (h : s.phase = .decode ∨ microAt (.pinSet pin level) s) :
    Advances (.pinSet pin level) (exec (.pinSet pin level) s) := by
  rcases h with hp | ⟨hp, hu | ⟨hu, hclk, ht⟩⟩ <;> simp only [exec, execPinSet, hp]
  · exact .next ⟨rfl, .inl rfl⟩
  · simp only [hu]
    refine .readHalf (Cfg.WF.port_plain hd.config (by simp)) fun hc => ⟨hp, .inr ⟨by simp [hu], ?_, rfl⟩⟩
    exact (clocked_port hd.config (.inr rfl)).symm.trans hc
  · simp only [hu]
    cases level <;> exact .writeHalf ht fun _ => .ended rfl

/-- A command not yet decoded, or at one of its micro-operations, goes on to the next or ends (R21, R27). -/
theorem exec_advances (hd : DeviceOk s) (h : s.phase = .decode ∨ microAt i s) : Advances i (exec i s) := by
  cases i with
  | rd a => exact rd_advances h
  | wr a v => exact wr_advances h
  | mod a x y => exact mod_advances h
  | portInit m => exact portInit_advances hd h
  | pinSet pin level => exact pinSet_advances hd h
  | adcInit => exact adcInit_advances hd h
  | adcRead => exact adcRead_advances hd h

/-! ### Every turn keeps the invariant, and has a next state -/

/-- What a command's progress rests on: the latched words, the sequencer's own registers, and every register but the
data register, which only the converter writes (R160). -/
structure SameProgress (s t : State) : Prop where
  cfg : t.cfg = s.cfg
  phase : t.phase = s.phase
  upc : t.upc = s.upc
  cnt : t.cnt = s.cnt
  latched : latched t = latched s
  latch : t.t = s.t
  reg : ∀ b, b ≠ s.cfg.aDr → t.reg b = s.reg b
  eoc : s.eoc = true → t.eoc = true

theorem SameProgress.clocks (h : SameProgress s t) (hwf : s.cfg.WF) :
    t.outClock = s.outClock ∧ t.anClock = s.anClock ∧ t.adcClock = s.adcClock := by
  have hne : ∀ a ∈ s.cfg.clockAddresses, a ≠ s.cfg.aDr := fun a ha => hwf.clock_ne ha (by simp)
  simp only [State.outClock, State.anClock, State.adcClock, h.cfg]
  exact ⟨by rw [h.reg _ (hne _ (by simp))], by rw [h.reg _ (hne _ (by simp))], by rw [h.reg _ (hne _ (by simp))]⟩

theorem SameProgress.latchedFrom (h : SameProgress s t) (ha : a ≠ s.cfg.aDr) (hl : LatchedFrom s a) :
    LatchedFrom t a := by
  rw [LatchedFrom, h.latch, h.reg a ha]
  exact hl

/-- The same for a register named by the configuration. -/
theorem SameProgress.latchedAt (h : SameProgress s t) (f : Cfg → Word) (ha : f s.cfg ≠ s.cfg.aDr)
    (hl : LatchedFrom s (f s.cfg)) : LatchedFrom t (f t.cfg) :=
  h.cfg ▸ h.latchedFrom ha hl

theorem SameProgress.portInitFacts (h : SameProgress s t) (hwf : s.cfg.WF) {n : Nat} (hf : portInitFacts s n) :
    portInitFacts t n := by
  obtain ⟨hout, -, -⟩ := h.clocks hwf
  match n, hf with
  | 0, _ => trivial
  | 1, ht => exact h.latchedAt Cfg.aClkOut (hwf.clock_ne (by simp) (by simp)) ht
  | 2, hc => exact hout.trans hc
  | 3, ⟨hc, ht⟩ => exact ⟨hout.trans hc, h.latchedAt Cfg.aModerOut (Cfg.WF.port_plain hwf (by simp)).2 ht⟩

theorem SameProgress.adcInitFacts (h : SameProgress s t) (hwf : s.cfg.WF) {n : Nat} (hf : adcInitFacts s n) :
    adcInitFacts t n := by
  obtain ⟨-, han, hadc⟩ := h.clocks hwf
  obtain ⟨-, -, hsq, -, hcr, -⟩ := hwf.converter_nodup
  match n, hf with
  | 0, _ => trivial
  | 1, ht => exact h.latchedAt Cfg.aClkAn (hwf.clock_ne (by simp) (by simp)) ht
  | 2, hA => exact han.trans hA
  | 3, ⟨hA, ht⟩ => exact ⟨han.trans hA, h.latchedAt Cfg.aClkAdc (hwf.clock_ne (by simp) (by simp)) ht⟩
  | 4, ⟨hA, hC⟩ => exact ⟨han.trans hA, hadc.trans hC⟩
  | 5, ⟨hA, hC, ht⟩ =>
    exact ⟨han.trans hA, hadc.trans hC, h.latchedAt Cfg.aModerAn (Cfg.WF.port_plain hwf (by simp)).2 ht⟩
  | 6, hC => exact hadc.trans hC
  | 7, ⟨hC, ht⟩ => exact ⟨hadc.trans hC, h.latchedAt Cfg.aSqr hsq ht⟩
  | 8, hC => exact hadc.trans hC
  | 9, ⟨hC, ht⟩ => exact ⟨hadc.trans hC, h.latchedAt Cfg.aCr hcr ht⟩

/-- What keeps a command's progress keeps it at its micro-operation. -/
theorem SameProgress.microAt (h : SameProgress s t) (hwf : s.cfg.WF) (hm : microAt i s) : microAt i t := by
  obtain ⟨hout, -, hadc⟩ := h.clocks hwf
  have hclk : ∀ {b}, b ∈ s.cfg.clockAddresses → t.reg b = s.reg b := fun hb => h.reg _ (hwf.clock_ne hb (by simp))
  obtain ⟨-, -, -, -, hcr, -⟩ := hwf.converter_nodup
  have hp := h.phase
  have hu := h.upc
  cases i with
  | rd a =>
    obtain ⟨hp', hu'⟩ := hm
    exact ⟨hp.trans hp', hu.trans hu'⟩
  | wr a v =>
    obtain ⟨hp', hu'⟩ := hm
    exact ⟨hp.trans hp', hu.trans hu'⟩
  | mod a x y =>
    obtain ⟨hp', hu' | ⟨hu', hc, ht⟩⟩ := hm
    · exact ⟨hp.trans hp', .inl (hu.trans hu')⟩
    · have hchk : writeCheck t a = writeCheck s a :=
        writeCheck_congr h.cfg (hclk (by simp)) (hclk (by simp)) (hclk (by simp)) a
      exact ⟨hp.trans hp', .inr ⟨hu.trans hu', hchk.trans hc, h.latchedFrom (writeCheck_none.mp hc).2.2 ht⟩⟩
  | portInit m =>
    obtain ⟨hp', hat⟩ := hm
    exact ⟨hp.trans hp', (portInitAt_iff (hu ▸ rfl)).mpr (h.portInitFacts hwf ((portInitAt_iff rfl).mp hat))⟩
  | pinSet pin level =>
    obtain ⟨hp', hu' | ⟨hu', hc, ht⟩⟩ := hm
    · exact ⟨hp.trans hp', .inl (hu.trans hu')⟩
    · exact ⟨hp.trans hp', .inr ⟨hu.trans hu', hout.trans hc,
        h.latchedAt Cfg.aOdrOut (Cfg.WF.port_plain hwf (by simp)).2 ht⟩⟩
  | adcInit =>
    rcases hm with ⟨hp', hat⟩ | ⟨hp', h1, hle, hc, hon⟩
    · exact .inl ⟨hp.trans hp', (adcInitAt_iff (hu ▸ rfl)).mpr (h.adcInitFacts hwf ((adcInitAt_iff rfl).mp hat))⟩
    · refine .inr ⟨hp.trans hp', h.cnt ▸ h1, ?_, hadc.trans hc, ?_⟩
      · rwa [h.cnt, h.cfg]
      · rwa [State.adon, h.cfg, h.reg _ hcr]
  | adcRead =>
    rcases hm with ⟨hp', hu' | ⟨hu', hc, ht⟩⟩ | ⟨hp', hc, hn⟩ | ⟨hp', hc, he⟩
    · exact .inl ⟨hp.trans hp', .inl (hu.trans hu')⟩
    · exact .inl ⟨hp.trans hp', .inr ⟨hu.trans hu', hadc.trans hc, h.latchedAt Cfg.aCr hcr ht⟩⟩
    · exact .inr (.inl ⟨hp.trans hp', hadc.trans hc, by rwa [h.cfg, h.cnt]⟩)
    · exact .inr (.inr ⟨hp.trans hp', hadc.trans hc, h.eoc he⟩)

theorem SameProgress.sequencerOk (h : SameProgress s t) (hwf : s.cfg.WF) (hs : SequencerOk s) : SequencerOk t := by
  intro hb
  obtain ⟨w, hw, hp⟩ := hs (by simpa [State.busy, h.phase] using hb)
  refine ⟨w, h.latched.trans hw, ?_⟩
  rcases hp with hp | ⟨i, hi, hm⟩
  · exact .inl (h.phase.trans hp)
  · exact .inr ⟨i, hi, h.microAt hwf hm⟩

/-- A turn that leaves a command's progress alone keeps the invariant if it keeps the rest of it. -/
theorem Inv.of_progress (h : Inv s) (hp : SameProgress s t) (hd : DeviceOk t) (hr : ResponseOk t)
    (hf : FaultRegsOk t) : Inv t :=
  ⟨hd.config, hd.regs, hd.trigger, hd.data, hd.conv, hd.settled, hr, hf, hp.sequencerOk h.config h.sequencer⟩

/-- The latched command is what the four latches hold. -/
theorem latched_congr (h : SameCommand s t) : latched t = latched s := by
  obtain ⟨-, h1, h2, h3, h4, -⟩ := h
  rw [latched, latched, h1, h2, h3, h4]

/-- Using up a turn touches the order of turns alone (log 5). -/
theorem Inv.nextTurn (h : Inv s) : Inv (nextTurn s).2 := by
  obtain ⟨l, k, e⟩ : ∃ l k, (Machine.nextTurn s).2 = s.withOrder l k := by
    unfold Machine.nextTurn
    split
    · exact ⟨_, s.turns, rfl⟩
    · exact ⟨s.schedule, _, rfl⟩
  rw [e]
  exact h.of_progress ⟨rfl, rfl, rfl, rfl, rfl, rfl, fun _ _ => rfl, id⟩ (h.deviceOk.of_eq rfl rfl rfl rfl)
    h.response h.faultRegs

/-- Outside `FAULT` the fault registers hold nothing (R26). -/
theorem FaultRegsOk.clear (h : FaultRegsOk s) (hp : s.phase ≠ .fault) : s.fcause = none ∧ s.finfo = 0#32 := by
  have hfc : s.fcause = none := by
    by_contra hne
    exact hp (h.1.mpr hne)
  exact ⟨hfc, h.2 hfc⟩

theorem hostIssue_inv (h : Inv s) (w : CommandWords) : Inv (hostIssue w s) := by
  unfold hostIssue
  split
  · rename_i hr
    obtain ⟨hp, hrsp⟩ : s.phase = .idle ∧ s.rsp = none := by simpa [State.ready] using hr
    have hd : DeviceOk (latchCommand w (s.log (.issue w.cmd w.addr w.a w.b))) := h.deviceOk.of_eq rfl rfl rfl rfl
    have hfc := h.faultRegs.clear (by simp [hp])
    refine ⟨hd.config, hd.regs, hd.trigger, hd.data, hd.conv, hd.settled, ?_, ?_, ?_⟩
    · simp [ResponseOk, hrsp]
    · simp [FaultRegsOk, hfc]
    · exact fun _ => ⟨w, rfl, .inl rfl⟩
  · exact h

theorem hostTake_inv (h : Inv s) : Inv (hostTake s) :=
  h.of_progress ⟨rfl, rfl, rfl, rfl, rfl, rfl, fun _ _ => rfl, id⟩ (h.deviceOk.of_eq rfl rfl rfl rfl) trivial
    h.faultRegs

/-- A state in `IDLE` with empty fault registers and response slot and a converter at rest is one of the invariant
if its registers are. -/
theorem inv_of_rest (hwf : s.cfg.WF) (hregs : RegsOk s) (htrig : TriggerClear s) (hdata : DataInRange s)
    (hconv : s.conv = .idle) (hset : s.settled = false) (hrsp : s.rsp = none) (hp : s.phase = .idle)
    (hfc : s.fcause = none) (hfi : s.finfo = 0#32) : Inv s where
  config := hwf
  regs := hregs
  trigger := htrig
  data := hdata
  conv := by simp [ConvOk, hconv]
  settled := by simp [SettledOk, hset]
  response := by simp [ResponseOk, hrsp]
  faultRegs := by simp [FaultRegsOk, hp, hfc, hfi]
  sequencer := fun hb => absurd hb (not_busy_idle hp)

/-- After the host's reset START of `A_CR` is 0 (R44). -/
theorem hostReset_triggerClear (s : State) (hwf : s.cfg.WF) : TriggerClear (hostReset s) := by
  obtain ⟨-, -, -, hcrsr, -⟩ := hwf.converter_nodup
  rw [TriggerClear, hostReset_cfg, hostReset_reg s (by simp [mapped]), resetWord, if_neg hcrsr, if_pos rfl,
    getLsbD_and_not_bit]
  simp

/-- After the host's reset bits 31:12 of `A_DR` are 0 (R44). -/
theorem hostReset_dataInRange (s : State) (hwf : s.cfg.WF) : DataInRange (hostReset s) := by
  obtain ⟨-, -, -, -, hcrdr, hsrdr⟩ := hwf.converter_nodup
  rw [DataInRange, hostReset_cfg, hostReset_reg s (by simp [mapped]), resetWord, if_neg hsrdr.symm, if_neg hcrdr.symm,
    if_pos rfl, BitVec.toNat_and]
  exact Nat.lt_of_le_of_lt Nat.and_le_right (by decide)

/-- The registers after the host's reset are mapped ones, and `A_SR` stores no word (R29, R39). -/
theorem hostReset_regsOk (s : State) : RegsOk (hostReset s) := by
  have hwf := hostReset_regs_wf s
  refine ⟨hwf, fun p hp => ?_⟩
  have hread : (hostReset s).regs.read p.1 = p.2 := Memory.read_mem hwf hp
  have hmem := hp
  rw [hostReset_regs, resetRegs] at hmem
  rcases Memory.mem_foldl_write _ _ _ p hmem with h | ⟨a, ha, hap⟩
  · cases h
  · refine ⟨a, ha, fun hsr => hwf.2 p hp ?_, hap⟩
    rw [← hread, ← hap, ← State.reg_def, hostReset_reg s ha]
    exact if_pos hsr

theorem hostReset_inv (s : State) (hwf : s.cfg.WF) : Inv (hostReset s) :=
  inv_of_rest hwf (hostReset_regsOk s) (hostReset_triggerClear s hwf) (hostReset_dataInRange s hwf) rfl rfl rfl rfl
    rfl rfl

/-- After a word of 12 bits in the data register and the end of the conversion, the device part holds (R40, R160). -/
theorem DeviceOk.complete (h : DeviceOk s) (hv : v.toNat < 4096) (hc : t.cfg = s.cfg)
    (hregs : t.regs = (s.setReg s.cfg.aDr v).regs) (hconv : t.conv = .idle) (hset : t.settled = s.settled) :
    DeviceOk t := by
  obtain ⟨-, -, -, -, hcrdr, hsrdr⟩ := h.config.converter_nodup
  have hclk : s.cfg.aDr ≠ s.cfg.aClkAdc := (h.config.clock_ne (by simp) (by simp)).symm
  have hreg : ∀ b, t.reg b = if s.cfg.aDr = b then v else s.reg b := fun b => by
    rw [State.reg, hregs, ← State.reg, reg_setReg h.regs.1]
  have hcr : t.reg s.cfg.aCr = s.reg s.cfg.aCr := by rw [hreg, if_neg hcrdr.symm]
  refine ⟨hc ▸ h.config, ?_, ?_, ?_, by simp [ConvOk, hconv], ?_⟩
  · have hok := RegsOk.setReg (v := v) h.regs (a := s.cfg.aDr) (by simp [mapped]) hsrdr.symm
    simpa only [RegsOk, hc, hregs, State.setReg_cfg] using hok
  · simpa only [TriggerClear, hc, hcr] using h.trigger
  · simpa only [DataInRange, hc, hreg, if_true] using hv
  · rw [SettledOk, State.adcClock, State.adon, hc, hcr, hreg, if_neg hclk, hset]
    exact h.settled

/-- A conversion's completion changes the data register and the converter alone, and sets EOC (R160). -/
theorem converterStep_inv (h : Inv s) : Inv (converterStep s) := by
  unfold converterStep
  split
  · exact h
  · rename_i ch tr hconv
    have hlt : ((Config.sampleDraw s.draws).zeroExtend 32).toNat < 4096 := by
      rw [BitVec.toNat_setWidth]
      exact Nat.lt_of_le_of_lt (Nat.mod_le _ _) (BitVec.isLt _)
    have hreg : ∀ b, b ≠ s.cfg.aDr → (s.setReg s.cfg.aDr ((Config.sampleDraw s.draws).zeroExtend 32)).reg b = s.reg b :=
      fun b hb => (reg_setReg h.regs.1 ..).trans (if_neg hb.symm)
    exact h.of_progress ⟨rfl, rfl, rfl, rfl, rfl, rfl, hreg, fun _ => rfl⟩
      (h.deviceOk.complete hlt rfl rfl rfl rfl) h.response h.faultRegs

/-- In a busy state of the invariant the response slot and the fault registers are empty (R25, R26). -/
theorem Inv.busy_clear (h : Inv s) (hb : s.busy = true) : s.rsp = none ∧ s.fcause = none ∧ s.finfo = 0#32 := by
  obtain ⟨hidle, hfault⟩ : s.phase ≠ .idle ∧ s.phase ≠ .fault := by simpa [State.busy] using hb
  refine ⟨?_, h.faultRegs.clear hfault⟩
  have hr := h.response
  unfold ResponseOk at hr
  split at hr
  · assumption
  · exact absurd hr.1 hidle

/-- While the sequencer waits, the converter's clock is on (R145). -/
theorem microAt_stabWait (h : s.phase = .decode ∨ microAt i s) (hp : s.phase = .stabWait) : s.adcClock = true := by
  rcases h with h | h
  · rw [hp] at h; cases h
  cases i with
  | rd a | wr a v | mod a x y | portInit m | pinSet pin level => exact absurd (hp.symm.trans h.1) nofun
  | adcInit =>
    rcases h with ⟨h, -⟩ | ⟨-, -, -, hclk, -⟩
    · exact absurd (hp.symm.trans h) nofun
    · exact hclk
  | adcRead =>
    rcases h with ⟨h, -⟩ | ⟨h, -⟩ | ⟨h, -⟩ <;> exact absurd (hp.symm.trans h) nofun

/-- A micro-operation of the latched command keeps the invariant, and has a next state. -/
theorem exec_inv {c : CommandWords} (h : Inv s) (hb : s.busy = true) (hl : latched s = some c) (hi : decode c = .ok i)
    (hm : s.phase = .decode ∨ microAt i s) : ∃ t, exec i s = .next t ∧ Inv t := by
  obtain ⟨t, ht, hat⟩ := exec_advances h.deviceOk hm
  obtain ⟨hrsp, hfc, hfi⟩ := h.busy_clear hb
  have hmic : Micro i s t := exec_micro ht
  have hd := hmic.deviceOk h.deviceOk (microAt_stabWait hm)
  exact ⟨t, ht, hd.config, hd.regs, hd.trigger, hd.data, hd.conv, hd.settled, hmic.responseOk hrsp,
    hmic.faultRegsOk hfc hfi, fun hbt => ⟨c, (latched_congr hmic.sameCommand).trans hl, .inr ⟨i, hi, hat hbt⟩⟩⟩

theorem takeFault_inv {c : Cause} (h : Inv s) (hb : s.busy = true) : Inv (takeFault c w s) := by
  obtain ⟨hrsp, -, -⟩ := h.busy_clear hb
  have hd : DeviceOk (takeFault c w s) := h.deviceOk.of_eq rfl rfl rfl rfl
  exact ⟨hd.config, hd.regs, hd.trigger, hd.data, hd.conv, hd.settled, by simp [ResponseOk, hrsp],
    by simp [FaultRegsOk], fun hbt => absurd hbt (not_busy_fault rfl)⟩

/-- From a state of the invariant the sequencer's turn leads to one. -/
theorem sequencerStep_inv (h : Inv s) : ∃ t, sequencerStep s = .next t ∧ Inv t := by
  unfold sequencerStep
  split
  · rename_i hb
    obtain ⟨c, hl, hm⟩ := h.sequencer hb
    simp only [hl]
    cases hi : decode c with
    | ok i =>
      refine exec_inv h hb hl hi ?_
      rcases hm with hp | ⟨j, hj, hat⟩
      · exact .inl hp
      · obtain rfl : i = j := Except.ok.inj (hi.symm.trans hj)
        exact .inr hat
    | error e =>
      have hp : s.phase = .decode := hm.resolve_right fun ⟨j, hj, _⟩ => nomatch hi.symm.trans hj
      exact ⟨_, if_pos hp, takeFault_inv h hb⟩
  · exact ⟨s, rfl, h⟩

/-- From a state of the invariant every turn of every agent leads to one (R12, R189). -/
theorem act_inv (h : Inv s) (turn : Turn) : ∃ t, act turn s = .next t ∧ Inv t := by
  cases turn with
  | issue c a x y => exact ⟨_, rfl, hostIssue_inv h _⟩
  | take => exact ⟨_, rfl, hostTake_inv h⟩
  | reset => exact ⟨_, rfl, hostReset_inv s h.config⟩
  | sequencer => exact sequencerStep_inv h
  | converter => exact ⟨_, rfl, converterStep_inv h⟩

/-- Settles O59: the next turn is one agent's, and each agent's turn keeps the invariant. -/
theorem stepKeepsInvariant : Obligations.StepKeepsInvariant := by
  intro s t h ht
  obtain ⟨u, hu, hinv⟩ := act_inv h.nextTurn (nextTurn s).1
  obtain rfl : u = t := Host.Outcome.next.inj (hu.symm.trans ht)
  exact hinv

/-- Settles O60: an agent's turn in a state of the invariant answers a next state. -/
theorem invariantNeverStuck : Obligations.InvariantNeverStuck := by
  intro s h
  obtain ⟨t, ht, -⟩ := act_inv h.nextTurn (nextTurn s).1
  exact ⟨t, ht⟩

/-- Settles O58: at reset the registers are empty and the sequencer and converter rest. -/
theorem resetMeetsInvariant : Obligations.ResetMeetsInvariant := by
  have hreset : ∀ c : Cfg, c.WF → Inv (State.resetWith c) := fun c hwf =>
    inv_of_rest hwf ⟨Memory.wf_nil, nofun⟩ (by simp [TriggerClear, State.reg, State.resetWith])
      (by simp [DataInRange, State.reg, State.resetWith]) rfl rfl rfl rfl rfl rfl
  exact ⟨hreset _ Tests.test_exU_wellFormed, hreset⟩

/-! ### What a sequencer's turn did to the converter -/

/-- The state in which a write of `A_CR` has a start request judged: the word stored and recorded, and `SETTLED` cleared
if the write changed ADON (R156). -/
def controlWritten (v : Word) (s : State) : State :=
  unsettleIf (s.adon != v.getLsbD s.cfg.bAdon)
    ((s.setReg s.cfg.aCr (v &&& ~~~bit s.cfg.bStart)).log (.busWr s.cfg.aCr v))

@[simp] theorem controlWritten_cfg (v : Word) (s : State) : (controlWritten v s).cfg = s.cfg := unsettleIf_cfg ..
@[simp] theorem controlWritten_eoc (v : Word) (s : State) : (controlWritten v s).eoc = s.eoc := unsettleIf_eoc ..
@[simp] theorem controlWritten_trace (v : Word) (s : State) :
    (controlWritten v s).trace = s.trace ++ [.busWr s.cfg.aCr v] := unsettleIf_trace ..
@[simp] theorem controlWritten_settled (v : Word) (s : State) :
    (controlWritten v s).settled = (s.settled && (s.adon == v.getLsbD s.cfg.bAdon)) := by
  rw [controlWritten, unsettleIf_settled]
  cases s.adon <;> cases v.getLsbD s.cfg.bAdon <;> rfl

theorem controlWritten_reg (hr : s.regs.wf) (v b : Word) : (controlWritten v s).reg b =
    if s.cfg.aCr = b then v &&& ~~~bit s.cfg.bStart else s.reg b := by
  rw [← reg_setReg hr, State.reg, State.reg, controlWritten, unsettleIf_regs, State.log_regs]

/-- A start request is judged with ADON as the write left it (R157). -/
theorem controlWritten_adon (hwf : s.cfg.WF) (hr : s.regs.wf) (v : Word) :
    (controlWritten v s).adon = v.getLsbD s.cfg.bAdon := by
  rw [State.adon, controlWritten_cfg, controlWritten_reg hr, if_pos rfl, getLsbD_and_not_bit]
  simp [hwf.w6.2.1.symm]

/-- What a write that passed its checks does to EOC and the conversion: nothing, or it is an accepted start request
of an idle converter (R69, R156, R157, R159). -/
theorem afterWrite_quiet_or_starts (hwf : s.cfg.WF) (hf : writeFault s a v = none) :
    ((afterWrite a v s).eoc = s.eoc ∧ (afterWrite a v s).conv = s.conv) ∨
    (a = s.cfg.aCr ∧ v.getLsbD s.cfg.bStart = true ∧ s.conv = .idle ∧ (controlWritten v s).adon = true ∧
      afterWrite a v s = startRequest (controlWritten v s)) := by
  have hne : s.cfg.aCr ≠ s.cfg.aClkAdc := (hwf.clock_ne (by simp) (by simp)).symm
  by_cases ha : a = s.cfg.aCr
  · subst ha
    cases hst : v.getLsbD s.cfg.bStart with
    | false =>
      rw [afterWrite_control hne hst]
      exact .inl ⟨by simp, by simp⟩
    | true =>
      have he : afterWrite s.cfg.aCr v s = startRequest (controlWritten v s) := afterWrite_start hne hst
      cases hon : (controlWritten v s).adon with
      | false =>
        rw [he, startRequest_off hon]
        exact .inl ⟨by simp, unsettleIf_conv ..⟩
      | true =>
        have hd := (writeFault_none.mp hf).2
        exact .inr ⟨rfl, rfl, by simpa [State.disturbs, hst] using hd, rfl, he⟩
  · obtain ⟨h1, h2, -⟩ := afterWrite_quiet v ha
    exact .inl ⟨h1, h2⟩

/-- What a turn can do to EOC, the conversion and `SETTLED`: nothing, the host's reset, a conversion's completion, or a
micro-operation of the latched command (R33, R39, R160, R210). -/
theorem act_converter {turn : Turn} (h : act turn s = .next t) :
    (t.eoc = s.eoc ∧ t.conv = s.conv ∧ t.settled = s.settled) ∨
    (turn = .reset ∧ t = hostReset s) ∨
    (turn = .converter ∧ t.eoc = true ∧ t.conv = .idle ∧ t.settled = s.settled) ∨
    (turn = .sequencer ∧ ∃ c i, latched s = some c ∧ decode c = .ok i ∧ Micro i s t) := by
  cases turn with
  | issue c a x y =>
    obtain rfl := Host.Outcome.next.inj h
    unfold hostIssue
    split <;> exact .inl ⟨rfl, rfl, rfl⟩
  | take =>
    obtain rfl := Host.Outcome.next.inj h
    exact .inl ⟨rfl, rfl, rfl⟩
  | reset => exact .inr (.inl ⟨rfl, (Host.Outcome.next.inj h).symm⟩)
  | sequencer =>
    rcases sequencerStep_next h with ⟨-, rfl⟩ | ⟨-, -, rfl⟩ | ⟨-, c, -, rfl⟩ | ⟨c, i, hl, hi, hex⟩
    · exact .inl ⟨rfl, rfl, rfl⟩
    · exact .inl ⟨rfl, rfl, rfl⟩
    · exact .inl ⟨rfl, rfl, rfl⟩
    · exact .inr (.inr (.inr ⟨rfl, c, i, hl, hi, exec_micro hex⟩))
  | converter =>
    obtain rfl := Host.Outcome.next.inj h
    unfold converterStep
    split
    · exact .inl ⟨rfl, rfl, rfl⟩
    · exact .inr (.inr (.inl ⟨rfl, rfl, rfl, rfl⟩))

/-- `SETTLED` cleared by a write: the write changed ADON or left the converter's clock bit 0 (R33, R156). -/
theorem afterWrite_unsettles (hwf : s.cfg.WF) (hr : s.regs.wf) (hs : s.settled = true)
    (hu : (afterWrite a v s).settled = false) :
    (afterWrite a v s).adon ≠ s.adon ∨ (afterWrite a v s).adcClock = false := by
  have hne : s.cfg.aClkAdc ≠ s.cfg.aCr := hwf.clock_ne (by simp) (by simp)
  rw [afterWrite_settled, hs, Bool.true_and, Bool.and_eq_false_iff] at hu
  rcases hu with hadon | hclk
  · obtain ⟨rfl, hbit⟩ : a = s.cfg.aCr ∧ (s.reg a).getLsbD s.cfg.bAdon ≠ v.getLsbD s.cfg.bAdon := by
      simpa using hadon
    left
    rw [State.adon, afterWrite_cfg, afterWrite_reg hr, if_pos rfl, storedWord, if_pos rfl, getLsbD_and_not_bit]
    simpa [hwf.w6.2.1.symm, State.adon] using hbit.symm
  · obtain ⟨rfl, hbit⟩ : a = s.cfg.aClkAdc ∧ v.getLsbD s.cfg.bClkAdc = false := by simpa using hclk
    right
    rw [afterWrite_adcClock, afterWrite_reg hr, if_pos rfl, storedWord, if_neg hne, hbit]

/-- A bus access keeps `SETTLED`, or clears it by the rule (R33, R156). -/
theorem Access.settled (h : Access s u) (hwf : s.cfg.WF) (hr : s.regs.wf) :
    u.settled = s.settled ∨
    (s.settled = true ∧ u.settled = false ∧ (u.adon ≠ s.adon ∨ u.adcClock = false)) := by
  cases h with
  | skip h => exact .inl (h ▸ rfl)
  | read a _ h => exact .inl (h ▸ afterRead_settled a s)
  | write a v _ h =>
    subst h
    cases hs : s.settled with
    | false => exact .inl (by rw [afterWrite_settled, hs]; rfl)
    | true =>
      cases hu : (afterWrite a v s).settled with
      | true => exact .inl rfl
      | false => exact .inr ⟨rfl, rfl, afterWrite_unsettles hwf hr hs hu⟩

/-- `SETTLED` changes in a micro-operation by the end of `ADC_INIT`, which sets it, or by a write that clears it
(R33). -/
theorem Micro.settled_changes (h : Micro i s t) (hwf : s.cfg.WF) (hr : s.regs.wf) (hne : t.settled ≠ s.settled) :
    (t.settled = true ∧ t.adon = true ∧ t.rsp = some .ok ∧ i = .adcInit) ∨
    (t.settled = false ∧ (t.adon ≠ s.adon ∨ t.adcClock = false)) := by
  obtain ⟨u, hu, hf⟩ := h.finishes
  have hcfg : t.cfg = u.cfg := hf.command.1
  have hadon : t.adon = u.adon := by simp [State.adon, State.reg, hcfg, hf.regs]
  have hclk : t.adcClock = u.adcClock := by simp [State.adcClock, State.reg, hcfg, hf.regs]
  rw [hadon, hclk]
  rcases hu.settled hwf hr with hus | ⟨hs, hus, hcleared⟩
  · have he : EndsWait i s u t := hf.settled.resolve_left fun h => hne (h.trans hus)
    have hset := he.settled
    cases hon : u.adon with
    | false => exact absurd (by simpa [hon, hus] using hset) hne
    | true => exact .inl ⟨by simpa [hon] using hset, rfl, he.response, he.command⟩
  · refine .inr ⟨?_, hcleared⟩
    rwa [hs, ne_eq, Bool.not_eq_true] at hne

/-- Settles O55: the sequencer's turn is a micro-operation; of the others only reset touches `SETTLED`. -/
theorem settledChangesOnlyByRule : Obligations.SettledChangesOnlyByRule := by
  intro s t turn hwf hr h hne
  rcases act_converter h with ⟨-, -, hset⟩ | ⟨rfl, rfl⟩ | ⟨-, -, -, hset⟩ | ⟨rfl, c, i, hl, hi, hm⟩
  · exact absurd hset hne
  · exact .inr ⟨rfl, .inl rfl⟩
  · exact absurd hset hne
  · rcases hm.settled_changes hwf hr hne with ⟨hset, hon, hrsp, rfl⟩ | ⟨hset, hcleared⟩
    · exact .inl ⟨hset, rfl, hon, hrsp, c, hl, hi⟩
    · exact .inr ⟨hset, .inr ⟨rfl, hcleared⟩⟩

/-- What a micro-operation that changed EOC or the conversion did: it read the data register, or its write was an
accepted start request of an idle converter (R39, R66, R157). -/
theorem Micro.eoc_conv_changes (h : Micro i s t) (hwf : s.cfg.WF) (hne : t.eoc ≠ s.eoc ∨ t.conv ≠ s.conv) :
    (t.eoc = false ∧ t.conv = s.conv ∧ ∃ later, t.trace = s.trace ++ .busRd s.cfg.aDr (s.reg s.cfg.aDr) :: later) ∨
    ∃ v later, v.getLsbD s.cfg.bStart = true ∧ s.conv = .idle ∧ (controlWritten v s).adon = true ∧
      t.eoc = (startRequest (controlWritten v s)).eoc ∧ t.conv = (startRequest (controlWritten v s)).conv ∧
      t.regs = (controlWritten v s).regs ∧ t.cfg = s.cfg ∧
      t.trace = (startRequest (controlWritten v s)).trace ++ later := by
  obtain ⟨u, hu, hf⟩ := h.finishes
  obtain ⟨later, htr⟩ := hf.trace
  obtain ⟨-, -, -, -, -, hsrdr⟩ := hwf.converter_nodup
  rw [hf.eoc, hf.conv] at hne ⊢
  cases hu with
  | skip h => subst h; simp at hne
  | read a _ h =>
    subst h
    have hdr : a = s.cfg.aDr := by
      by_contra hdr
      simp [afterRead_eoc hwf, hdr] at hne
    subst hdr
    refine .inl ⟨by rw [afterRead_eoc hwf, if_pos rfl], by simp, later, ?_⟩
    rw [htr, afterRead_trace, readValue, if_neg hsrdr.symm, List.append_assoc]
    rfl
  | write a v hnf h =>
    subst h
    rcases afterWrite_quiet_or_starts hwf hnf with ⟨he, hc⟩ | ⟨-, hst, hidle, hon, he⟩
    · simp [he, hc] at hne
    · rw [he] at htr ⊢
      refine .inr ⟨v, later, hst, hidle, hon, rfl, rfl, ?_, ?_, htr⟩
      · rw [hf.regs, he, startRequest_regs]
      · rw [hf.command.1, afterWrite_cfg]

/-- Settles O57: a read of `A_DR` clears EOC, and a start request can only clear it. -/
theorem eocChangesOnlyByRule : Obligations.EocChangesOnlyByRule := by
  intro s t turn hwf hnr h hne
  rcases act_converter h with ⟨heoc, -⟩ | ⟨rfl, -⟩ | ⟨rfl, heoc, -⟩ | ⟨rfl, c, i, -, -, hm⟩
  · exact absurd heoc hne
  · exact absurd rfl hnr
  · exact .inl ⟨heoc, rfl⟩
  · rcases hm.eoc_conv_changes hwf (.inl hne) with ⟨heoc, -, hread⟩ | ⟨v, -, -, hidle, hon, heoc, hconv, -⟩
    · exact .inr ⟨heoc, rfl, .inl hread⟩
    · rw [startRequest_eoc, hon, controlWritten_eoc, Bool.true_and] at heoc
      rw [startRequest_conv, if_pos hon] at hconv
      refine .inr ⟨?_, rfl, .inr ⟨hidle, by simp [hconv]⟩⟩
      cases hs : s.eoc with
      | false => simp [heoc, hs] at hne
      | true => simpa [hs] using hne

/-- Settles O56: only a start request begins a conversion, judged in the state the write of `A_CR` left. -/
theorem conversionChangesOnlyByRule : Obligations.ConversionChangesOnlyByRule := by
  intro s t turn hwf hr h hne
  rcases act_converter h with ⟨-, hconv, -⟩ | ⟨rfl, rfl⟩ | ⟨rfl, -, hconv, -⟩ | ⟨rfl, c, i, -, -, hm⟩
  · exact absurd hconv hne
  · exact .inr ⟨rfl, .inr rfl⟩
  · exact .inr ⟨hconv, .inl rfl⟩
  · rcases hm.eoc_conv_changes hwf (.inr hne) with
      ⟨-, hconv, -⟩ | ⟨v, later, hst, hidle, hon, -, hconv, hregs, hcfg, htr⟩
    · exact absurd hconv hne
    · have hv : v.getLsbD s.cfg.bAdon = true := (controlWritten_adon hwf hr v).symm.trans hon
      have hsq : (controlWritten v s).reg s.cfg.aSqr = s.reg s.cfg.aSqr := by
        rw [controlWritten_reg hr, if_neg hwf.converter_nodup.1.symm]
      have han : (controlWritten v s).reg s.cfg.aModerAn = s.reg s.cfg.aModerAn := by
        rw [controlWritten_reg hr, if_neg (hwf.converter_ne (by simp) (by simp))]
      rw [startRequest_conv, if_pos hon, controlWritten_cfg, hsq] at hconv
      rw [startRequest_trace, if_pos hon, controlWritten_cfg, hsq, controlWritten_trace] at htr
      refine .inl ⟨hidle, rfl, v, _, _, later, hst, hv, ?_, hconv, rfl, sq1Field_lt _, ?_, ?_⟩
      · simpa using htr
      · simp [State.trusted, han, hv, modeAnalog, and_assoc]
      · rw [← hon, State.adon, State.adon, State.reg, State.reg, hcfg, hregs, controlWritten_cfg]

/-! ### Reset, the step, and a pin -/

/-- Settles O49: the fixed values are the record's own, and the two register words are drawn under their masks. -/
theorem resetLeaves : Obligations.ResetLeaves := by
  intro s hwf
  refine ⟨hostReset s, rfl, rfl, rfl, rfl, rfl, rfl, rfl, rfl, rfl, rfl, rfl, rfl, rfl, rfl, rfl, rfl, rfl, rfl,
    hostReset_triggerClear s hwf, ?_⟩
  have hlt : ((hostReset s).reg s.cfg.aDr).toNat < 4096 := hostReset_dataInRange s hwf
  apply BitVec.eq_of_toNat_eq
  rw [BitVec.extractLsb'_toNat, Nat.shiftRight_eq_div_pow, Nat.div_eq_of_lt hlt]
  rfl

/-- Settles O7: the phases with a micro-operation are the busy ones, and a turn is used up before it is taken. -/
theorem stepRunsLatchedCommand : Obligations.StepRunsLatchedCommand := by
  intro s rest w i hs hidle hfault hl hi
  have hb : State.busy { s with schedule := rest } = true := by simp [State.busy, hidle, hfault]
  have hl' : latched { s with schedule := rest } = some w := hl
  have hturn : nextTurn s = (.sequencer, { s with schedule := rest }) := by rw [nextTurn, hs]
  rw [step, hturn]
  simp only [act, sequencerStep, hb, if_true, hl', hi]

/-- A write half of a clocked plain register stores the merge and records the access (R65, R103). -/
theorem writeHalf_plain (hwf : s.cfg.WF) (ha : a ∈ mapped s.cfg) (hc : s.clocked a = true) (hs : a ≠ s.cfg.aSr)
    (hd : a ≠ s.cfg.aDr) (hcr : a ≠ s.cfg.aCr) (hclk : a ≠ s.cfg.aClkAdc) (hsq : a = s.cfg.aSqr → s.conv = .idle)
    (ht : s.t = some w) (x y : Word) (k : State → State) :
    writeHalf a x y s k = .next (k ((s.setReg a (merge w x y)).log (.busWr a (merge w x y)))) := by
  have hf : writeFault s a (merge w x y) = none :=
    writeFault_none.mpr ⟨writeCheck_clocked hwf ha hc hs hd, disturbs_plain hcr hclk hsq⟩
  rw [writeHalf_some ht, hf, afterWrite_plain hcr hclk]

/-- The word `PIN_SET` writes over an old one (R122). -/
def pinSetWord (pin : BitVec 4) (level : Bool) (w : Word) : Word :=
  if level then merge w (bit pin.toNat) 0#32 else merge w 0#32 (bit pin.toNat)

/-- The bit `PIN_SET` writes is the level (R122, R123). -/
theorem pinSetWord_getLsbD (pin : BitVec 4) (level : Bool) (w : Word) :
    (pinSetWord pin level w).getLsbD pin.toNat = level := by
  have hlt : pin.toNat < 32 := by omega
  cases level with
  | false => simp [pinSetWord, getLsbD_merge, getLsbD_bit_self hlt]
  | true => exact getLsbD_merge_bit hlt

theorem exec_pinSet_decode {pin : BitVec 4} {level : Bool} (hp : s.phase = .decode) :
    exec (.pinSet pin level) s = .next (enter .exec s) := by
  simp only [exec, execPinSet, hp]

theorem exec_pinSet_read {pin : BitVec 4} {level : Bool} (hp : s.phase = .exec) (hu : s.upc = 0#4) :
    exec (.pinSet pin level) s = readHalf s.cfg.aOdrOut s := by
  simp only [exec, execPinSet, hp, hu]
  rfl

/-- The write of `PIN_SET`, with the port clocked and a word latched (R122). -/
theorem exec_pinSet_write {pin : BitVec 4} {level : Bool} (hwf : s.cfg.WF) (hclk : s.outClock = true)
    (hp : s.phase = .exec) (hu : s.upc = 1#4) (ht : s.t = some w) : exec (.pinSet pin level) s =
      .next (respond .ok ((s.setReg s.cfg.aOdrOut (pinSetWord pin level w)).log
        (.busWr s.cfg.aOdrOut (pinSetWord pin level w)))) := by
  obtain ⟨hsr, hdr⟩ := Cfg.WF.port_plain hwf (a := s.cfg.aOdrOut) (by simp)
  have hcr : s.cfg.aOdrOut ≠ s.cfg.aCr := (hwf.converter_ne (by simp) (by simp)).symm
  have hsq : s.cfg.aOdrOut ≠ s.cfg.aSqr := (hwf.converter_ne (by simp) (by simp)).symm
  have hck : s.cfg.aOdrOut ≠ s.cfg.aClkAdc := (hwf.clock_ne (by simp) (by simp)).symm
  have hw := writeHalf_plain hwf (by simp [mapped]) ((clocked_port hwf (.inr rfl)).trans hclk) hsr hdr hcr hck
    (fun h => absurd h hsq) ht
  cases level with
  | false =>
    simp only [exec, execPinSet, hp, hu]
    exact hw ..
  | true =>
    simp only [exec, execPinSet, hp, hu]
    exact hw ..

/-- The state a whole `PIN_SET` leaves (R122). -/
def pinSetDone (pin : BitVec 4) (level : Bool) (s : State) : State :=
  let u := latchedState s.cfg.aOdrOut (enter .exec s)
  let v := pinSetWord pin level (s.reg s.cfg.aOdrOut)
  respond .ok ((u.setReg s.cfg.aOdrOut v).log (.busWr s.cfg.aOdrOut v))

/-- A `PIN_SET` whose three micro-operations answer next states ran with its port clocked: otherwise the read faults,
and there is no third micro-operation in `FAULT` (R68, R122). -/
theorem execN_pinSet {pin : BitVec 4} {level : Bool} (hwf : s.cfg.WF) (hp : s.phase = .decode)
    (h : execN (.pinSet pin level) 3 s = .next t) : s.outClock = true ∧ t = pinSetDone pin level s := by
  have hmap : s.cfg.aOdrOut ∈ mapped s.cfg := by simp [mapped]
  have hc : (enter .exec s).clocked s.cfg.aOdrOut = s.outClock := clocked_port (s := s) hwf (.inr rfl)
  obtain ⟨hsr, hdr⟩ := Cfg.WF.port_plain hwf (a := s.cfg.aOdrOut) (by simp)
  simp only [execN, exec_pinSet_decode hp, exec_pinSet_read (s := enter .exec s) rfl rfl, enter_cfg] at h
  cases hclk : s.outClock with
  | false =>
    have hf : accessFault (enter .exec s) s.cfg.aOdrOut = some .unclocked := by
      rw [accessFault_mapped (s := enter .exec s) hwf hmap, if_pos (hc.trans hclk)]
    rw [readHalf_eq, hf] at h
    simp [exec, execPinSet] at h
  | true =>
    rw [readHalf_clocked (s := enter .exec s) hwf hmap (hc.trans hclk) hsr hdr] at h
    simp only [exec_pinSet_write (s := latchedState s.cfg.aOdrOut (enter .exec s)) hwf hclk rfl rfl rfl] at h
    exact ⟨rfl, (Host.Outcome.next.inj h).symm⟩

/-- A `PIN_SET` stores its word in the output-data register and leaves every other register (R122). -/
theorem pinSetDone_reg {pin : BitVec 4} {level : Bool} (hr : s.regs.wf) (b : Word) : (pinSetDone pin level s).reg b =
    if s.cfg.aOdrOut = b then pinSetWord pin level (s.reg s.cfg.aOdrOut) else s.reg b :=
  reg_setReg hr ..

theorem pinSetDone_outClock {pin : BitVec 4} {level : Bool} (hwf : s.cfg.WF) (hr : s.regs.wf) :
    (pinSetDone pin level s).outClock = s.outClock := by
  have hreg : (pinSetDone pin level s).reg s.cfg.aClkOut = s.reg s.cfg.aClkOut :=
    (pinSetDone_reg hr _).trans (if_neg (hwf.clock_ne (by simp) (by simp)).symm)
  exact congrArg (BitVec.getLsbD · s.cfg.bClkOut) hreg

/-- What the pins of a clocked port show after `PIN_SET` (R41, R123). -/
theorem pinSetDone_pinDrive {pin : BitVec 4} {level : Bool} (hwf : s.cfg.WF) (hr : s.regs.wf) (hclk : s.outClock = true)
    (n : Fin 16) : pinDrive (pinSetDone pin level s) n =
      if modeField (s.reg s.cfg.aModerOut) n = 0b01#2 then
        .driven ((pinSetWord pin level (s.reg s.cfg.aOdrOut)).getLsbD n)
      else .notDriven := by
  have hcfg : (pinSetDone pin level s).cfg = s.cfg := rfl
  have hclocked : (pinSetDone pin level s).clocked s.cfg.aModerOut = true :=
    (clocked_port (s := pinSetDone pin level s) hwf (.inl rfl)).trans ((pinSetDone_outClock hwf hr).trans hclk)
  rw [pinDrive, hcfg, hclocked, pinSetDone_reg hr, pinSetDone_reg hr, if_neg hwf.w4.1.symm, if_pos rfl]
  simp [modeOutput]

/-- Settles O31: the mode and clock registers are not the latch, so the pin shows the bit written. -/
theorem pinDriveFollowsLatch : Obligations.PinDriveFollowsLatch := by
  intro s t n level hwf hr hp h
  obtain ⟨hclk, rfl⟩ := execN_pinSet hwf hp h
  have hn : (BitVec.ofNat 4 n).toNat = n := by simp
  have hbit : (pinSetWord (BitVec.ofNat 4 n) level (s.reg s.cfg.aOdrOut)).getLsbD n = level := by
    simpa only [hn] using pinSetWord_getLsbD (BitVec.ofNat 4 n) level (s.reg s.cfg.aOdrOut)
  rw [pinSetDone_pinDrive hwf hr hclk, pinSetDone_reg hr, if_pos rfl, hbit]
  exact ⟨rfl, fun hm => if_pos hm, fun hm => if_neg hm⟩

/-! ### No turn reads `TRACE` -/

/-- The state with an older history in front of `TRACE` (R42). -/
def State.withOlder (older : List Event) (s : State) : State := { s with trace := older ++ s.trace }

/-- An operation that appends to `TRACE` and does not read it. -/
abbrev Appends (older : List Event) (f : State → State) : Prop := ∀ s, f (s.withOlder older) = (f s).withOlder older

variable {older : List Event}

theorem log_appends (e : Event) : Appends older (State.log · e) := fun s => by simp [State.log, State.withOlder]

theorem takeFault_appends (c : Cause) (w : Word) : Appends older (takeFault c w) := fun s => by
  simp [takeFault, State.withOlder]

theorem respond_appends (r : Response) : Appends older (respond r) := fun s => by simp [respond, State.withOlder]

theorem unsettleIf_appends (b : Bool) : Appends older (unsettleIf b) := fun s => by cases b <;> rfl

theorem startRequest_appends : Appends older startRequest := fun s => by
  have h : (s.withOlder older).adon = s.adon := rfl
  cases hon : s.adon with
  | false => rw [startRequest_off hon, startRequest_off (h.trans hon)]
  | true =>
    rw [startRequest_on hon, startRequest_on (h.trans hon)]
    simp only [State.withOlder, List.append_assoc]
    rfl

theorem startIf_appends (b : Bool) : Appends older (startIf b) := fun s => by
  cases b with
  | false => rfl
  | true => exact startRequest_appends s

theorem afterWrite_appends (a v : Word) : Appends older (afterWrite a v) := fun s => by
  have h : ((s.withOlder older).setReg a (storedWord s.cfg a v)).log (.busWr a v) =
      ((s.setReg a (storedWord s.cfg a v)).log (.busWr a v)).withOlder older :=
    log_appends _ (s.setReg a (storedWord s.cfg a v))
  have hcfg : (s.withOlder older).cfg = s.cfg := rfl
  unfold afterWrite writeEffects
  rw [hcfg, h, unsettleIf_appends, startIf_appends, unsettleIf_appends]
  rfl

theorem afterRead_appends (a : Word) : Appends older (afterRead a) := fun s => by
  have h : (s.withOlder older).cfg = s.cfg := rfl
  unfold afterRead
  rw [h, ← log_appends]
  split <;> (try split) <;> rfl

theorem endStab_appends : Appends older endStab := fun s => by
  rw [endStab_eq, endStab_eq]
  simp only [State.withOlder, List.append_assoc]
  rfl

theorem beginStab_appends : Appends older beginStab := fun s => by
  have h : (s.withOlder older).cfg = s.cfg := rfl
  unfold beginStab
  rw [h]
  split
  · exact endStab_appends s
  · rfl

theorem afterPoll_appends (v : Word) : Appends older (afterPoll v) := fun s => by
  have h : (s.withOlder older).cfg = s.cfg := rfl
  have hcnt : (s.withOlder older).cnt = s.cnt := rfl
  unfold afterPoll
  rw [h, hcnt]
  split
  · rfl
  · split
    · rfl
    · split
      · exact respond_appends _ (setCnt (s.cnt + 1) s)
      · rfl

/-- A micro-operation that reads does not read `TRACE` if what follows the read does not. -/
theorem onRead_withOlder (a : Word) {k : Word → State → State} (hk : ∀ v, Appends older (k v)) (s : State) :
    onRead a (s.withOlder older) k = mapNext (State.withOlder older) (onRead a s k) := by
  have h : accessFault (s.withOlder older) a = accessFault s a := rfl
  rw [onRead_eq, onRead_eq, h]
  cases accessFault s a with
  | some c => exact congrArg _ (takeFault_appends c a s)
  | none =>
    simp only [mapNext]
    rw [afterRead_appends, hk]
    rfl

/-- The same for one that writes. -/
theorem onWrite_withOlder (a v : Word) {k : State → State} (hk : Appends older k) (s : State) :
    onWrite a v (s.withOlder older) k = mapNext (State.withOlder older) (onWrite a v s k) := by
  have h : writeFault (s.withOlder older) a v = writeFault s a v := rfl
  rw [onWrite_eq, onWrite_eq, h]
  cases writeFault s a v with
  | some c => exact congrArg _ (takeFault_appends c a s)
  | none =>
    simp only [mapNext]
    rw [afterWrite_appends, hk]

theorem readHalf_withOlder (a : Word) (s : State) :
    readHalf a (s.withOlder older) = mapNext (State.withOlder older) (readHalf a s) := by
  refine onRead_withOlder a ?_ s
  exact fun _ _ => rfl

theorem writeHalf_withOlder (a x y : Word) {k : State → State} (hk : Appends older k) (s : State) :
    writeHalf a x y (s.withOlder older) k = mapNext (State.withOlder older) (writeHalf a x y s k) := by
  have h : (s.withOlder older).t = s.t := rfl
  unfold writeHalf
  rw [h]
  cases s.t with
  | none => exact congrArg _ (takeFault_appends _ _ s)
  | some w => exact onWrite_withOlder a _ hk s

theorem stabTick_withOlder (s : State) :
    stabTick (s.withOlder older) = mapNext (State.withOlder older) (stabTick s) := by
  have h : (s.withOlder older).cnt = s.cnt := rfl
  unfold stabTick
  rw [h]
  split
  · rfl
  · rename_i n _
    simp only [mapNext]
    split
    · exact congrArg _ (endStab_appends (setCnt n s))
    · rfl

/-- No micro-operation of any command reads `TRACE`. -/
theorem exec_withOlder (i : Instr) (s : State) :
    exec i (s.withOlder older) = mapNext (State.withOlder older) (exec i s) := by
  have hp : (s.withOlder older).phase = s.phase := rfl
  have hu : (s.withOlder older).upc = s.upc := rfl
  have hc : (s.withOlder older).cfg = s.cfg := rfl
  have hnext : Appends older nextMicro := fun _ => rfl
  have hpoll : Appends older startPolling := fun _ => rfl
  have hok : Appends older (respond .ok) := respond_appends .ok
  cases i with
  | rd a =>
    have hk : ∀ v, Appends older fun s => respond (.data v) (latchT v s) := fun v s => respond_appends _ (latchT v s)
    simp only [exec, execRd, hp, hu, onRead_withOlder a hk]
    split
    · rfl
    · split <;> rfl
    · rfl
  | wr a v =>
    simp only [exec, execWr, hp, hu, onWrite_withOlder a v hok]
    split
    · rfl
    · split <;> rfl
    · rfl
  | mod a x y =>
    have hw : writeCheck (s.withOlder older) a = writeCheck s a := rfl
    simp only [exec, execMod, hp, hu, hw, readHalf_withOlder, writeHalf_withOlder a x y hok]
    split
    · rfl
    · split
      · split
        · exact congrArg _ (takeFault_appends _ _ s)
        · rfl
      · rfl
      · rfl
    · rfl
  | portInit m =>
    simp only [exec, execPortInit, hp, hu, hc, readHalf_withOlder, writeHalf_withOlder _ _ _ hnext,
      writeHalf_withOlder _ _ _ hok]
    split
    · rfl
    · split <;> rfl
    · rfl
  | pinSet pin level =>
    simp only [exec, execPinSet, hp, hu, hc, readHalf_withOlder, writeHalf_withOlder _ _ _ hok]
    split
    · rfl
    · cases level <;> split <;> rfl
    · rfl
  | adcInit =>
    simp only [exec, execAdcInit, hp, hu, hc, readHalf_withOlder, writeHalf_withOlder _ _ _ hnext,
      writeHalf_withOlder _ _ _ beginStab_appends, stabTick_withOlder]
    split
    · rfl
    · split <;> rfl
    · rfl
    · rfl
  | adcRead =>
    have hk : ∀ d, Appends older (respond (.data (resultWord d))) := fun d => respond_appends _
    simp only [exec, execAdcRead, hp, hu, hc, readHalf_withOlder, writeHalf_withOlder _ _ _ hpoll,
      onRead_withOlder _ afterPoll_appends, onRead_withOlder _ hk]
    split
    · rfl
    · split <;> rfl
    · rfl
    · rfl
    · rfl

theorem sequencerStep_withOlder (s : State) :
    sequencerStep (s.withOlder older) = mapNext (State.withOlder older) (sequencerStep s) := by
  have hb : (s.withOlder older).busy = s.busy := rfl
  have hl : latched (s.withOlder older) = latched s := rfl
  have hp : (s.withOlder older).phase = s.phase := rfl
  simp only [sequencerStep, hb, hl, rejectCommand, hp, exec_withOlder]
  split
  · split
    · exact congrArg _ (takeFault_appends _ _ s)
    · split
      · rfl
      · split
        · exact congrArg _ (takeFault_appends _ _ s)
        · rfl
  · rfl

/-- No turn but reset reads or drops what `TRACE` held. -/
theorem act_withOlder {turn : Turn} (hr : turn ≠ .reset) (s : State) :
    act turn (s.withOlder older) = mapNext (State.withOlder older) (act turn s) := by
  cases turn with
  | issue c a x y =>
    have h : (s.withOlder older).ready = s.ready := rfl
    simp only [act, mapNext, hostIssue, h]
    split
    · exact congrArg (fun u => Host.Outcome.next (latchCommand ⟨c, a, x, y⟩ u)) (log_appends (.issue c a x y) s)
    · rfl
  | take => rfl
  | reset => exact absurd rfl hr
  | sequencer => exact sequencerStep_withOlder s
  | converter =>
    have h : (s.withOlder older).conv = s.conv := rfl
    simp only [act, mapNext, converterStep, h]
    split
    · rfl
    · simp [State.withOlder, State.log, State.setReg]

/-- Every turn but reset only appends to `TRACE` (R42). -/
theorem act_traceGrows {turn : Turn} (hr : turn ≠ .reset) (h : act turn s = .next t) : TraceGrows s t := by
  have same : TraceGrows s s := ⟨[], by simp⟩
  cases turn with
  | issue c a x y =>
    obtain rfl := Host.Outcome.next.inj h
    unfold hostIssue
    split
    · exact ⟨_, rfl⟩
    · exact same
  | take =>
    obtain rfl := Host.Outcome.next.inj h
    exact same
  | reset => exact absurd rfl hr
  | sequencer =>
    rcases sequencerStep_next h with ⟨-, rfl⟩ | ⟨-, -, rfl⟩ | ⟨-, c, -, rfl⟩ | ⟨c, i, -, -, hex⟩
    · exact same
    · exact ⟨_, rfl⟩
    · exact ⟨_, rfl⟩
    · exact (exec_micro hex).traceGrows
  | converter =>
    obtain rfl := Host.Outcome.next.inj h
    unfold converterStep
    split
    · exact same
    · exact ⟨_, rfl⟩

/-- Settles O54: turns append and commute with an older history; reset starts a new one. -/
theorem traceIsWriteOnly : Obligations.TraceIsWriteOnly := by
  refine ⟨fun s t turn hr h => act_traceGrows hr h, fun s t turn older hr h => ?_, fun s older => ?_⟩
  · exact (act_withOlder hr s).trans (by rw [h]; rfl)
  · simp only [act, hostReset]
end Sys2Proof.Machine

/-! SUPPORT and PROOFS. The family 20_memory.md. Each check of a bus access (R67 to R71) gets one lemma that says when it
gives its cause, and a cause is turned once into the outcome of a read, a write and MOD's pre-check (`access_faults`). What
the other agents leave of a command in progress is said once for a turn (`act_undisturbed`) and carried over any list of
turns. -/

namespace Sys2Proof.Machine

variable {s t u : State} {a v : Word} {c : Cause}

/-! ### What each access answers -/

theorem busRead_error_iff : busRead a s = .error c ↔ accessFault s a = some c := by
  unfold busRead
  cases accessFault s a <;> simp

theorem busWrite_error_iff : busWrite a v s = .error c ↔ writeFault s a v = some c := by
  unfold busWrite
  cases writeFault s a v <;> simp

theorem busWrite_ok_iff : busWrite a v s = .ok t ↔ writeFault s a v = none ∧ afterWrite a v s = t := by
  unfold busWrite
  cases writeFault s a v <;> simp

theorem onRead_fault (h : accessFault s a = some c) (k : Word → State → State) :
    onRead a s k = .next (takeFault c a s) := by
  rw [onRead_eq, h]

theorem onWrite_fault (h : writeFault s a v = some c) (k : State → State) :
    onWrite a v s k = .next (takeFault c a s) := by
  rw [onWrite_eq, h]

/-! ### The order of the checks -/

theorem writeCheck_of_accessFault (h : accessFault s a = some c) : writeCheck s a = some c := by
  rw [writeCheck, h]

theorem writeFault_of_writeCheck (h : writeCheck s a = some c) : writeFault s a v = some c := by
  rw [writeFault, h]

/-- The cause of a failed access check is the outcome of a read, of a write and of `MOD`'s pre-check (R64, R65, R104). -/
theorem access_faults (h : accessFault s a = some c) (v : Word) :
    (∀ k, onRead a s k = .next (takeFault c a s)) ∧ (∀ k, onWrite a v s k = .next (takeFault c a s)) ∧
      writeCheck s a = some c :=
  have hw : writeCheck s a = some c := writeCheck_of_accessFault h
  ⟨onRead_fault h, onWrite_fault (writeFault_of_writeCheck hw), hw⟩

/-- The cause of a failed write check is an access check's or `RO_WRITE` (R104). -/
theorem writeCheck_some (h : writeCheck s a = some c) : accessFault s a = some c ∨ c = .roWrite := by
  unfold writeCheck at h
  split at h
  · rename_i hf
    exact .inl (hf.trans h)
  · split at h
    · exact .inr (Option.some.inj h).symm
    · cases h

/-- The cause of a failed write is an access check's, `RO_WRITE` or `CONVERTER_DISTURBED` (R65). -/
theorem writeFault_some (h : writeFault s a v = some c) :
    accessFault s a = some c ∨ c = .roWrite ∨ c = .converterDisturbed := by
  unfold writeFault at h
  split at h
  · rename_i hw
    rcases writeCheck_some (hw.trans h) with hf | hro
    · exact .inl hf
    · exact .inr (.inl hro)
  · split at h
    · exact .inr (.inr (Option.some.inj h).symm)
    · cases h

/-! ### When each check gives its cause -/

/-- The alignment check of R70 is divisibility by 4. -/
theorem lowBits_eq_zero_iff (a : Word) : a.extractLsb' 0 2 = 0#2 ↔ a.toNat % 4 = 0 := by
  rw [← BitVec.toNat_inj, BitVec.extractLsb'_toNat]
  simp

theorem accessFault_misaligned (h : a.toNat % 4 ≠ 0) : accessFault s a = some .misaligned :=
  if_pos (mt (lowBits_eq_zero_iff a).mp h)

theorem accessFault_unmapped (h : a.toNat % 4 = 0) (hm : a ∉ mapped s.cfg) : accessFault s a = some .unmapped := by
  rw [accessFault, if_neg (not_not.mpr ((lowBits_eq_zero_iff a).mpr h)), if_pos hm]

theorem accessFault_unclocked (hwf : s.cfg.WF) (ha : a ∈ mapped s.cfg) (hc : s.clocked a = false) :
    accessFault s a = some .unclocked := by
  rw [accessFault_mapped hwf ha, if_pos hc]

/-- W1: no access to a configured address is misaligned. -/
theorem accessFault_ne_misaligned (hwf : s.cfg.WF) (ha : a ∈ mapped s.cfg) : accessFault s a ≠ some .misaligned := by
  rw [accessFault_mapped hwf ha]
  split <;> simp

/-- The status and the data register are converter registers, so with the converter clocked only R67 refuses them. -/
theorem writeCheck_readOnly (hwf : s.cfg.WF) (ha : a = s.cfg.aSr ∨ a = s.cfg.aDr) (hclk : s.adcClock = true) :
    writeCheck s a = some .roWrite := by
  have hmem : a ∈ [s.cfg.aSqr, s.cfg.aCr, s.cfg.aSr, s.cfg.aDr] := by rcases ha with rfl | rfl <;> simp
  have hmap : a ∈ mapped s.cfg := by rcases ha with rfl | rfl <;> simp [mapped]
  have hacc : accessFault s a = none := accessFault_clocked hwf hmap ((clocked_converter hwf hmem).trans hclk)
  rw [writeCheck, hacc]
  exact if_pos ha

/-- `Disturbs` of R69 as a proposition. -/
theorem disturbs_iff : s.disturbs a v = true ↔ s.conv ≠ .idle ∧
    ((a = s.cfg.aCr ∧ (v.getLsbD s.cfg.bStart = true ∨ v.getLsbD s.cfg.bAdon = false)) ∨ a = s.cfg.aSqr ∨
      (a = s.cfg.aClkAdc ∧ v.getLsbD s.cfg.bClkAdc = false)) := by
  simp [State.disturbs, or_assoc]

/-- After the other checks, `Disturbs` alone decides a write (R65, R69). -/
theorem writeFault_passed (h : writeCheck s a = none) (v : Word) :
    writeFault s a v = if s.disturbs a v then some .converterDisturbed else none := by
  rw [writeFault, h]

/-! ### The statements on faults -/

/-- Settles O10: the alignment check stands first, and by W1 every configured address passes it. -/
theorem misalignedAccessFaults : Obligations.MisalignedAccessFaults := by
  refine ⟨fun s a v h => access_faults (accessFault_misaligned h) v, fun s a v hwf ha => ?_⟩
  have hne : accessFault s a ≠ some .misaligned := accessFault_ne_misaligned hwf ha
  refine ⟨fun h => hne (busRead_error_iff.mp h), fun h => ?_⟩
  rcases writeFault_some (busWrite_error_iff.mp h) with hf | hro | hdist
  · exact hne hf
  · cases hro
  · cases hdist

/-- Settles O11: past the alignment check, the mapping check is next. -/
theorem unmappedAccessFaults : Obligations.UnmappedAccessFaults :=
  fun _ _ v h hm => access_faults (accessFault_unmapped h hm) v

/-- Settles O12: a configured address passes the first two checks, and W2 to W5 give each its domain. -/
theorem unclockedAccessFaults : Obligations.UnclockedAccessFaults :=
  ⟨fun _ _ v hwf ha hc => access_faults (accessFault_unclocked hwf ha hc) v,
    fun _ hwf => ⟨fun _ ha => clocked_clock ha, fun _ ha => clocked_port hwf (by simpa using ha),
      clocked_moderAn hwf, fun _ ha => clocked_converter hwf ha⟩⟩

/-- Settles O13: a write that succeeds passed R67's check, so it is of neither register. -/
theorem readOnlyWriteFaults : Obligations.ReadOnlyWriteFaults := by
  intro s a v hwf ha
  refine ⟨fun hclk => ?_, fun t ht => ?_⟩
  · have hw : writeCheck s a = some .roWrite := writeCheck_readOnly hwf ha hclk
    exact ⟨onWrite_fault (writeFault_of_writeCheck hw), hw⟩
  · obtain ⟨hf, -⟩ := busWrite_ok_iff.mp ht
    obtain ⟨-, hsr, hdr⟩ := writeCheck_none.mp (writeFault_none.mp hf).1
    exact ha.elim hsr hdr

/-- Settles O14: `Disturbs` is the last check of a write. -/
theorem disturbingWriteFaults : Obligations.DisturbingWriteFaults := by
  intro s a v hw
  refine ⟨fun hd => onWrite_fault ?_, fun hd => ⟨_, busWrite_ok_iff.mpr ⟨?_, rfl⟩⟩⟩
  · rw [writeFault_passed hw, if_pos (disturbs_iff.mpr hd)]
  · rw [writeFault_passed hw, if_neg (mt disturbs_iff.mp hd)]

/-! ### Turns of the other agents during a command -/

/-- What the host's `issue` and `take` and the converter leave of a command in progress: its progress, a register file in
canonical form, and an idle converter (only a write starts a conversion). -/
structure Undisturbed (s t : State) : Prop extends SameProgress s t where
  regsWf : t.regs.wf
  idle : s.conv = .idle → t.conv = .idle

theorem Undisturbed.refl (hr : s.regs.wf) : Undisturbed s s :=
  ⟨⟨rfl, rfl, rfl, rfl, rfl, rfl, fun _ _ => rfl, id⟩, hr, id⟩

theorem SameProgress.trans (h : SameProgress s t) (h' : SameProgress t u) : SameProgress s u where
  cfg := h'.cfg.trans h.cfg
  phase := h'.phase.trans h.phase
  upc := h'.upc.trans h.upc
  cnt := h'.cnt.trans h.cnt
  latched := h'.latched.trans h.latched
  latch := h'.latch.trans h.latch
  reg b hb := (h'.reg b (by rwa [h.cfg])).trans (h.reg b hb)
  eoc he := h'.eoc (h.eoc he)

theorem Undisturbed.trans (h : Undisturbed s t) (h' : Undisturbed t u) : Undisturbed s u :=
  ⟨h.toSameProgress.trans h'.toSameProgress, h'.regsWf, fun hi => h'.idle (h.idle hi)⟩

/-- A command offered to a busy or faulted block waits with the host (R198; log 6). -/
theorem hostIssue_not_idle (hp : s.phase ≠ .idle) (w : CommandWords) : hostIssue w s = s :=
  if_neg (by simp [State.ready, hp])

/-- A completion writes the data register and the converter alone (R160). -/
theorem converterStep_undisturbed (hr : s.regs.wf) : Undisturbed s (converterStep s) := by
  unfold converterStep
  split
  · exact .refl hr
  · have hreg : ∀ b, b ≠ s.cfg.aDr → (s.setReg s.cfg.aDr ((Config.sampleDraw s.draws).zeroExtend 32)).reg b = s.reg b :=
      fun b hb => (reg_setReg hr ..).trans (if_neg hb.symm)
    exact ⟨⟨rfl, rfl, rfl, rfl, rfl, rfl, hreg, fun _ => rfl⟩, Memory.wf_write hr _ _, fun _ => rfl⟩

theorem act_undisturbed {turn : Turn} (hp : s.phase ≠ .idle) (hr : s.regs.wf) (hseq : turn ≠ .sequencer)
    (hres : turn ≠ .reset) : ∃ t, act turn s = .next t ∧ Undisturbed s t := by
  cases turn with
  | issue c a x y => exact ⟨_, rfl, (hostIssue_not_idle hp _).symm ▸ .refl hr⟩
  | take => exact ⟨_, rfl, ⟨rfl, rfl, rfl, rfl, rfl, rfl, fun _ _ => rfl, id⟩, hr, id⟩
  | reset => exact absurd rfl hres
  | sequencer => exact absurd rfl hseq
  | converter => exact ⟨_, rfl, converterStep_undisturbed hr⟩

/-- Any turns of the other agents, reset aside, leave a command in progress as it stands (R72, R189). -/
theorem actN_undisturbed {turns : List Turn} (hp : s.phase ≠ .idle) (hr : s.regs.wf) (hseq : .sequencer ∉ turns)
    (hres : .reset ∉ turns) : ∃ t, actN turns s = .next t ∧ Undisturbed s t := by
  induction turns generalizing s with
  | nil => exact ⟨s, rfl, .refl hr⟩
  | cons turn rest ih =>
    obtain ⟨hseq1, hseq2⟩ := List.ne_and_not_mem_of_not_mem_cons hseq
    obtain ⟨hres1, hres2⟩ := List.ne_and_not_mem_of_not_mem_cons hres
    obtain ⟨t, ht, hst⟩ := act_undisturbed hp hr hseq1.symm hres1.symm
    obtain ⟨u, hu, htu⟩ := ih (by rwa [hst.phase]) hst.regsWf hseq2 hres2
    exact ⟨u, by rw [actN, ht]; exact hu, hst.trans htu⟩

/-- A register that passes the checks of R104 still passes them: the other agents write no clock enable. -/
theorem SameProgress.writeCheck (h : SameProgress s t) (hwf : s.cfg.WF) (a : Word) :
    writeCheck t a = Machine.writeCheck s a := by
  have hclk : ∀ b ∈ s.cfg.clockAddresses, t.reg b = s.reg b := fun b hb => h.reg b (hwf.clock_ne hb (by simp))
  exact writeCheck_congr h.cfg (hclk _ (by simp)) (hclk _ (by simp)) (hclk _ (by simp)) a

/-! ### The two halves of a `MOD` -/

/-- The read half of `MOD` on a clocked plain register latches its word (R102, R104). -/
theorem exec_mod_read {x y : Word} (hwf : s.cfg.WF) (hp : s.phase = .exec) (hu : s.upc = 0#4) (ha : a ∈ mapped s.cfg)
    (hc : s.clocked a = true) (hs : a ≠ s.cfg.aSr) (hd : a ≠ s.cfg.aDr) :
    exec (.mod a x y) s = .next (latchedState a s) := by
  simp only [exec, execMod, hp, hu, writeCheck_clocked hwf ha hc hs hd]
  exact readHalf_clocked hwf ha hc hs hd

/-- The write half of `MOD` is a write of the merge, then the response (R102). -/
theorem exec_mod_write {x y : Word} (hp : s.phase = .exec) (hu : s.upc = 1#4) :
    exec (.mod a x y) s = writeHalf a x y s (respond .ok) := by
  simp only [exec, execMod, hp, hu]
  rfl

/-- Settles O24: the turns between leave the latched word, the checks and an idle converter, so the write half passes. -/
theorem modUpdateIsNotLost : Obligations.ModUpdateIsNotLost := by
  intro s a x y turns hwf hr hp hu ha hc hs hd hcr hclk hsq hseq hres
  have hread := exec_mod_read (x := x) (y := y) hwf hp hu ha hc hs hd
  have hbusy : (latchedState a s).phase ≠ .idle := by simp [hp]
  obtain ⟨u, hturns, hund⟩ := actN_undisturbed (s := latchedState a s) hbusy hr hseq hres
  have hcfg : u.cfg = s.cfg := hund.cfg
  have hpu : u.phase = .exec := hund.phase.trans hp
  have huu : u.upc = 1#4 := hund.upc.trans (by simp [hu])
  have hchk : writeCheck u a = none :=
    (hund.writeCheck hwf a).trans (writeCheck_clocked hwf ha hc hs hd)
  obtain ⟨hacc, -, -⟩ := writeCheck_none.mp hchk
  obtain ⟨-, -, hcu⟩ := accessFault_none hacc
  have hwrite := writeHalf_plain (hcfg ▸ hwf) (hcfg ▸ ha) hcu (hcfg ▸ hs) (hcfg ▸ hd) (hcfg ▸ hcr) (hcfg ▸ hclk)
    (fun h => hund.idle (hsq (hcfg ▸ h))) hund.latch x y (respond .ok)
  refine ⟨_, u, _, hread, hturns, (exec_mod_write hpu huu).trans hwrite, ?_, rfl, fun b hb hbd => ?_⟩
  · exact (reg_setReg hund.regsWf ..).trans (if_pos rfl)
  · exact (reg_setReg hund.regsWf ..).trans ((if_neg hb.symm).trans (hund.reg b hbd))

end Sys2Proof.Machine

/-! SUPPORT and PROOFS. The family 30_encoding.md. A command word is its three fields (`cmd_eq_of_fields`), so the
decoder is said once as the inverse of the encoder (`decode_eq_ok_iff`): it answers a command exactly for that command's
word, with its operands in theirs. The statements on encoding read it off; those on `DECODE` rest on what every command
does there (`exec_decode`). -/

namespace Sys2Proof.Machine

variable {s : State} {w : CommandWords} {i j : Instr} {c d : Word}

/-! ### The fields of a command word -/

/-- `RSV`, bits 8:4 and `OP` make up the command word (R82). -/
theorem fields_append (c : Word) : rsvField c ++ pinLevelField c ++ opField c = c := by
  have hlow : pinLevelField c ++ opField c = c.extractLsb' 0 9 :=
    BitVec.extractLsb'_append_extractLsb'_eq_extractLsb' rfl
  have hall : rsvField c ++ c.extractLsb' 0 9 = c.extractLsb' 0 32 :=
    BitVec.extractLsb'_append_extractLsb'_eq_extractLsb' rfl
  calc rsvField c ++ pinLevelField c ++ opField c
    _ = rsvField c ++ (pinLevelField c ++ opField c) := BitVec.append_assoc
    _ = c := by rw [hlow, hall, BitVec.extractLsb'_eq_self]

theorem cmd_eq_of_fields (hop : opField c = opField d) (hpl : pinLevelField c = pinLevelField d)
    (hrsv : rsvField c = rsvField d) : c = d := by
  rw [← fields_append c, ← fields_append d, hop, hpl, hrsv]

/-- Bits 8:4 are `LEVEL` above `PIN` (R82, R87). -/
theorem pinLevelField_eq (c : Word) : pinLevelField c = BitVec.ofBool (levelField c) ++ pinField c := by
  have hlevel : BitVec.ofBool (levelField c) = c.extractLsb' 8 1 := by
    ext k hk
    simp [levelField, Nat.lt_one_iff.mp hk]
  have happend : c.extractLsb' 8 1 ++ pinField c = pinLevelField c :=
    BitVec.extractLsb'_append_extractLsb'_eq_extractLsb' rfl
  rw [hlevel, happend]

/-- Bits 8:4 of the word of a command (R85). -/
def pinLevelOf : Instr → BitVec 5
  | .pinSet pin level => BitVec.ofBool level ++ pin
  | _ => 0#5

/-- The encoder writes the opcode, the pin and level of `PIN_SET`, and zeros (R85). -/
theorem fields_encode (i : Instr) : opField (encode i).cmd = (opcode i).setWidth 4 ∧
    pinLevelField (encode i).cmd = pinLevelOf i ∧ rsvField (encode i).cmd = 0#23 := by
  cases i with
  | pinSet pin level => revert pin level; decide
  | _ => simp [encode, opcode, opField, pinLevelField, rsvField, pinLevelOf]

/-- The fields of `PIN_SET`'s word are its operands (R85, R86). -/
theorem operandFields_pinSet (pin : BitVec 4) (level : Bool) :
    pinField (encode (.pinSet pin level)).cmd = pin ∧ levelField (encode (.pinSet pin level)).cmd = level := by
  revert pin level; decide

/-- The command words of R85, by their fields. -/
theorem cmd_eq_encode_iff : c = (encode i).cmd ↔
    opField c = (opcode i).setWidth 4 ∧ pinLevelField c = pinLevelOf i ∧ rsvField c = 0#23 := by
  obtain ⟨hop, hpl, hrsv⟩ := fields_encode i
  constructor
  · rintro rfl
    exact ⟨hop, hpl, hrsv⟩
  · rintro ⟨hop', hpl', hrsv'⟩
    exact cmd_eq_of_fields (hop'.trans hop.symm) (hpl'.trans hpl.symm) (hrsv'.trans hrsv.symm)

/-! ### The decoder is the inverse of the encoder -/

/-- The operand words an opcode uses hold the command's operands; the others hold any value (R83). -/
def HoldsOperands (w : CommandWords) : Instr → Prop
  | .rd a => w.addr = a
  | .wr a x => w.addr = a ∧ w.a = x
  | .mod a x y => w.addr = a ∧ w.a = x ∧ w.b = y
  | .portInit m => w.a = m
  | .pinSet _ _ => True
  | .adcInit => True
  | .adcRead => True

theorem encode_holdsOperands (i : Instr) : HoldsOperands (encode i) i := by
  cases i <;> simp [HoldsOperands, encode]

theorem plain_eq_ok_iff : decode.plain c j = .ok i ↔ pinLevelField c = 0#5 ∧ j = i := by
  by_cases hpl : pinLevelField c = 0#5
  · simp [decode.plain, hpl]
  · simp [decode.plain, hpl]

/-- The decoder's tests on `OP`, bits 8:4 and `RSV` give the command word. -/
theorem cmd_eq_of_tests {n : Nat} (hop : (opField c).toNat = n) (hn : ((opcode i).setWidth 4).toNat = n)
    (hpl : pinLevelField c = pinLevelOf i) (hrsv : rsvField c = 0#23) : c = (encode i).cmd :=
  cmd_eq_encode_iff.mpr ⟨BitVec.eq_of_toNat_eq (hop.trans hn.symm), hpl, hrsv⟩

/-- A command that uses neither `PIN` nor `LEVEL` is answered for its own words only (R87). -/
theorem encoded_of_plain {n : Nat} (h : decode.plain w.cmd j = .ok i) (hop : (opField w.cmd).toNat = n)
    (hrsv : rsvField w.cmd = 0#23) (hn : ((opcode j).setWidth 4).toNat = n) (hj : pinLevelOf j = 0#5) (hwf : j.WF)
    (hw : HoldsOperands w j) : i.WF ∧ w.cmd = (encode i).cmd ∧ HoldsOperands w i := by
  obtain ⟨hpl, rfl⟩ := plain_eq_ok_iff.mp h
  exact ⟨hwf, cmd_eq_of_tests hop hn (hpl.trans hj.symm) hrsv, hw⟩

/-- What the decoder answers has the command word and the operands of its encoding (R83, R86). -/
theorem encoded_of_decode (h : decode w = .ok i) : i.WF ∧ w.cmd = (encode i).cmd ∧ HoldsOperands w i := by
  unfold decode at h
  split at h
  next => cases h
  next hr =>
    have hrsv : rsvField w.cmd = 0#23 := not_not.mp hr
    split at h
    next hop => exact encoded_of_plain h hop hrsv rfl rfl trivial rfl
    next hop => exact encoded_of_plain h hop hrsv rfl rfl trivial ⟨rfl, rfl⟩
    next hop => exact encoded_of_plain h hop hrsv rfl rfl trivial ⟨rfl, rfl, rfl⟩
    next hop =>
      split at h
      next => cases h
      next hpl =>
        split at h
        next => cases h
        next hm =>
          obtain rfl := Except.ok.inj h
          exact ⟨not_not.mp hm, cmd_eq_of_tests hop rfl (not_not.mp hpl) hrsv, rfl⟩
    next hop =>
      obtain rfl := Except.ok.inj h
      exact ⟨trivial, cmd_eq_of_tests hop rfl (pinLevelField_eq _) hrsv, trivial⟩
    next hop => exact encoded_of_plain h hop hrsv rfl rfl trivial trivial
    next hop => exact encoded_of_plain h hop hrsv rfl rfl trivial trivial
    next => cases h

/-- Words with the fields and the operands of a well-formed command decode to it (R84, R86). -/
theorem decode_of_fields (hwf : i.WF) (hop : opField w.cmd = (opcode i).setWidth 4)
    (hpl : pinLevelField w.cmd = pinLevelOf i) (hrsv : rsvField w.cmd = 0#23) (hw : HoldsOperands w i) :
    decode w = .ok i := by
  have hplain (h : pinLevelField w.cmd = 0#5) (j : Instr) : decode.plain w.cmd j = .ok j :=
    plain_eq_ok_iff.mpr ⟨h, rfl⟩
  cases i with
  | rd a =>
    obtain rfl := hw
    simp [decode, hrsv, hop, opcode, hplain hpl]
  | wr a x =>
    obtain ⟨rfl, rfl⟩ := hw
    simp [decode, hrsv, hop, opcode, hplain hpl]
  | mod a x y =>
    obtain ⟨rfl, rfl, rfl⟩ := hw
    simp [decode, hrsv, hop, opcode, hplain hpl]
  | adcInit => simp [decode, hrsv, hop, opcode, hplain hpl]
  | adcRead => simp [decode, hrsv, hop, opcode, hplain hpl]
  | portInit m =>
    obtain rfl := hw
    simp [decode, hrsv, hop, opcode, hpl, pinLevelOf, hwf]
  | pinSet pin level =>
    have hcmd : w.cmd = (encode (.pinSet pin level)).cmd := cmd_eq_encode_iff.mpr ⟨hop, hpl, hrsv⟩
    obtain ⟨hpin, hlevel⟩ := operandFields_pinSet pin level
    rw [← hcmd] at hpin hlevel
    simp [decode, hrsv, hop, opcode, hpin, hlevel]

theorem decode_eq_ok_iff : decode w = .ok i ↔ i.WF ∧ w.cmd = (encode i).cmd ∧ HoldsOperands w i := by
  refine ⟨encoded_of_decode, fun ⟨hwf, hcmd, hw⟩ => ?_⟩
  obtain ⟨hop, hpl, hrsv⟩ := cmd_eq_encode_iff.mp hcmd
  exact decode_of_fields hwf hop hpl hrsv hw

/-- Settles O2: the encoding of a command is one of the words that decode to it. -/
theorem decodeEncodeRoundTrip : Obligations.DecodeEncodeRoundTrip :=
  fun i hwf => decode_eq_ok_iff.mpr ⟨hwf, rfl, encode_holdsOperands i⟩

/-- Settles O1: each word is the encoding's, and the words the opcode uses are the operands. -/
theorem sampleWordsDecode : Obligations.SampleWordsDecode :=
  ⟨fun _ _ _ => decode_eq_ok_iff.mpr ⟨trivial, rfl, rfl⟩,
    fun _ _ _ => decode_eq_ok_iff.mpr ⟨trivial, rfl, ⟨rfl, rfl⟩⟩,
    fun _ _ _ => decode_eq_ok_iff.mpr ⟨trivial, rfl, ⟨rfl, rfl, rfl⟩⟩,
    fun _ _ => decode_eq_ok_iff.mpr ⟨by decide, rfl, rfl⟩,
    fun _ _ _ => decode_eq_ok_iff.mpr ⟨trivial, rfl, trivial⟩,
    fun _ _ _ => decode_eq_ok_iff.mpr ⟨trivial, rfl, trivial⟩,
    fun _ _ _ => decode_eq_ok_iff.mpr ⟨trivial, rfl, trivial⟩,
    fun _ _ _ => decode_eq_ok_iff.mpr ⟨trivial, rfl, trivial⟩⟩

/-! ### Ignored words and illegal words -/

/-- Settles O3: the first half is the inverse; for the second, `OP` selects an arm that reads no ignored word. -/
theorem operandWordsUsedAndIgnored : Obligations.OperandWordsUsedAndIgnored := by
  refine ⟨fun w i h => ?_, fun c a x y a' x' y' => ?_⟩
  · obtain ⟨hwf, hcmd, hw⟩ := decode_eq_ok_iff.mp h
    exact ⟨hwf, hcmd, by cases i <;> exact hw⟩
  · refine ⟨fun (hop : opField c = 1#4) => ?_, fun (hop : opField c = 2#4) => ?_, fun (hop : opField c = 4#4) => ?_,
      fun (hop : opField c ∈ [5#4, 6#4, 7#4]) => ?_⟩
    · simp [decode, hop]
    · simp [decode, hop]
    · simp [decode, hop]
    · simp only [List.mem_cons, List.not_mem_nil, or_false] at hop
      rcases hop with hop | hop | hop
      · simp [decode, hop]
      · simp [decode, hop]
      · simp [decode, hop]

/-- R87's formula, on the fields of the command word. -/
def LegalWords (w : CommandWords) : Prop :=
  rsvField w.cmd = 0#23 ∧
    ((opField w.cmd ∈ [1#4, 2#4, 3#4, 6#4, 7#4] ∧ pinLevelField w.cmd = 0#5) ∨
      (opField w.cmd = 4#4 ∧ pinLevelField w.cmd = 0#5 ∧ w.a.extractLsb' 16 16 = 0#16) ∨ opField w.cmd = 5#4)

theorem legalWords_of_decode (h : decode w = .ok i) : LegalWords w := by
  obtain ⟨hwf, hcmd, hw⟩ := decode_eq_ok_iff.mp h
  obtain ⟨hop, hpl, hrsv⟩ := cmd_eq_encode_iff.mp hcmd
  refine ⟨hrsv, ?_⟩
  cases i with
  | portInit m =>
    obtain rfl := hw
    exact .inr (.inl ⟨hop, hpl, hwf⟩)
  | pinSet pin level => exact .inr (.inr hop)
  | _ => exact .inl ⟨by simp [hop, opcode], hpl⟩

theorem decode_of_legalWords (h : LegalWords w) : ∃ i, decode w = .ok i := by
  obtain ⟨hrsv, ⟨hop, hpl⟩ | ⟨hop, hpl, hm⟩ | hop⟩ := h
  · simp only [List.mem_cons, List.not_mem_nil, or_false] at hop
    rcases hop with hop | hop | hop | hop | hop
    · exact ⟨.rd w.addr, decode_of_fields trivial hop hpl hrsv rfl⟩
    · exact ⟨.wr w.addr w.a, decode_of_fields trivial hop hpl hrsv ⟨rfl, rfl⟩⟩
    · exact ⟨.mod w.addr w.a w.b, decode_of_fields trivial hop hpl hrsv ⟨rfl, rfl, rfl⟩⟩
    · exact ⟨.adcInit, decode_of_fields trivial hop hpl hrsv trivial⟩
    · exact ⟨.adcRead, decode_of_fields trivial hop hpl hrsv trivial⟩
  · exact ⟨.portInit w.a, decode_of_fields hm hop hpl hrsv rfl⟩
  · exact ⟨.pinSet (pinField w.cmd) (levelField w.cmd),
      decode_of_fields trivial hop (pinLevelField_eq _) hrsv trivial⟩

/-! ### `DECODE` -/

/-- `DECODE` of a command, the same for every command but `ADC_READ`'s phase (R88). -/
theorem exec_decode (i : Instr) (hp : s.phase = .decode) :
    exec i s = .next (enter (if i = .adcRead then .startRequested else .exec) s) := by
  cases i with
  | adcRead => simp only [exec, execAdcRead, hp, if_true]
  | rd => simp only [exec, execRd, hp, reduceCtorEq, if_false]
  | wr => simp only [exec, execWr, hp, reduceCtorEq, if_false]
  | mod => simp only [exec, execMod, hp, reduceCtorEq, if_false]
  | portInit => simp only [exec, execPortInit, hp, reduceCtorEq, if_false]
  | pinSet => exact exec_pinSet_decode hp
  | adcInit => simp only [exec, execAdcInit, hp, reduceCtorEq, if_false]

theorem sequencerStep_decode_ok (hp : s.phase = .decode) (hl : latched s = some w) (hd : decode w = .ok i) :
    sequencerStep s = .next (enter (if i = .adcRead then .startRequested else .exec) s) := by
  have hb : s.busy = true := by simp [State.busy, hp]
  simp only [sequencerStep, hb, if_true, hl, hd, exec_decode i hp]

theorem sequencerStep_decode_error {e : Illegal} (hp : s.phase = .decode) (hl : latched s = some w)
    (hd : decode w = .error e) : sequencerStep s = .next (takeFault .illegalCommand w.cmd s) := by
  have hb : s.busy = true := by simp [State.busy, hp]
  simp only [sequencerStep, hb, if_true, hl, hd, rejectCommand, hp]

/-- Settles O5: `enter` and `takeFault` are the two next states of R88. -/
theorem decodeStepOutcome : Obligations.DecodeStepOutcome :=
  fun _ _ hp hl => ⟨fun _ hd => sequencerStep_decode_ok hp hl hd, fun _ hd => sequencerStep_decode_error hp hl hd⟩

/-- Settles O4: words that decode to no command decode to an error, which `DECODE` makes the fault. -/
theorem illegalCommandsFault : Obligations.IllegalCommandsFault := by
  refine ⟨fun w => ⟨fun ⟨i, h⟩ => legalWords_of_decode h, decode_of_legalWords⟩, fun s w hp hl hno => ?_⟩
  cases hd : decode w with
  | ok i => exact absurd ⟨i, hd⟩ hno
  | error e => exact sequencerStep_decode_error hp hl hd

/-! ### Pseudo-commands -/

/-- A port has 16 pins, so a pin's bit is none of bits 31:16. -/
theorem bit_pin_high (n : Fin 16) : (bit n).extractLsb' 16 16 = 0#16 := by
  revert n; decide

/-- Settles O6: each pseudo-command is a well-formed command, so its words decode to it. -/
theorem pseudoCommandsAreCommands : Obligations.PseudoCommandsAreCommands := by
  intro c on
  have hleds : (ledsInit c).WF := by
    simp only [ledsInit, Instr.WF, BitVec.extractLsb'_or, bit_pin_high, BitVec.or_zero]
  exact ⟨decodeEncodeRoundTrip _ hleds, decodeEncodeRoundTrip (ledSet c .safe on) trivial,
    decodeEncodeRoundTrip (ledSet c .warning on) trivial, decodeEncodeRoundTrip (ledSet c .critical on) trivial,
    decodeEncodeRoundTrip (piezoInit c) (bit_pin_high _), decodeEncodeRoundTrip (piezoSet c on) trivial,
    decodeEncodeRoundTrip sensorInit trivial, decodeEncodeRoundTrip sensorRead trivial⟩

/-! ### Outputs -/

/-- `PIN_DRIVE` of R41. -/
theorem pinDrive_eq (s : State) (n : Fin 16) : pinDrive s n =
    if s.clocked s.cfg.aModerOut = true ∧ modeField (s.reg s.cfg.aModerOut) n = modeOutput then
      .driven ((s.reg s.cfg.aOdrOut).getLsbD n)
    else .notDriven := by
  simp only [pinDrive, Bool.and_eq_true, beq_iff_eq]

/-- `fault_cause` is the code of the cause, and 0 without one (R81, R181). -/
theorem faultCauseOut_of {o : Option Cause} (h : s.fcause = o) :
    faultCauseOut s = (o.map causeCode).getD 0#3 := by
  rw [faultCauseOut, h]
  cases o <;> rfl

/-- Settles O53: each output by the register it shows. -/
theorem interfaceOutputs : Obligations.InterfaceOutputs := by
  intro s
  refine ⟨?ready, ?busy, ?faulted, faultCauseOut_of, faultCauseOut_of, faultCauseOut_of, faultCauseOut_of,
    faultCauseOut_of, faultCauseOut_of, faultCauseOut_of, rfl, ?valid, fun h => ?none, fun h => ?ok, fun w h => ?data,
    fun h => ?timeout, pinDrive_eq s⟩
  case ready => simp [State.ready]
  case busy => simp [State.busy]
  case faulted => simp [State.faulted]
  case valid => simp [rspValidOut, Option.isSome_iff_ne_none]
  case none | ok | data | timeout => simp [rspKindOut, rspDataOut, h]

end Sys2Proof.Machine

/-! SUPPORT and PROOFS. The family 40_register_access.md. A bus access that passes its checks is one update
(`onRead_passed`, `onWrite_passed`), so `RD`, `WR` and `MOD` are one equation for each kind of register. A
read-modify-write, in a `MOD` or in a micro-program, is two micro-operations that leave `updated`
(`execN_readModifyWrite`); a micro-program and the `MOD`s are compared one update after the other (`ModReaches`). -/

namespace Sys2Proof.Machine

variable {i : Instr} {s t u : State} {a v w x y : Word} {c : Cause}

/-! ### The laws of the merge -/

/-- Settles O8: R103 sets last, so the set mask's bit wins. -/
theorem mergeBitwise : Obligations.MergeBitwise := fun o s c i _ => by
  rw [getLsbD_merge, Bool.or_comm]

/-- Two words are equal if the rule for one bit of the merge gives the other's bits. -/
theorem merge_eq_of_bits {o s c r : Word}
    (h : ∀ n, n < 32 → ((o.getLsbD n && !c.getLsbD n) || s.getLsbD n) = r.getLsbD n) : merge o s c = r :=
  BitVec.eq_of_getLsbD_eq fun n hn => (getLsbD_merge o s c n).trans (h n hn)

theorem merge_merge (o s c : Word) : merge (merge o s c) s c = merge o s c := by
  refine merge_eq_of_bits fun n _ => ?_
  rw [getLsbD_merge]
  cases s.getLsbD n <;> cases c.getLsbD n <;> simp

/-- Setting set bits and clearing clear ones changes nothing. -/
theorem merge_of_asked {o s c : Word} (hs : o &&& s = s) (hc : c &&& ~~~s = 0#32) : merge o s c = o := by
  refine merge_eq_of_bits fun n hn => ?_
  have hset : (o.getLsbD n && s.getLsbD n) = s.getLsbD n := by rw [← BitVec.getLsbD_and, hs]
  have hclear : (c.getLsbD n && !s.getLsbD n) = false := by simpa [hn] using congrArg (BitVec.getLsbD · n) hc
  cases hb : s.getLsbD n with
  | true => simp [show o.getLsbD n = true by simpa [hb] using hset]
  | false => simp [show c.getLsbD n = false by simpa [hb] using hclear]

/-- Each bit is in the masks of one of the two merges at most. -/
theorem merge_comm_of_disjoint {s₁ c₁ s₂ c₂ : Word} (o : Word) (h : (s₁ ||| c₁) &&& (s₂ ||| c₂) = 0#32) :
    merge (merge o s₁ c₁) s₂ c₂ = merge (merge o s₂ c₂) s₁ c₁ := by
  refine merge_eq_of_bits fun n _ => ?_
  have hdisj : ((s₁.getLsbD n || c₁.getLsbD n) && (s₂.getLsbD n || c₂.getLsbD n)) = false := by
    simpa using congrArg (BitVec.getLsbD · n) h
  simp only [getLsbD_merge]
  rcases Bool.and_eq_false_iff.mp hdisj with hout | hout <;> obtain ⟨hs, hc⟩ := Bool.or_eq_false_iff.mp hout <;>
    simp [hs, hc]

/-- A bit in neither mask keeps its value. -/
theorem getLsbD_merge_of_unmasked {o s c : Word} {n : Nat} (h : (s ||| c).getLsbD n = false) :
    (merge o s c).getLsbD n = o.getLsbD n := by
  obtain ⟨hs, hc⟩ : s.getLsbD n = false ∧ c.getLsbD n = false := by simpa using h
  simp [getLsbD_merge, hs, hc]

/-- Settles O9: each law is one of a single bit. -/
theorem mergeLaws : Obligations.MergeLaws :=
  ⟨merge_merge, fun _ _ _ => merge_of_asked, fun o _ _ _ _ => merge_comm_of_disjoint o,
    fun _ _ _ _ => getLsbD_merge_of_unmasked⟩

/-! ### One bus access that passes its checks -/

theorem onRead_passed (h : accessFault s a = none) (k : Word → State → State) :
    onRead a s k = .next (k (readValue a s) (afterRead a s)) := by
  rw [onRead_eq, h]

theorem onWrite_passed (h : writeFault s a v = none) (k : State → State) :
    onWrite a v s k = .next (k (afterWrite a v s)) := by
  rw [onWrite_eq, h]

/-- A read answers the state its fault or its end leaves. -/
theorem onRead_next {k : Word → State → State} (h : onRead a s k = .next t) :
    (∃ c, t = takeFault c a s) ∨ t = k (readValue a s) (afterRead a s) := by
  cases hf : accessFault s a with
  | some c =>
    rw [onRead_fault hf] at h
    exact .inl ⟨c, (Host.Outcome.next.inj h).symm⟩
  | none =>
    rw [onRead_passed hf] at h
    exact .inr (Host.Outcome.next.inj h).symm

/-- A write answers the state its fault or its end leaves. -/
theorem onWrite_next {k : State → State} (h : onWrite a v s k = .next t) :
    (∃ c, t = takeFault c a s) ∨ t = k (afterWrite a v s) := by
  cases hf : writeFault s a v with
  | some c =>
    rw [onWrite_fault hf] at h
    exact .inl ⟨c, (Host.Outcome.next.inj h).symm⟩
  | none =>
    rw [onWrite_passed hf] at h
    exact .inr (Host.Outcome.next.inj h).symm

/-- A register that passes `WriteCheck` has no read effects, so its read half latches its word (R64, R104). -/
theorem readHalf_passed (h : writeCheck s a = none) : readHalf a s = .next (latchedState a s) := by
  obtain ⟨hacc, hsr, hdr⟩ := writeCheck_none.mp h
  obtain ⟨hread, hval⟩ := afterRead_plain hsr hdr
  rw [readHalf, onRead_passed hacc, hread, hval]

/-- A clocked register that commands no effects passes every check of a write (R65, R69). -/
theorem writeFault_plain (hwf : s.cfg.WF) (ha : a ∈ mapped s.cfg) (hc : s.clocked a = true) (hs : a ≠ s.cfg.aSr)
    (hd : a ≠ s.cfg.aDr) (hcr : a ≠ s.cfg.aCr) (hclk : a ≠ s.cfg.aClkAdc) (hsq : a = s.cfg.aSqr → s.conv = .idle) :
    writeFault s a v = none :=
  writeFault_none.mpr ⟨writeCheck_clocked hwf ha hc hs hd, disturbs_plain hcr hclk hsq⟩

/-- A read of the status register uses up a draw (R39, R66). -/
theorem afterRead_status (s : State) : afterRead s.cfg.aSr s =
    State.log { s with draws := s.draws + 1 } (.busRd s.cfg.aSr (readValue s.cfg.aSr s)) := by
  rw [afterRead, if_pos rfl]

/-- A read of the data register clears EOC (R40, R66). -/
theorem afterRead_data (hwf : s.cfg.WF) : readValue s.cfg.aDr s = s.reg s.cfg.aDr ∧
    afterRead s.cfg.aDr s = State.log { s with eoc := false } (.busRd s.cfg.aDr (s.reg s.cfg.aDr)) := by
  obtain ⟨-, -, -, -, -, hsrdr⟩ := hwf.converter_nodup
  have hval : readValue s.cfg.aDr s = s.reg s.cfg.aDr := if_neg hsrdr.symm
  exact ⟨hval, by rw [afterRead, hval, if_neg hsrdr.symm, if_pos rfl]⟩

/-- The access is recorded before the response (R42). -/
theorem respond_log (r : Response) (s : State) (e : Event) :
    respond r (s.log e) = { s with rsp := some r, phase := .idle, trace := s.trace ++ [e, .rsp r] } := by
  simp [respond, State.log]

/-! ### The micro-operations of `RD`, `WR` and `MOD` -/

theorem exec_rd_read (hp : s.phase = .exec) (hu : s.upc = 0#4) :
    exec (.rd a) s = onRead a s fun v s' => respond (.data v) (latchT v s') := by
  simp only [exec, execRd, hp, hu]
  rfl

theorem exec_wr_write (hp : s.phase = .exec) (hu : s.upc = 0#4) : exec (.wr a v) s = onWrite a v s (respond .ok) := by
  simp only [exec, execWr, hp, hu]
  rfl

/-- `MOD` does not read a register it cannot write (R104). -/
theorem exec_mod_refused (hp : s.phase = .exec) (hu : s.upc = 0#4) (h : writeCheck s a = some c) :
    exec (.mod a x y) s = .next (takeFault c a s) := by
  simp only [exec, execMod, hp, hu, h]
  rfl

theorem exec_mod_readHalf (hp : s.phase = .exec) (hu : s.upc = 0#4) (h : writeCheck s a = none) :
    exec (.mod a x y) s = readHalf a s := by
  simp only [exec, execMod, hp, hu, h]
  rfl

/-- The write half of `MOD` with a word in `T` is a write of the merge (R102). -/
theorem exec_mod_onWrite (hp : s.phase = .exec) (hu : s.upc = 1#4) (ht : s.t = some w) :
    exec (.mod a x y) s = onWrite a (merge w x y) s (respond .ok) := by
  rw [exec_mod_write hp hu, writeHalf, ht]

/-- Settles O15: each of the four micro-operations is its access, whose fault is taken. -/
theorem registerAccessTakesFaults : Obligations.RegisterAccessTakesFaults := by
  intro s a x y w c faulted hp
  refine ⟨fun hu h => ?read, fun hu h => ?write, fun hu h => ?check, fun hu ht h => ?half⟩
  case read => exact (exec_rd_read hp hu).trans (onRead_fault (busRead_error_iff.mp h) _)
  case write => exact (exec_wr_write hp hu).trans (onWrite_fault (busWrite_error_iff.mp h) _)
  case check => exact exec_mod_refused hp hu h
  case half => exact (exec_mod_onWrite hp hu ht).trans (onWrite_fault (busWrite_error_iff.mp h) _)

/-- Settles O16: a plain register reads as its stored word, and the read changes only `TRACE`. -/
theorem rdCompletes : Obligations.RdCompletes := by
  intro s a hwf hp hu ha hc hsr hdr
  obtain ⟨hread, hval⟩ := afterRead_plain hsr hdr
  rw [exec_rd_read hp hu, onRead_passed (accessFault_clocked hwf ha hc), hread, hval]
  exact congrArg _ (respond_log _ (latchT (s.reg a) s) _)

/-- Settles O17: the status word has EOC in `B_EOC` and the draw elsewhere; the data register clears EOC. -/
theorem rdConverterCompletes : Obligations.RdConverterCompletes := by
  intro s hwf hp hu hclk
  have hacc : ∀ a ∈ [s.cfg.aSr, s.cfg.aDr], accessFault s a = none := fun a ha =>
    accessFault_clocked hwf (by simp [mapped] at ha ⊢; tauto)
      ((clocked_converter hwf (by simp at ha ⊢; tauto)).trans hclk)
  refine ⟨⟨readValue s.cfg.aSr s, ?status, readValue_eoc hwf, fun j _ hj => ?draw⟩, ?data⟩
  case status =>
    rw [exec_rd_read hp hu, onRead_passed (hacc _ (by simp)), afterRead_status]
    exact congrArg _ (respond_log _ (latchT (readValue s.cfg.aSr s) { s with draws := s.draws + 1 }) _)
  case draw => rw [readValue, if_pos rfl, statusWord_other _ _ _ hj]
  case data =>
    obtain ⟨hval, hread⟩ := afterRead_data hwf
    rw [exec_rd_read hp hu, onRead_passed (hacc _ (by simp)), hval, hread]
    exact congrArg _ (respond_log _ (latchT (s.reg s.cfg.aDr) { s with eoc := false }) _)

/-- Settles O18: a plain register passes every check, and its write has no effects. -/
theorem wrCompletes : Obligations.WrCompletes := by
  intro s a v hwf hp hu ha hc hsr hdr hcr hclk hsq
  rw [exec_wr_write hp hu, onWrite_passed (writeFault_plain hwf ha hc hsr hdr hcr hclk hsq), afterWrite_plain hcr hclk]
  exact congrArg _ (respond_log _ (s.setReg a v) _)

/-- Settles O19: a write that does not disturb passes its checks, and its effect on `SETTLED` is R156's. -/
theorem wrCommandsConverter : Obligations.WrCommandsConverter := by
  intro s v hwf hp hu
  obtain ⟨hsqcr, -, -, hcrsr, hcrdr, -⟩ := hwf.converter_nodup
  have hne : s.cfg.aClkAdc ≠ s.cfg.aCr := hwf.clock_ne (by simp) (by simp)
  have hclkMem : s.cfg.aClkAdc ∈ s.cfg.clockAddresses := by simp
  refine ⟨fun hd => ?clock, fun hclk hst hd => ?control⟩
  case clock =>
    obtain ⟨hsr, hdr⟩ := Cfg.WF.clock_plain hwf hclkMem
    have hf : writeFault s s.cfg.aClkAdc v = none :=
      writeFault_none.mpr ⟨writeCheck_clocked hwf (by simp [mapped]) (clocked_clock hclkMem) hsr hdr,
        disturbs_clock hne (hwf.clock_ne hclkMem (by simp)) hd⟩
    rw [exec_wr_write hp hu, onWrite_passed hf, afterWrite_clock hne, unsettleIf_eq, Bool.not_not]
    exact congrArg _ (respond_log _
      { s.setReg s.cfg.aClkAdc v with settled := s.settled && v.getLsbD s.cfg.bClkAdc } _)
  case control =>
    have hf : writeFault s s.cfg.aCr v = none :=
      writeFault_none.mpr
        ⟨writeCheck_clocked hwf (by simp [mapped]) ((clocked_converter hwf (by simp)).trans hclk) hcrsr hcrdr,
          disturbs_control hne.symm hsqcr.symm (hd.imp_right fun h => ⟨hst, h⟩)⟩
    have hsame : (!(s.adon != v.getLsbD s.cfg.bAdon)) = (s.adon == v.getLsbD s.cfg.bAdon) := Bool.not_not _
    rw [exec_wr_write hp hu, onWrite_passed hf, afterWrite_control hne.symm hst, unsettleIf_eq, hsame]
    exact congrArg _ (respond_log _
      { s.setReg s.cfg.aCr v with settled := s.settled && (s.adon == v.getLsbD s.cfg.bAdon) } _)

/-- Settles O21: `WriteCheck` passes a clocked plain register, and the write half is a plain write. -/
theorem modCompletes : Obligations.ModCompletes := by
  intro s a x y w hwf hp ha hc hsr hdr
  refine ⟨fun hu => ?_, fun hu ht hcr hclk hsq => ?_⟩
  · rw [exec_mod_read hwf hp hu ha hc hsr hdr]
    simp [nextMicro, latchT, State.log, hu]
  · rw [exec_mod_write hp hu, writeHalf_plain hwf ha hc hsr hdr hcr hclk hsq ht]
    exact congrArg _ (respond_log _ (s.setReg a (merge w x y)) _)


/-! ### The write half of `MOD` and `WR` of the merge -/

/-- The state at another micro-step. -/
def State.withUpc (n : BitVec 4) (s : State) : State := { s with upc := n }

theorem startRequest_withUpc (n : BitVec 4) (s : State) :
    startRequest (s.withUpc n) = (startRequest s).withUpc n := by
  have hon : (s.withUpc n).adon = s.adon := rfl
  cases h : s.adon with
  | false => rw [startRequest_off h, startRequest_off (hon.trans h)]
  | true =>
    rw [startRequest_on h, startRequest_on (hon.trans h)]
    rfl

theorem unsettleIf_withUpc (b : Bool) (n : BitVec 4) (s : State) :
    unsettleIf b (s.withUpc n) = (unsettleIf b s).withUpc n := by cases b <;> rfl

theorem startIf_withUpc (b : Bool) (n : BitVec 4) (s : State) :
    startIf b (s.withUpc n) = (startIf b s).withUpc n := by
  cases b with
  | false => rfl
  | true => exact startRequest_withUpc n s

/-- No write reads or changes the micro-step. -/
theorem afterWrite_withUpc (a v : Word) (n : BitVec 4) (s : State) :
    afterWrite a v (s.withUpc n) = (afterWrite a v s).withUpc n := by
  have hstore : ((s.withUpc n).setReg a (storedWord (s.withUpc n).cfg a v)).log (.busWr a v) =
      ((s.setReg a (storedWord s.cfg a v)).log (.busWr a v)).withUpc n := rfl
  unfold afterWrite writeEffects
  rw [hstore, unsettleIf_withUpc, startIf_withUpc, unsettleIf_withUpc]
  rfl

/-- Settles O22: both micro-operations are the same bus write, which does not depend on the micro-step. -/
theorem modWriteHalfIsWrOfMerge : Obligations.ModWriteHalfIsWrOfMerge := by
  intro s a x y w hp hu ht
  have hself : s.withUpc 1#4 = s := by rw [State.withUpc, ← hu]
  have hwr : exec (.wr a (merge w x y)) (s.withUpc 0#4) = onWrite a (merge w x y) (s.withUpc 0#4) (respond .ok) :=
    exec_wr_write hp rfl
  rw [exec_mod_onWrite hp hu ht]
  cases hf : writeFault s a (merge w x y) with
  | some c =>
    refine ⟨_, hwr.trans (onWrite_fault (s := s.withUpc 0#4) hf _), (onWrite_fault hf _).trans ?_⟩
    exact congrArg (fun u => Host.Outcome.next (takeFault c a u)) hself.symm
  | none =>
    refine ⟨_, hwr.trans (onWrite_passed (s := s.withUpc 0#4) hf _), (onWrite_passed hf _).trans ?_⟩
    rw [afterWrite_withUpc]
    conv_lhs => rw [← hself, afterWrite_withUpc]
    rfl

/-! ### What `RD`, `WR` and `MOD` leave alone -/

/-- What every micro-operation of every command leaves to its events alone (R25, R26, R42). -/
theorem Micro.frame (h : Micro i s t) : SameCommand s t ∧ SameFaultRegs s t ∧ SameResponse s t ∧ TraceGrows s t := by
  obtain ⟨u, hu, hf⟩ := h.finishes
  obtain ⟨-, -, hrsp, hfc, hfi, -⟩ := hu.fields
  refine ⟨h.sameCommand, fun hp => ?_, fun hp => ?_, h.traceGrows⟩
  · obtain ⟨-, hc, hi⟩ := hf.faultRegs.resolve_left fun hff => hp hff.1
    exact ⟨hc.trans hfc, hi.trans hfi⟩
  · exact (hf.response.resolve_right fun hr => hp hr.1).trans hrsp

theorem exec_rd_next (h : exec (.rd a) s = .next t) : t = enter .exec s ∨ (∃ c, t = takeFault c a s) ∨
    t = respond (.data (readValue a s)) (latchT (readValue a s) (afterRead a s)) := by
  simp only [exec, execRd] at h
  split at h
  · exact .inl (Host.Outcome.next.inj h).symm
  · split at h
    · exact .inr (onRead_next h)
    · cases h
  · cases h

theorem exec_wr_next (h : exec (.wr a v) s = .next t) : t = enter .exec s ∨ (∃ c, t = takeFault c a s) ∨
    t = respond .ok (afterWrite a v s) := by
  simp only [exec, execWr] at h
  split at h
  · exact .inl (Host.Outcome.next.inj h).symm
  · split at h
    · exact .inr (onWrite_next h)
    · cases h
  · cases h

theorem exec_mod_next (h : exec (.mod a x y) s = .next t) : t = enter .exec s ∨ (∃ c b, t = takeFault c b s) ∨
    t = latchedState a s ∨ ∃ v, t = respond .ok (afterWrite a v s) := by
  simp only [exec, execMod] at h
  split at h
  · exact .inl (Host.Outcome.next.inj h).symm
  · split at h
    · split at h
      · exact .inr (.inl ⟨_, _, (Host.Outcome.next.inj h).symm⟩)
      · rename_i hw
        rw [readHalf_passed hw] at h
        exact .inr (.inr (.inl (Host.Outcome.next.inj h).symm))
    · cases ht : s.t with
      | none =>
        rw [writeHalf_none ht] at h
        exact .inr (.inl ⟨_, _, (Host.Outcome.next.inj h).symm⟩)
      | some w =>
        rw [writeHalf, ht] at h
        rcases onWrite_next h with ⟨c, hc⟩ | hw
        · exact .inr (.inl ⟨c, a, hc⟩)
        · exact .inr (.inr (.inr ⟨_, hw⟩))
    · cases h
  · cases h

/-- The part of the frame of a write that names its register (R65, R156). -/
abbrev WritesOnly (a : Word) (s t : State) : Prop :=
  RegsKeptBut [a] s t ∧ (a ≠ s.cfg.aCr → t.eoc = s.eoc ∧ t.conv = s.conv ∧ t.draws = s.draws) ∧
    (a ≠ s.cfg.aCr → a ≠ s.cfg.aClkAdc → t.settled = s.settled)

/-- Where the registers and the converter are as before, no register was written. -/
theorem WritesOnly.of_same (hr : t.regs = s.regs) (hc : SameConverter s t) : WritesOnly a s t := by
  obtain ⟨heoc, hconv, hset, hdraws⟩ := hc
  exact ⟨fun b _ => by rw [State.reg, hr, State.reg], fun _ => ⟨heoc, hconv, hdraws⟩, fun _ _ => hset⟩

theorem WritesOnly.afterWrite (hr : s.regs.wf) (r : Response) : WritesOnly a s (respond r (afterWrite a v s)) := by
  refine ⟨fun b hb => ?_, fun hcr => afterWrite_quiet v hcr, fun hcr hclk => afterWrite_settled_ne v hcr hclk⟩
  exact (afterWrite_reg hr a v b).trans (if_neg fun hab => hb (by simp [hab]))

/-- A read changes EOC at the data register alone, and draws at the status register alone (R66). -/
theorem afterRead_quiet (a : Word) (s : State) :
    (a ≠ s.cfg.aDr → (afterRead a s).eoc = s.eoc) ∧ (a ≠ s.cfg.aSr → (afterRead a s).draws = s.draws) := by
  unfold afterRead
  by_cases hsr : a = s.cfg.aSr
  · rw [if_pos hsr]
    exact ⟨fun _ => rfl, fun h => absurd hsr h⟩
  · rw [if_neg hsr]
    by_cases hdr : a = s.cfg.aDr
    · rw [if_pos hdr]
      exact ⟨fun h => absurd hdr h, fun _ => rfl⟩
    · rw [if_neg hdr]
      exact ⟨fun _ => rfl, fun _ => rfl⟩

theorem exec_rd_frame (h : exec (.rd a) s = .next t) : t.cnt = s.cnt ∧ t.regs = s.regs ∧ t.conv = s.conv ∧
    t.settled = s.settled ∧ (a ≠ s.cfg.aDr → t.eoc = s.eoc) ∧ (a ≠ s.cfg.aSr → t.draws = s.draws) := by
  rcases exec_rd_next h with rfl | ⟨c, rfl⟩ | rfl
  · exact ⟨rfl, rfl, rfl, rfl, fun _ => rfl, fun _ => rfl⟩
  · exact ⟨rfl, rfl, rfl, rfl, fun _ => rfl, fun _ => rfl⟩
  · exact ⟨afterRead_cnt a s, afterRead_regs a s, afterRead_conv a s, afterRead_settled a s, afterRead_quiet a s⟩

theorem exec_wr_frame (hr : s.regs.wf) (h : exec (.wr a v) s = .next t) :
    t.cnt = s.cnt ∧ t.t = s.t ∧ WritesOnly a s t := by
  rcases exec_wr_next h with rfl | ⟨c, rfl⟩ | rfl
  · exact ⟨rfl, rfl, .of_same rfl ⟨rfl, rfl, rfl, rfl⟩⟩
  · exact ⟨rfl, rfl, .of_same rfl ⟨rfl, rfl, rfl, rfl⟩⟩
  · exact ⟨afterWrite_cnt a v s, afterWrite_t a v s, .afterWrite hr _⟩

theorem exec_mod_frame (hr : s.regs.wf) (h : exec (.mod a x y) s = .next t) : t.cnt = s.cnt ∧ WritesOnly a s t := by
  rcases exec_mod_next h with rfl | ⟨c, b, rfl⟩ | rfl | ⟨v, rfl⟩
  · exact ⟨rfl, .of_same rfl ⟨rfl, rfl, rfl, rfl⟩⟩
  · exact ⟨rfl, .of_same rfl ⟨rfl, rfl, rfl, rfl⟩⟩
  · exact ⟨rfl, .of_same rfl ⟨rfl, rfl, rfl, rfl⟩⟩
  · exact ⟨afterWrite_cnt a v s, .afterWrite hr _⟩

/-- Settles O25: the frame of every micro-operation, and of the one access each of the three makes. -/
theorem registerAccessFrame : Obligations.RegisterAccessFrame := by
  refine ⟨fun s t a h => ?_, fun s t a x hr h => ?_, fun s t a x y _ hr h => ?_⟩ <;>
    obtain ⟨hcmd, hfault, hrsp, htrace⟩ := (exec_micro h).frame
  · exact ⟨hcmd, hfault, hrsp, htrace, exec_rd_frame h⟩
  · exact ⟨hcmd, hfault, hrsp, htrace, exec_wr_frame hr h⟩
  · exact ⟨hcmd, hfault, hrsp, htrace, exec_mod_frame hr h⟩

/-! ### A read-modify-write, in a `MOD` or in a micro-program -/

theorem execN_succ (h : exec i s = .next t) (n : Nat) : execN i (n + 1) s = execN i n t := by rw [execN, h]

/-- A run goes on from where its first part ends. -/
theorem execN_add {m : Nat} (h : execN i m s = .next t) (n : Nat) : execN i (m + n) s = execN i n t := by
  induction m generalizing s with
  | zero =>
    obtain rfl : s = t := Host.Outcome.next.inj h
    rw [Nat.zero_add]
  | succ m ih =>
    cases hex : exec i s with
    | next u =>
      rw [execN_succ hex] at h
      rw [Nat.succ_add, execN_succ hex, ih h]
    | fault r => simp only [execN, hex, reduceCtorEq] at h
    | refused r => simp only [execN, hex, reduceCtorEq] at h

/-- The state the two bus accesses of a read-modify-write leave, before its command goes on (R102). -/
def updated (a x y : Word) (s : State) : State := afterWrite a (merge (s.reg a) x y) (latchedState a s)

@[simp] theorem updated_cfg (a x y : Word) (s : State) : (updated a x y s).cfg = s.cfg := afterWrite_cfg ..
@[simp] theorem updated_phase (a x y : Word) (s : State) : (updated a x y s).phase = s.phase := afterWrite_phase ..
@[simp] theorem updated_upc (a x y : Word) (s : State) : (updated a x y s).upc = s.upc + 1#4 := afterWrite_upc ..
@[simp] theorem updated_regs (a x y : Word) (s : State) : (updated a x y s).regs =
    s.regs.write a.toNat (storedWord s.cfg a (merge (s.reg a) x y)) := afterWrite_regs ..

theorem updated_conv (h : a ≠ s.cfg.aCr) : (updated a x y s).conv = s.conv :=
  (afterWrite_quiet (s := latchedState a s) _ h).2.1

/-- Two micro-operations that are the halves of a read-modify-write whose write passes its checks. -/
theorem execN_readModifyWrite {k : State → State} (hread : exec i s = readHalf a s)
    (hwrite : exec i (latchedState a s) = writeHalf a x y (latchedState a s) k)
    (hf : writeFault s a (merge (s.reg a) x y) = none) : execN i 2 s = .next (k (updated a x y s)) := by
  have hhalf : writeHalf a x y (latchedState a s) k = .next (k (updated a x y s)) :=
    onWrite_passed (s := latchedState a s) hf k
  rw [execN_succ (hread.trans (readHalf_passed (writeFault_none.mp hf).1)), execN_succ (hwrite.trans hhalf)]
  rfl

/-- A whole `MOD` whose write passes its checks (R102). -/
theorem execN_mod (hp : s.phase = .decode) (hf : writeFault s a (merge (s.reg a) x y) = none) :
    execN (.mod a x y) 3 s = .next (respond .ok (updated a x y (enter .exec s))) := by
  have hdec : exec (.mod a x y) s = .next (enter .exec s) := exec_decode _ hp
  rw [execN_succ hdec]
  exact execN_readModifyWrite (exec_mod_readHalf rfl rfl (writeFault_none.mp hf).1) (exec_mod_write rfl rfl) hf

/-- Settles O23: a plain register passes every check, and its write has no effects. -/
theorem modRunMerges : Obligations.ModRunMerges := by
  intro s a x y hwf hp ha hc hsr hdr hcr hclk hsq
  rw [execN_mod hp (writeFault_plain hwf ha hc hsr hdr hcr hclk hsq), updated,
    afterWrite_plain (s := latchedState a (enter .exec s)) hcr hclk, respond_log]
  simp [latchedState, nextMicro, latchT, State.log, enter, State.setReg, State.reg, merge]

/-! ### Micro-programs and the host's `MOD`s -/

/-- Equal in what decides a read-modify-write and its effect on `REG`. -/
structure SameDevice (s t : State) : Prop where
  cfg : t.cfg = s.cfg
  regs : t.regs = s.regs
  conv : t.conv = s.conv

theorem SameDevice.reg (h : SameDevice s t) (b : Word) : t.reg b = s.reg b := by
  rw [State.reg, h.regs, State.reg]

theorem SameDevice.writeFault (h : SameDevice s t) (a v : Word) : writeFault t a v = Machine.writeFault s a v := by
  have hcheck : writeCheck t a = writeCheck s a := writeCheck_congr h.cfg (h.reg _) (h.reg _) (h.reg _) a
  have hdist : t.disturbs a v = s.disturbs a v := by rw [State.disturbs, State.disturbs, h.cfg, h.conv]
  cases hc : writeCheck s a with
  | some c => rw [writeFault_of_writeCheck (hcheck.trans hc), writeFault_of_writeCheck hc]
  | none => rw [writeFault_passed (hcheck.trans hc), writeFault_passed hc, hdist]

/-- The host's next `MOD`, after it took the response (R198). -/
theorem SameDevice.nextCommand (h : SameDevice s t) : SameDevice s { t with phase := .decode, rsp := none } :=
  ⟨h.cfg, h.regs, h.conv⟩

/-- From every state with the device of `s`, the whole `MOD` completes in a state of which `P` holds. -/
def ModReaches (a x y : Word) (s : State) (P : State → Prop) : Prop :=
  ∀ u, SameDevice s u → u.phase = .decode → ∃ v, execN (.mod a x y) 3 u = .next v ∧ P v

/-- Where the write of a read-modify-write passes its checks, so does the `MOD`'s. -/
theorem modReaches_of_passed {P : State → Prop} (hf : writeFault s a (merge (s.reg a) x y) = none)
    (hP : ∀ u, SameDevice s u → P (respond .ok (updated a x y (enter .exec u)))) : ModReaches a x y s P := by
  intro u h hp
  have hfu : writeFault u a (merge (u.reg a) x y) = none := by rw [h.writeFault, h.reg, hf]
  exact ⟨_, execN_mod hp hfu, hP u h⟩

/-- The word a read-modify-write stores depends on the device alone. -/
theorem SameDevice.updated_regs (h : SameDevice s u) : (updated a x y u).regs = (updated a x y s).regs := by
  rw [Machine.updated_regs, Machine.updated_regs, h.regs, h.cfg, h.reg]

theorem modReaches_regs (hf : writeFault s a (merge (s.reg a) x y) = none) :
    ModReaches a x y s fun v => v.regs = (updated a x y s).regs :=
  modReaches_of_passed hf fun u h => SameDevice.updated_regs (u := enter .exec u) ⟨h.cfg, h.regs, h.conv⟩

/-- A read-modify-write of a micro-program, outside `A_CR`, does to the device what the `MOD` does. -/
theorem modReaches_sameDevice (hf : writeFault s a (merge (s.reg a) x y) = none) (hcr : a ≠ s.cfg.aCr) :
    ModReaches a x y s (SameDevice (nextMicro (updated a x y s))) := by
  refine modReaches_of_passed hf fun u h => ⟨?_, ?_, ?_⟩
  · simpa using h.cfg
  · exact SameDevice.updated_regs (u := enter .exec u) ⟨h.cfg, h.regs, h.conv⟩
  · have hcru : a ≠ u.cfg.aCr := h.cfg ▸ hcr
    rw [respond_conv, updated_conv (s := enter .exec u) hcru, nextMicro_conv, updated_conv hcr]
    exact h.conv

/-- A merge that sets a bit of a clock-enable register leaves it set. -/
theorem updated_sets_clockBit {n : Nat} (hwf : s.cfg.WF) (hr : s.regs.wf) (ha : a ∈ s.cfg.clockAddresses) (hn : n < 32) :
    ((updated a (bit n) 0#32 s).reg a).getLsbD n = true :=
  afterWrite_getLsbD (s := latchedState a s) hr (fun h => absurd h (hwf.clock_ne ha (by simp)))
    (fun _ => getLsbD_merge_bit hn) fun h => absurd rfl h

/-- A set bit of a clock-enable register stays set under a read-modify-write of a peripheral, or one that clears
nothing. -/
theorem updated_keeps_clockBit {b : Word} {n : Nat} (hwf : s.cfg.WF) (hr : s.regs.wf) (hb : b ∈ s.cfg.clockAddresses)
    (ha : a ∈ s.cfg.peripheralAddresses ∨ y = 0#32) (h : (s.reg b).getLsbD n = true) :
    ((updated a x y s).reg b).getLsbD n = true := by
  refine afterWrite_getLsbD (s := latchedState a s) hr (fun h => absurd h (hwf.clock_ne hb (by simp)))
    (fun hab => ?_) fun _ => h
  rcases ha with ha | rfl
  · exact absurd hab.symm (hwf.clock_ne hb ha)
  · exact getLsbD_merge_set (hab ▸ h)

/-- Setting bits of a clock-enable register never disturbs a conversion whose clock is on (R69, R160). -/
theorem writeFault_setClock (hwf : s.cfg.WF) (ha : a ∈ s.cfg.clockAddresses) (hclk : s.conv ≠ .idle → s.adcClock = true)
    (x : Word) : writeFault s a (merge (s.reg a) x 0#32) = none := by
  obtain ⟨hsr, hdr⟩ := Cfg.WF.clock_plain hwf ha
  have hchk : writeCheck s a = none :=
    writeCheck_clocked hwf (List.mem_append_left _ ha) (clocked_clock ha) hsr hdr
  refine writeFault_none.mpr ⟨hchk, Bool.eq_false_iff.mpr fun hd => ?_⟩
  obtain ⟨hconv, ⟨hcr, -⟩ | hsq | ⟨rfl, hoff⟩⟩ := disturbs_iff.mp hd
  · exact hwf.clock_ne ha (by simp) hcr
  · exact hwf.clock_ne ha (by simp) hsq
  · exact Bool.false_ne_true (hoff.symm.trans (getLsbD_merge_set (hclk hconv)))

/-- With an idle converter only the checks of R104 remain. -/
theorem writeFault_idle (hwf : s.cfg.WF) (ha : a ∈ mapped s.cfg) (hc : s.clocked a = true) (hs : a ≠ s.cfg.aSr)
    (hd : a ≠ s.cfg.aDr) (hidle : s.conv = .idle) : writeFault s a v = none :=
  writeFault_none.mpr ⟨writeCheck_clocked hwf ha hc hs hd, disturbs_idle hidle⟩

/-- A micro-program in `EXEC` at a micro-step, under a configuration and with the register file in canonical form. -/
structure AtStep (c : Cfg) (n : BitVec 4) (s : State) : Prop where
  cfg : s.cfg = c
  regs : s.regs.wf
  phase : s.phase = .exec
  upc : s.upc = n

theorem AtStep.entered (hr : s.regs.wf) : AtStep s.cfg 0#4 (enter .exec s) := ⟨rfl, hr, rfl, rfl⟩

/-- A read-modify-write takes a micro-program two micro-steps on (R27). -/
theorem AtStep.updated {c : Cfg} {n : BitVec 4} (h : AtStep c n s) :
    AtStep c (n + 1#4 + 1#4) (nextMicro (updated a x y s)) where
  cfg := (updated_cfg ..).trans h.cfg
  regs := by
    rw [nextMicro_regs, updated_regs]
    exact Memory.wf_write h.regs _ _
  phase := (updated_phase ..).trans h.phase
  upc := by rw [nextMicro_upc, updated_upc, h.upc]

/-! ### `PORT_INIT` as its two `MOD`s -/

/-- The clock update of `PORT_INIT` (R120). -/
theorem portInit_clock {c : Cfg} (hwf : c.WF) (h : AtStep c 0#4 s) (hclk : s.conv ≠ .idle → s.adcClock = true)
    (m : Word) : ∃ t, execN (.portInit m) 2 s = .next t ∧ AtStep c 2#4 t ∧ t.outClock = true ∧
      ModReaches c.aClkOut (bit c.bClkOut) 0#32 s (SameDevice t) := by
  obtain rfl := h.cfg
  have hmem : s.cfg.aClkOut ∈ s.cfg.clockAddresses := by simp
  have hf := writeFault_setClock hwf hmem hclk (bit s.cfg.bClkOut)
  refine ⟨_, execN_readModifyWrite ?read ?write hf, h.updated, ?on,
    modReaches_sameDevice hf (hwf.clock_ne hmem (by simp))⟩
  case read | write => simp [exec, execPortInit, h.phase, h.upc]
  case on =>
    rw [State.outClock, nextMicro_cfg, updated_cfg]
    exact updated_sets_clockBit hwf h.regs hmem hwf.bits_lt.1

/-- The mode update of `PORT_INIT`, which ends it (R120). -/
theorem portInit_mode {c : Cfg} (hwf : c.WF) (h : AtStep c 2#4 s) (hclk : s.outClock = true) (m : Word) :
    ∃ t, execN (.portInit m) 2 s = .next t ∧
      ModReaches c.aModerOut (outSet m) (outClr m) s fun v => v.regs = t.regs := by
  obtain rfl := h.cfg
  obtain ⟨hsr, hdr⟩ := Cfg.WF.port_plain hwf (a := s.cfg.aModerOut) (by simp)
  have hcr : s.cfg.aModerOut ≠ s.cfg.aCr := (hwf.converter_ne (by simp) (by simp)).symm
  have hsq : s.cfg.aModerOut ≠ s.cfg.aSqr := (hwf.converter_ne (by simp) (by simp)).symm
  have hck : s.cfg.aModerOut ≠ s.cfg.aClkAdc := (hwf.clock_ne (by simp) (by simp)).symm
  have hf : writeFault s s.cfg.aModerOut (merge (s.reg s.cfg.aModerOut) (outSet m) (outClr m)) = none :=
    writeFault_plain hwf (by simp [mapped]) ((clocked_port hwf (.inl rfl)).trans hclk) hsr hdr hcr hck
      fun h => absurd h hsq
  refine ⟨_, execN_readModifyWrite (k := respond .ok) ?read ?write hf, modReaches_regs hf⟩
  case read | write => simp [exec, execPortInit, h.phase, h.upc]

/-! ### `ADC_INIT` as its five `MOD`s -/

/-- A register step of `ADC_INIT` with an idle converter, at a clocked register other than `A_CR` (R140). -/
theorem adcInit_update {c : Cfg} {n : BitVec 4} (hwf : c.WF) (h : AtStep c n s) (hidle : s.conv = .idle)
    (ha : a ∈ mapped c) (hc : s.clocked a = true) (hs : a ≠ c.aSr) (hd : a ≠ c.aDr) (hcr : a ≠ c.aCr)
    (hread : exec .adcInit s = readHalf a s)
    (hwrite : exec .adcInit (latchedState a s) = writeHalf a x y (latchedState a s) nextMicro) :
    execN .adcInit 2 s = .next (nextMicro (updated a x y s)) ∧ AtStep c (n + 1#4 + 1#4) (nextMicro (updated a x y s)) ∧
      (nextMicro (updated a x y s)).conv = .idle ∧
      ModReaches a x y s (SameDevice (nextMicro (updated a x y s))) := by
  obtain rfl := h.cfg
  have hf : writeFault s a (merge (s.reg a) x y) = none := writeFault_idle hwf ha hc hs hd hidle
  exact ⟨execN_readModifyWrite hread hwrite hf, h.updated, (updated_conv hcr).trans hidle,
    modReaches_sameDevice hf hcr⟩

/-- The update that turns the analog port's clock on (R140). -/
theorem adcInit_clockAn {c : Cfg} (hwf : c.WF) (h : AtStep c 0#4 s) (hidle : s.conv = .idle) :
    ∃ t, execN .adcInit 2 s = .next t ∧ AtStep c 2#4 t ∧ t.conv = .idle ∧ t.anClock = true ∧
      ModReaches c.aClkAn (bit c.bClkAn) 0#32 s (SameDevice t) := by
  obtain rfl := h.cfg
  have hmem : s.cfg.aClkAn ∈ s.cfg.clockAddresses := by simp
  obtain ⟨hsr, hdr⟩ := Cfg.WF.clock_plain hwf hmem
  obtain ⟨hrun, hat, hidle', hmod⟩ := adcInit_update (x := bit s.cfg.bClkAn) (y := 0#32) hwf h hidle (by simp [mapped])
    (clocked_clock hmem) hsr hdr (hwf.clock_ne hmem (by simp)) (by simp [exec, execAdcInit, h.phase, h.upc])
    (by simp [exec, execAdcInit, h.phase, h.upc])
  refine ⟨_, hrun, hat, hidle', ?_, hmod⟩
  rw [State.anClock, nextMicro_cfg, updated_cfg]
  exact updated_sets_clockBit hwf h.regs hmem hwf.bits_lt.2.1

/-- The update that turns the converter's clock on, and the analog port's stays on: the two may share a register. -/
theorem adcInit_clockAdc {c : Cfg} (hwf : c.WF) (h : AtStep c 2#4 s) (hidle : s.conv = .idle) (han : s.anClock = true) :
    ∃ t, execN .adcInit 2 s = .next t ∧ AtStep c 4#4 t ∧ t.conv = .idle ∧ t.anClock = true ∧ t.adcClock = true ∧
      ModReaches c.aClkAdc (bit c.bClkAdc) 0#32 s (SameDevice t) := by
  obtain rfl := h.cfg
  have hmem : s.cfg.aClkAdc ∈ s.cfg.clockAddresses := by simp
  obtain ⟨hsr, hdr⟩ := Cfg.WF.clock_plain hwf hmem
  obtain ⟨hrun, hat, hidle', hmod⟩ := adcInit_update (x := bit s.cfg.bClkAdc) (y := 0#32) hwf h hidle
    (by simp [mapped]) (clocked_clock hmem) hsr hdr (hwf.clock_ne hmem (by simp))
    (by simp [exec, execAdcInit, h.phase, h.upc]) (by simp [exec, execAdcInit, h.phase, h.upc])
  refine ⟨_, hrun, hat, hidle', ?_, ?_, hmod⟩
  · rw [State.anClock, nextMicro_cfg, updated_cfg]
    exact updated_keeps_clockBit hwf h.regs (by simp) (.inr rfl) han
  · rw [State.adcClock, nextMicro_cfg, updated_cfg]
    exact updated_sets_clockBit hwf h.regs hmem hwf.bits_lt.2.2.1

/-- A read-modify-write of a peripheral leaves the converter's clock on (W2). -/
theorem updated_keeps_adcClock (hwf : s.cfg.WF) (hr : s.regs.wf) (ha : a ∈ s.cfg.peripheralAddresses)
    (h : s.adcClock = true) : (updated a x y s).adcClock = true := by
  rw [State.adcClock, updated_cfg]
  exact updated_keeps_clockBit hwf hr (by simp) (.inl ha) h

/-- The update of the sensor pin's mode, through the analog port's clock. -/
theorem adcInit_mode {c : Cfg} (hwf : c.WF) (h : AtStep c 4#4 s) (hidle : s.conv = .idle) (han : s.anClock = true)
    (hadc : s.adcClock = true) :
    ∃ t, execN .adcInit 2 s = .next t ∧ AtStep c 6#4 t ∧ t.conv = .idle ∧ t.adcClock = true ∧
      ModReaches c.aModerAn (modeBits modeAnalog c.pinSensor) 0#32 s (SameDevice t) := by
  obtain rfl := h.cfg
  obtain ⟨hsr, hdr⟩ := Cfg.WF.port_plain hwf (a := s.cfg.aModerAn) (by simp)
  obtain ⟨hrun, hat, hidle', hmod⟩ := adcInit_update (x := modeBits modeAnalog s.cfg.pinSensor) (y := 0#32) hwf h hidle
    (by simp [mapped]) ((clocked_moderAn hwf).trans han) hsr hdr (hwf.converter_ne (by simp) (by simp)).symm
    (by simp [exec, execAdcInit, h.phase, h.upc]) (by simp [exec, execAdcInit, h.phase, h.upc])
  exact ⟨_, hrun, hat, hidle', updated_keeps_adcClock hwf h.regs (by simp) hadc, hmod⟩

/-- The update of the sequence register, through the converter's clock. -/
theorem adcInit_sequence {c : Cfg} (hwf : c.WF) (h : AtStep c 6#4 s) (hidle : s.conv = .idle)
    (hadc : s.adcClock = true) :
    ∃ t, execN .adcInit 2 s = .next t ∧ AtStep c 8#4 t ∧ t.conv = .idle ∧ t.adcClock = true ∧
      ModReaches c.aSqr (sensorChannelBits c) (sq1Mask c) s (SameDevice t) := by
  obtain rfl := h.cfg
  obtain ⟨hcr, hsr, hdr, -⟩ := hwf.converter_nodup
  obtain ⟨hrun, hat, hidle', hmod⟩ := adcInit_update (x := sensorChannelBits s.cfg) (y := sq1Mask s.cfg) hwf h hidle
    (by simp [mapped]) ((clocked_converter hwf (by simp)).trans hadc) hsr hdr hcr
    (by simp [exec, execAdcInit, h.phase, h.upc]) (by simp [exec, execAdcInit, h.phase, h.upc])
  exact ⟨_, hrun, hat, hidle', updated_keeps_adcClock hwf h.regs (by simp) hadc, hmod⟩

/-- The stabilization wait counts down to its end (R145, R146). -/
theorem execN_stabWait {k : Nat} (hp : s.phase = .stabWait) (hc : s.cnt = k + 1) :
    execN .adcInit (k + 1) s = .next (endStab (setCnt 0 s)) := by
  induction k generalizing s with
  | zero =>
    have hend : exec .adcInit s = .next (endStab (setCnt 0 s)) := by simp [exec, execAdcInit, hp, stabTick, hc]
    rw [execN_succ hend]
    rfl
  | succ k ih =>
    have htick : exec .adcInit s = .next (setCnt (k + 1) s) := by simp [exec, execAdcInit, hp, stabTick, hc]
    rw [execN_succ htick, ih (s := setCnt (k + 1) s) hp rfl]
    rfl

/-- The wait that follows the last register step, of none or `STAB_COUNT` steps, changes no register (R140, R145). -/
theorem execN_beginStab (s : State) :
    ∃ t, execN .adcInit s.cfg.stabCount (beginStab s) = .next t ∧ t.regs = s.regs := by
  cases hk : s.cfg.stabCount with
  | zero => exact ⟨beginStab s, rfl, by rw [beginStab, if_pos hk, endStab_eq]⟩
  | succ k =>
    have hwait : beginStab s = setPhase .stabWait (setCnt (k + 1) s) := by
      rw [beginStab, hk, if_neg (Nat.succ_ne_zero k)]
    rw [hwait]
    exact ⟨_, execN_stabWait rfl rfl, by rw [endStab_eq]; rfl⟩

/-- The last register step of `ADC_INIT` and its wait (R140, R145). -/
theorem adcInit_control {c : Cfg} (hwf : c.WF) (h : AtStep c 8#4 s) (hidle : s.conv = .idle)
    (hadc : s.adcClock = true) : ∃ t, execN .adcInit (2 + c.stabCount) s = .next t ∧
      ModReaches c.aCr (bit c.bAdon) 0#32 s fun v => v.regs = t.regs := by
  obtain rfl := h.cfg
  obtain ⟨-, -, -, hsr, hdr, -⟩ := hwf.converter_nodup
  have hf : writeFault s s.cfg.aCr (merge (s.reg s.cfg.aCr) (bit s.cfg.bAdon) 0#32) = none :=
    writeFault_idle hwf (by simp [mapped]) ((clocked_converter hwf (by simp)).trans hadc) hsr hdr hidle
  have hrun : execN .adcInit 2 s = .next (beginStab (updated s.cfg.aCr (bit s.cfg.bAdon) 0#32 s)) :=
    execN_readModifyWrite (by simp [exec, execAdcInit, h.phase, h.upc]) (by simp [exec, execAdcInit, h.phase, h.upc]) hf
  obtain ⟨t, hwait, hregs⟩ := execN_beginStab (updated s.cfg.aCr (bit s.cfg.bAdon) 0#32 s)
  rw [updated_cfg] at hwait
  refine ⟨t, (execN_add hrun _).trans hwait, ?_⟩
  rw [hregs]
  exact modReaches_regs hf

/-- Settles O46: update by update, the micro-program and the `MOD`s reach states with the same device. -/
theorem microProgramsEqualMods : Obligations.MicroProgramsEqualMods := by
  refine ⟨fun s m hwf hr hclk hp => ?portInit, fun s hwf hr _ _ hidle hp => ?adcInit⟩
  case portInit =>
    have hdec : execN (.portInit m) 1 s = .next (enter .exec s) := execN_succ (exec_decode _ hp) 0
    obtain ⟨p, hrun1, hat, hout, hmod1⟩ := portInit_clock (s := enter .exec s) hwf (.entered hr) hclk.1 m
    obtain ⟨t, hrun2, hmod2⟩ := portInit_mode hwf hat hout m
    obtain ⟨u, hu, hsame⟩ := hmod1 s ⟨rfl, rfl, rfl⟩ hp
    obtain ⟨v, hv, hregs⟩ := hmod2 _ hsame.nextCommand rfl
    refine ⟨t, u, v, ?_, hu, hv, hregs⟩
    rw [execN_add hdec 4, execN_add hrun1 2, hrun2]
  case adcInit =>
    have hdec : execN .adcInit 1 s = .next (enter .exec s) := execN_succ (exec_decode _ hp) 0
    obtain ⟨p1, hrun1, hat, hidle, han, hmod1⟩ := adcInit_clockAn (s := enter .exec s) hwf (.entered hr) hidle
    obtain ⟨p2, hrun2, hat, hidle, han, hadc, hmod2⟩ := adcInit_clockAdc hwf hat hidle han
    obtain ⟨p3, hrun3, hat, hidle, hadc, hmod3⟩ := adcInit_mode hwf hat hidle han hadc
    obtain ⟨p4, hrun4, hat, hidle, hadc, hmod4⟩ := adcInit_sequence hwf hat hidle hadc
    obtain ⟨t, hrun5, hmod5⟩ := adcInit_control hwf hat hidle hadc
    obtain ⟨u1, hu1, hsame1⟩ := hmod1 s ⟨rfl, rfl, rfl⟩ hp
    obtain ⟨u2, hu2, hsame2⟩ := hmod2 _ hsame1.nextCommand rfl
    obtain ⟨u3, hu3, hsame3⟩ := hmod3 _ hsame2.nextCommand rfl
    obtain ⟨u4, hu4, hsame4⟩ := hmod4 _ hsame3.nextCommand rfl
    obtain ⟨u5, hu5, hregs⟩ := hmod5 _ hsame4.nextCommand rfl
    refine ⟨t, u1, u2, u3, u4, u5, ?_, hu1, hu2, hu3, hu4, hu5, hregs⟩
    have hlen : 11 + s.cfg.stabCount = 1 + (2 + (2 + (2 + (2 + (2 + s.cfg.stabCount))))) := by omega
    rw [hlen, execN_add hdec, execN_add hrun1, execN_add hrun2, execN_add hrun3, execN_add hrun4, hrun5]

end Sys2Proof.Machine

/-! SUPPORT and PROOFS. The family 41_digital_output.md, with the faults of the driver commands. Each micro-operation of
`PORT_INIT` and `PIN_SET` is one half of a read-modify-write, said once by an equation and once by an inversion
(`exec_portInit_cases`, `exec_pinSet_cases`); a half that passes its checks is one update of the state, so the
statements on steps and runs are equations of states, and those on lanes follow bit by bit from the masks of R121. -/

namespace Sys2Proof.Machine

variable {s t u : State} {a m v w x y : Word} {pin : BitVec 4} {level : Bool}

/-! ### The registers of the output port -/

/-- The registers of the output port are of the plain kind, whose accesses have no effects (W2, W3). -/
theorem Cfg.WF.outPort_plain (h : s.cfg.WF) (ha : a = s.cfg.aModerOut ∨ a = s.cfg.aOdrOut) :
    a ∈ mapped s.cfg ∧ a ≠ s.cfg.aSr ∧ a ≠ s.cfg.aDr ∧ a ≠ s.cfg.aCr ∧ a ≠ s.cfg.aClkAdc ∧ a ≠ s.cfg.aSqr := by
  have hport : a ∈ [s.cfg.aModerOut, s.cfg.aOdrOut, s.cfg.aModerAn] := by rcases ha with rfl | rfl <;> simp
  have hperiph : a ∈ s.cfg.peripheralAddresses := by rcases ha with rfl | rfl <;> simp
  obtain ⟨hsr, hdr⟩ := Cfg.WF.port_plain h hport
  exact ⟨List.mem_append_right _ hperiph, hsr, hdr, (h.converter_ne (by simp) hport).symm,
    (h.clock_ne (by simp) hperiph).symm, (h.converter_ne (by simp) hport).symm⟩

/-- What a read half leaves, as one update (R64, R102). -/
theorem latchedState_eq (a : Word) (s : State) : latchedState a s = { s with
    t := some (s.reg a), upc := s.upc + 1#4, trace := s.trace ++ [.busRd a (s.reg a)] } := rfl

theorem readHalf_outPort (h : s.cfg.WF) (hclk : s.outClock = true) (ha : a = s.cfg.aModerOut ∨ a = s.cfg.aOdrOut) :
    readHalf a s = .next (latchedState a s) := by
  obtain ⟨hmap, hsr, hdr, -⟩ := Cfg.WF.outPort_plain h ha
  exact readHalf_clocked h hmap ((clocked_port h ha).trans hclk) hsr hdr

theorem writeHalf_outPort (h : s.cfg.WF) (hclk : s.outClock = true) (ha : a = s.cfg.aModerOut ∨ a = s.cfg.aOdrOut)
    (ht : s.t = some w) (x y : Word) (k : State → State) :
    writeHalf a x y s k = .next (k ((s.setReg a (merge w x y)).log (.busWr a (merge w x y)))) := by
  obtain ⟨hmap, hsr, hdr, hcr, hck, hsq⟩ := Cfg.WF.outPort_plain h ha
  exact writeHalf_plain h hmap ((clocked_port h ha).trans hclk) hsr hdr hcr hck (fun h => absurd h hsq) ht x y k

/-- A clock-enable register is always clocked (R31). -/
theorem readHalf_clock (h : s.cfg.WF) (ha : a ∈ s.cfg.clockAddresses) : readHalf a s = .next (latchedState a s) := by
  obtain ⟨hsr, hdr⟩ := Cfg.WF.clock_plain h ha
  exact readHalf_clocked h (List.mem_append_left _ ha) (clocked_clock ha) hsr hdr

/-- Setting bits of a clock-enable register has no effect but the store: a settled converter keeps its clock (R33,
R156). -/
theorem afterWrite_setClock (h : s.cfg.WF) (ha : a ∈ s.cfg.clockAddresses) (hheld : ClockHeld s) (x : Word) :
    afterWrite a (merge (s.reg a) x 0#32) s =
      (s.setReg a (merge (s.reg a) x 0#32)).log (.busWr a (merge (s.reg a) x 0#32)) := by
  have hcr : a ≠ s.cfg.aCr := h.clock_ne ha (by simp)
  by_cases hadc : a = s.cfg.aClkAdc
  · subst hadc
    rw [afterWrite_clock hcr, unsettleIf_eq, Bool.not_not]
    cases hs : s.settled with
    | false => simp [State.log, State.setReg, hs]
    | true =>
      have hon : (merge (s.reg s.cfg.aClkAdc) x 0#32).getLsbD s.cfg.bClkAdc = true :=
        getLsbD_merge_set (hheld.2 hs)
      simp [State.log, State.setReg, hs, hon]
  · exact afterWrite_plain hcr hadc

/-- A write half that sets bits of a clock-enable register over the word it holds (R69, R120). -/
theorem writeHalf_setClock (h : s.cfg.WF) (ha : a ∈ s.cfg.clockAddresses) (hheld : ClockHeld s)
    (ht : LatchedFrom s a) (x : Word) (k : State → State) : writeHalf a x 0#32 s k =
      .next (k ((s.setReg a (merge (s.reg a) x 0#32)).log (.busWr a (merge (s.reg a) x 0#32)))) := by
  rw [writeHalf_some ht, writeFault_setClock h ha hheld.1, afterWrite_setClock h ha hheld]

/-! ### The micro-operations of `PORT_INIT` -/

theorem exec_portInit_clockRead (hp : s.phase = .exec) (hu : s.upc = 0#4) :
    exec (.portInit m) s = readHalf s.cfg.aClkOut s := by
  simp only [exec, execPortInit, hp, hu]
  rfl

theorem exec_portInit_clockWrite (hp : s.phase = .exec) (hu : s.upc = 1#4) :
    exec (.portInit m) s = writeHalf s.cfg.aClkOut (bit s.cfg.bClkOut) 0#32 s nextMicro := by
  simp only [exec, execPortInit, hp, hu]
  rfl

theorem exec_portInit_modeRead (hp : s.phase = .exec) (hu : s.upc = 2#4) :
    exec (.portInit m) s = readHalf s.cfg.aModerOut s := by
  simp only [exec, execPortInit, hp, hu]
  rfl

theorem exec_portInit_modeWrite (hp : s.phase = .exec) (hu : s.upc = 3#4) :
    exec (.portInit m) s = writeHalf s.cfg.aModerOut (outSet m) (outClr m) s (respond .ok) := by
  simp only [exec, execPortInit, hp, hu]
  rfl

/-- The clock write of `PORT_INIT` over the word the register holds (R120). -/
theorem exec_portInit_setsClock (h : s.cfg.WF) (hheld : ClockHeld s) (hp : s.phase = .exec) (hu : s.upc = 1#4)
    (ht : LatchedFrom s s.cfg.aClkOut) : exec (.portInit m) s = .next { s with
      regs := s.regs.write s.cfg.aClkOut.toNat (s.reg s.cfg.aClkOut ||| bit s.cfg.bClkOut), upc := 2#4
      trace := s.trace ++ [.busWr s.cfg.aClkOut (s.reg s.cfg.aClkOut ||| bit s.cfg.bClkOut)] } := by
  rw [exec_portInit_clockWrite hp hu, writeHalf_setClock h (by simp) hheld ht, merge_set]
  simp [nextMicro, State.log, State.setReg, hu]

/-- The mode write of `PORT_INIT` with the port clocked, which ends it (R120). -/
theorem exec_portInit_setsMode (h : s.cfg.WF) (hclk : s.outClock = true) (hp : s.phase = .exec) (hu : s.upc = 3#4)
    (ht : s.t = some w) : exec (.portInit m) s = .next { s with
      regs := s.regs.write s.cfg.aModerOut.toNat (merge w (outSet m) (outClr m)), rsp := some .ok, phase := .idle
      trace := s.trace ++ [.busWr s.cfg.aModerOut (merge w (outSet m) (outClr m)), .rsp .ok] } := by
  rw [exec_portInit_modeWrite hp hu, writeHalf_outPort h hclk (.inl rfl) ht, respond_log]
  rfl

/-- Settles O26: each step is a half of a read-modify-write that passes its checks. -/
theorem portInitStepsComplete : Obligations.PortInitStepsComplete := by
  intro s m w hwf hheld hp
  refine ⟨fun hu => ?clockRead, fun hu ht hw => ?clockWrite, fun hu hclk => ?modeRead, fun hu hclk ht => ?modeWrite⟩
  case clockRead =>
    rw [exec_portInit_clockRead hp hu, readHalf_clock hwf (by simp), latchedState_eq, hu]
    rfl
  case clockWrite =>
    subst hw
    exact exec_portInit_setsClock hwf hheld hp hu ht
  case modeRead =>
    rw [exec_portInit_modeRead hp hu, readHalf_outPort hwf hclk (.inl rfl), latchedState_eq, hu]
    rfl
  case modeWrite => exact exec_portInit_setsMode hwf hclk hp hu ht

/-! ### A whole `PORT_INIT` -/

/-- The state a whole `PORT_INIT` leaves (R120). -/
def portInitDone (m : Word) (s : State) : State :=
  { s with
    regs := (s.regs.write s.cfg.aClkOut.toNat (s.reg s.cfg.aClkOut ||| bit s.cfg.bClkOut)).write
      s.cfg.aModerOut.toNat (merge (s.reg s.cfg.aModerOut) (outSet m) (outClr m))
    t := some (s.reg s.cfg.aModerOut), upc := 3#4, rsp := some .ok, phase := .idle
    trace := s.trace ++ [.busRd s.cfg.aClkOut (s.reg s.cfg.aClkOut),
      .busWr s.cfg.aClkOut (s.reg s.cfg.aClkOut ||| bit s.cfg.bClkOut),
      .busRd s.cfg.aModerOut (s.reg s.cfg.aModerOut),
      .busWr s.cfg.aModerOut (merge (s.reg s.cfg.aModerOut) (outSet m) (outClr m)), .rsp .ok] }

/-- The state of `PORT_INIT` after its clock write (R120). -/
def portClocked (s : State) : State :=
  { s with
    phase := .exec, upc := 2#4, t := some (s.reg s.cfg.aClkOut)
    regs := s.regs.write s.cfg.aClkOut.toNat (s.reg s.cfg.aClkOut ||| bit s.cfg.bClkOut)
    trace := s.trace ++ [.busRd s.cfg.aClkOut (s.reg s.cfg.aClkOut),
      .busWr s.cfg.aClkOut (s.reg s.cfg.aClkOut ||| bit s.cfg.bClkOut)] }

theorem portClocked_reg (hr : s.regs.wf) (b : Word) : (portClocked s).reg b =
    if s.cfg.aClkOut = b then s.reg s.cfg.aClkOut ||| bit s.cfg.bClkOut else s.reg b :=
  reg_setReg hr ..

theorem portClocked_outClock (h : s.cfg.WF) (hr : s.regs.wf) : (portClocked s).outClock = true := by
  have hreg : (portClocked s).reg s.cfg.aClkOut = merge (s.reg s.cfg.aClkOut) (bit s.cfg.bClkOut) 0#32 := by
    rw [portClocked_reg hr, if_pos rfl, merge_set]
  exact (congrArg (BitVec.getLsbD · s.cfg.bClkOut) hreg).trans (getLsbD_merge_bit h.bits_lt.1)

theorem execN_portInit_clock (h : s.cfg.WF) (hheld : ClockHeld s) (hp : s.phase = .decode) (m : Word) :
    execN (.portInit m) 3 s = .next (portClocked s) := by
  have hdec : exec (.portInit m) s = .next (enter .exec s) := exec_decode _ hp
  have hread : exec (.portInit m) (enter .exec s) = .next (latchedState s.cfg.aClkOut (enter .exec s)) :=
    (exec_portInit_clockRead rfl rfl).trans (readHalf_clock (s := enter .exec s) h (by simp))
  rw [execN_succ hdec, execN_succ hread,
    execN_succ (exec_portInit_setsClock (s := latchedState s.cfg.aClkOut (enter .exec s)) h hheld rfl rfl rfl), execN]
  simp [portClocked, enter, latchedState_eq, State.reg]

theorem execN_portInit (h : s.cfg.WF) (hr : s.regs.wf) (hheld : ClockHeld s) (hp : s.phase = .decode) (m : Word) :
    execN (.portInit m) 5 s = .next (portInitDone m s) := by
  have hclk := portClocked_outClock h hr
  have hmode : (portClocked s).reg s.cfg.aModerOut = s.reg s.cfg.aModerOut :=
    (portClocked_reg hr _).trans (if_neg (h.clock_ne (by simp) (by simp)))
  have hread : exec (.portInit m) (portClocked s) = .next (latchedState s.cfg.aModerOut (portClocked s)) :=
    (exec_portInit_modeRead rfl rfl).trans (readHalf_outPort (s := portClocked s) h hclk (.inl rfl))
  rw [execN_add (execN_portInit_clock h hheld hp m) 2, execN_succ hread, execN_succ
    (exec_portInit_setsMode (s := latchedState s.cfg.aModerOut (portClocked s)) h hclk rfl rfl rfl), execN]
  simp only [latchedState_eq, hmode]
  simp [portInitDone, portClocked]

/-- Settles O27: the clock update, which clocks the port, then the mode update. -/
theorem portInitRun : Obligations.PortInitRun := fun _ m hwf hr hheld hp => execN_portInit hwf hr hheld hp m

theorem portInitDone_reg (hr : s.regs.wf) (b : Word) : (portInitDone m s).reg b =
    if s.cfg.aModerOut = b then merge (s.reg s.cfg.aModerOut) (outSet m) (outClr m)
    else if s.cfg.aClkOut = b then s.reg s.cfg.aClkOut ||| bit s.cfg.bClkOut else s.reg b := by
  rw [← portClocked_reg hr b]
  exact reg_setReg (s := portClocked s) (Memory.wf_write hr _ _) ..

/-! ### The lanes of the mode register -/

/-- The bits of a mode in the field of pin `n` (R35). -/
theorem getLsbD_modeBits (mode : BitVec 2) (n j : Nat) (hj : j < 32) :
    (modeBits mode n).getLsbD j = (decide (j / 2 = n) && mode.getLsbD (j % 2)) := by
  rw [modeBits, BitVec.getLsbD_shiftLeft]
  by_cases hn : j / 2 = n
  · have hsub : j - 2 * n = j % 2 := by omega
    have hge : ¬j < 2 * n := by omega
    have hlow : j % 2 < 32 := by omega
    simp [hn, hj, hsub, hge, hlow]
  · by_cases hlt : j < 2 * n
    · simp [hn, hlt]
    · have hge : mode.getLsbD (j - 2 * n) = false := BitVec.getLsbD_of_ge _ _ (by omega)
      simp [hn, hge]

/-- The fields of the first `k` pins of a mask (R121). -/
theorem getLsbD_foldl_modeBits (mode : BitVec 2) (m : Word) (k j : Nat) (hj : j < 32) :
    ((List.range k).foldl (fun acc n => if m.getLsbD n then acc ||| modeBits mode n else acc) 0#32).getLsbD j =
      (decide (j / 2 < k) && m.getLsbD (j / 2) && mode.getLsbD (j % 2)) := by
  induction k with
  | zero => simp
  | succ k ih =>
    rw [List.range_succ, List.foldl_append, List.foldl_cons, List.foldl_nil]
    by_cases hjk : j / 2 = k
    · cases hm : m.getLsbD k <;> simp [hm, ih, hjk, getLsbD_modeBits _ _ _ hj]
    · have hlt : j / 2 < k + 1 ↔ j / 2 < k := by omega
      cases m.getLsbD k <;> simp [ih, hjk, hlt, getLsbD_modeBits _ _ _ hj]

theorem getLsbD_modeMask (mode : BitVec 2) (m : Word) {j : Nat} (hj : j < 32) :
    (modeMask mode m).getLsbD j = (m.getLsbD (j / 2) && mode.getLsbD (j % 2)) := by
  have hlt : j / 2 < 16 := by omega
  rw [modeMask, getLsbD_foldl_modeBits _ _ _ _ hj, decide_eq_true hlt, Bool.true_and]

/-- The combined write of `PORT_INIT` puts the pins of the mask in output mode and leaves the others (R121, R125). -/
theorem modeField_merge_out (w m : Word) (n : Fin 16) : modeField (merge w (outSet m) (outClr m)) n =
    if m.getLsbD n then modeOutput else modeField w n := by
  refine BitVec.eq_of_getLsbD_eq fun i hi => ?_
  have hj : 2 * n.val + i < 32 := by omega
  have hpin : (2 * n.val + i) / 2 = n := by omega
  have hbit : (2 * n.val + i) % 2 = i := by omega
  have hall : modeAnalog.getLsbD i = true := by
    obtain rfl | rfl : i = 0 ∨ i = 1 := by omega
    · rfl
    · rfl
  have hfield : ∀ v, (modeField v n).getLsbD i = v.getLsbD (2 * n + i) := fun v => by
    rw [modeField, BitVec.getLsbD_extractLsb', decide_eq_true hi, Bool.true_and]
  rw [hfield, getLsbD_merge, outSet, outClr, getLsbD_modeMask _ _ hj, getLsbD_modeMask _ _ hj, hpin, hbit, hall]
  cases hm : m.getLsbD n with
  | false => simp [hfield]
  | true => simp

/-- Settles O28: the mode register has its fields from the masks, the clock-enable register one more bit. -/
theorem portInitLanes : Obligations.PortInitLanes := by
  intro s t m hwf hr hheld hp h
  rw [execN_portInit hwf hr hheld hp] at h
  obtain rfl := Host.Outcome.next.inj h
  have hne : s.cfg.aModerOut ≠ s.cfg.aClkOut := (hwf.clock_ne (by simp) (by simp)).symm
  have hmode : (portInitDone m s).reg s.cfg.aModerOut = merge (s.reg s.cfg.aModerOut) (outSet m) (outClr m) :=
    (portInitDone_reg hr _).trans (if_pos rfl)
  have hclk : (portInitDone m s).reg s.cfg.aClkOut = merge (s.reg s.cfg.aClkOut) (bit s.cfg.bClkOut) 0#32 := by
    rw [portInitDone_reg hr, if_neg hne, if_pos rfl, merge_set]
  refine ⟨?clocked, fun n hn => ?inMask, fun n hn => ?outside, fun j hj => ?otherClocks⟩
  case clocked =>
    refine (clocked_port (s := portInitDone m s) hwf (.inl rfl)).trans ?_
    exact (congrArg (BitVec.getLsbD · s.cfg.bClkOut) hclk).trans (getLsbD_merge_bit hwf.bits_lt.1)
  case inMask => rw [hmode, modeField_merge_out, if_pos hn, modeOutput]
  case outside => rw [hmode, modeField_merge_out, hn, if_neg Bool.false_ne_true]
  case otherClocks =>
    rw [hclk]
    exact getLsbD_merge_of_unmasked (by simp [getLsbD_bit, hj.symm])

/-! ### `PIN_SET` -/

theorem pinSetWord_eq (pin : BitVec 4) (level : Bool) (w : Word) :
    pinSetWord pin level w = if level then w ||| bit pin.toNat else w &&& ~~~bit pin.toNat := by
  rw [pinSetWord, merge_set, merge_clear]

/-- `PIN_SET` changes no bit but its pin's (R126). -/
theorem pinSetWord_getLsbD_ne (level : Bool) (w : Word) {j : Nat} (hj : j ≠ pin.toNat) :
    (pinSetWord pin level w).getLsbD j = w.getLsbD j := by
  have hbit : (bit pin.toNat).getLsbD j = false := by simp [getLsbD_bit, hj.symm]
  cases level <;> exact getLsbD_merge_of_unmasked (by simp [hbit])

/-- A second write of the same level changes nothing (R126). -/
theorem pinSetWord_idem (pin : BitVec 4) (level : Bool) (w : Word) :
    pinSetWord pin level (pinSetWord pin level w) = pinSetWord pin level w := by
  cases level <;> exact merge_merge ..

/-- Settles O29: the two halves of a read-modify-write of the output-data register. -/
theorem pinSetStepsComplete : Obligations.PinSetStepsComplete := by
  intro s pin level w hwf hp hclk
  refine ⟨fun hu => ?read, fun hu ht => ?write⟩
  case read =>
    rw [exec_pinSet_read hp hu, readHalf_outPort hwf hclk (.inr rfl), latchedState_eq, hu]
    rfl
  case write =>
    rw [exec_pinSet_write hwf hclk hp hu ht, respond_log, pinSetWord_eq]
    rfl

/-- A whole `PIN_SET` with the port clocked (R122). -/
theorem execN_pinSet_clocked (h : s.cfg.WF) (hclk : s.outClock = true) (hp : s.phase = .decode) :
    execN (.pinSet pin level) 3 s = .next (pinSetDone pin level s) := by
  have hread : exec (.pinSet pin level) (enter .exec s) = .next (latchedState s.cfg.aOdrOut (enter .exec s)) :=
    (exec_pinSet_read rfl rfl).trans (readHalf_outPort (s := enter .exec s) h hclk (.inr rfl))
  rw [execN_succ (exec_pinSet_decode hp), execN_succ hread, execN_succ
    (exec_pinSet_write (s := latchedState s.cfg.aOdrOut (enter .exec s)) h hclk rfl rfl rfl)]
  rfl

theorem pinSetDone_trace : (pinSetDone pin level s).trace = s.trace ++
    [.busRd s.cfg.aOdrOut (s.reg s.cfg.aOdrOut), .busWr s.cfg.aOdrOut (pinSetWord pin level (s.reg s.cfg.aOdrOut)),
      .rsp .ok] := by
  simp [pinSetDone, State.reg]

/-- A `PIN_SET` that finds its pin at its level stores the word the register holds (R126). -/
theorem pinSetDone_regs_of_set (hr : s.regs.wf)
    (h : pinSetWord pin level (s.reg s.cfg.aOdrOut) = s.reg s.cfg.aOdrOut) :
    (pinSetDone pin level s).regs = s.regs := by
  have hregs : (pinSetDone pin level s).regs =
      s.regs.write s.cfg.aOdrOut.toNat (pinSetWord pin level (s.reg s.cfg.aOdrOut)) := rfl
  rw [hregs, h]
  exact Memory.write_read hr _

/-- Settles O30: the port stays clocked, so the second `PIN_SET` runs too, and it finds its bit as it writes it. -/
theorem pinSetIsIdempotent : Obligations.PinSetIsIdempotent := by
  intro s t pin level hwf hr hp h
  obtain ⟨hclk, rfl⟩ := execN_pinSet hwf hp h
  have hodr : (pinSetDone pin level s).reg s.cfg.aOdrOut = pinSetWord pin level (s.reg s.cfg.aOdrOut) :=
    (pinSetDone_reg hr _).trans (if_pos rfl)
  refine ⟨fun b hb => ?others, fun j hj => ?otherBits, ?ownBit, ?again⟩
  case others => exact (pinSetDone_reg hr b).trans (if_neg fun hab => hb (by simp [hab]))
  case otherBits => rw [hodr, pinSetWord_getLsbD_ne level _ hj]
  case ownBit => rw [hodr, pinSetWord_getLsbD]
  case again =>
    have hclk' : (pinSetDone pin level s).outClock = true := (pinSetDone_outClock hwf hr).trans hclk
    have hset : pinSetWord pin level ((pinSetDone pin level s).reg s.cfg.aOdrOut) =
        (pinSetDone pin level s).reg s.cfg.aOdrOut := by rw [hodr, pinSetWord_idem]
    refine ⟨_, execN_pinSet_clocked hwf hclk' rfl, pinSetDone_regs_of_set (Memory.wf_write hr _ _) hset,
      [.rsp .ok], pinSetDone_trace.trans ?_⟩
    exact congrArg (fun v => (pinSetDone pin level s).trace ++
      [.busRd s.cfg.aOdrOut ((pinSetDone pin level s).reg s.cfg.aOdrOut), .busWr s.cfg.aOdrOut v, .rsp .ok]) hset

/-! ### What `PORT_INIT` and `PIN_SET` leave alone -/

/-- A micro-operation of `PORT_INIT` that answers a next state, by micro-step (R120). -/
theorem exec_portInit_cases (h : exec (.portInit m) s = .next t) :
    t = enter .exec s ∨ readHalf s.cfg.aClkOut s = .next t ∨
      (s.upc = 1#4 ∧ writeHalf s.cfg.aClkOut (bit s.cfg.bClkOut) 0#32 s nextMicro = .next t) ∨
      readHalf s.cfg.aModerOut s = .next t ∨
      (s.upc = 3#4 ∧ writeHalf s.cfg.aModerOut (outSet m) (outClr m) s (respond .ok) = .next t) := by
  simp only [exec, execPortInit] at h
  split at h
  · exact .inl (Host.Outcome.next.inj h).symm
  · split at h
    · exact .inr (.inl h)
    · exact .inr (.inr (.inl ⟨BitVec.eq_of_toNat_eq ‹_›, h⟩))
    · exact .inr (.inr (.inr (.inl h)))
    · exact .inr (.inr (.inr (.inr ⟨BitVec.eq_of_toNat_eq ‹_›, h⟩)))
    · cases h
  · cases h

/-- A micro-operation of `PIN_SET` that answers a next state, by micro-step (R122). -/
theorem exec_pinSet_cases (h : exec (.pinSet pin level) s = .next t) :
    t = enter .exec s ∨ readHalf s.cfg.aOdrOut s = .next t ∨
      (s.upc = 1#4 ∧ ∃ x y, writeHalf s.cfg.aOdrOut x y s (respond .ok) = .next t) := by
  simp only [exec, execPinSet] at h
  split at h
  · exact .inl (Host.Outcome.next.inj h).symm
  · split at h
    · exact .inr (.inl h)
    · refine .inr (.inr ⟨BitVec.eq_of_toNat_eq ‹_›, ?_⟩)
      split at h
      · exact ⟨_, _, h⟩
      · exact ⟨_, _, h⟩
    · cases h
  · cases h

/-- The frame of a micro-operation that writes none but the listed registers, `A_CR` not among them. -/
structure UpdatesOnly (written : List Word) (s t : State) : Prop where
  cnt : t.cnt = s.cnt
  regs : RegsKeptBut written s t
  eoc : t.eoc = s.eoc
  conv : t.conv = s.conv
  draws : t.draws = s.draws
  settled : s.cfg.aClkAdc ∉ written → t.settled = s.settled

/-- A micro-operation that writes no register, whatever registers are listed. -/
theorem UpdatesOnly.of_same {l : List Word} (hcnt : t.cnt = s.cnt) (hr : t.regs = s.regs) (hc : SameConverter s t) :
    UpdatesOnly l s t := by
  obtain ⟨heoc, hconv, hset, hdraws⟩ := hc
  exact ⟨hcnt, fun b _ => by rw [State.reg, hr, State.reg], heoc, hconv, hdraws, fun _ => hset⟩

theorem UpdatesOnly.enter {l : List Word} (p : Phase) : UpdatesOnly l s (enter p s) :=
  .of_same rfl rfl ⟨rfl, rfl, rfl, rfl⟩

theorem UpdatesOnly.takeFault {l : List Word} (c : Cause) (a : Word) : UpdatesOnly l s (takeFault c a s) :=
  .of_same rfl rfl ⟨rfl, rfl, rfl, rfl⟩

theorem UpdatesOnly.afterWrite (hr : s.regs.wf) (hcr : a ≠ s.cfg.aCr) (v : Word) :
    UpdatesOnly [a] s (afterWrite a v s) := by
  obtain ⟨heoc, hconv, hdraws⟩ := afterWrite_quiet v hcr
  refine ⟨afterWrite_cnt a v s, fun b hb => ?_, heoc, hconv, hdraws, fun hck => ?_⟩
  · exact (afterWrite_reg hr a v b).trans (if_neg fun hab => hb (by simp [hab]))
  · exact afterWrite_settled_ne v hcr fun hab => hck (by simp [hab])

theorem UpdatesOnly.nextMicro {l : List Word} (h : UpdatesOnly l s t) : UpdatesOnly l s (nextMicro t) :=
  ⟨h.cnt, h.regs, h.eoc, h.conv, h.draws, h.settled⟩

theorem UpdatesOnly.respond {l : List Word} (h : UpdatesOnly l s t) (r : Response) : UpdatesOnly l s (respond r t) :=
  ⟨h.cnt, h.regs, h.eoc, h.conv, h.draws, h.settled⟩

/-- A read half of a register without read effects writes nothing (R64, R66). -/
theorem UpdatesOnly.of_readHalf {l : List Word} (hsr : a ≠ s.cfg.aSr) (hdr : a ≠ s.cfg.aDr)
    (h : readHalf a s = .next t) : UpdatesOnly l s t := by
  obtain ⟨hread, -⟩ := afterRead_plain hsr hdr
  rcases onRead_next h with ⟨c, rfl⟩ | rfl
  · exact .takeFault c a
  · rw [hread]
    exact .of_same rfl rfl ⟨rfl, rfl, rfl, rfl⟩

/-- A write half outside `A_CR` writes its register, or faults (R65, R156). -/
theorem UpdatesOnly.of_writeHalf {k : State → State} (hr : s.regs.wf) (hcr : a ≠ s.cfg.aCr)
    (hk : ∀ u, UpdatesOnly [a] s u → UpdatesOnly [a] s (k u)) (h : writeHalf a x y s k = .next t) :
    UpdatesOnly [a] s t := by
  rcases writeHalf_next h with ⟨-, rfl⟩ | ⟨w, -, rfl⟩
  · exact .takeFault ..
  · split
    · exact .takeFault ..
    · exact hk _ (.afterWrite hr hcr _)

theorem exec_portInit_updatesOnly (hwf : s.cfg.WF) (hr : s.regs.wf) (h : exec (.portInit m) s = .next t) :
    UpdatesOnly (if s.upc = 1#4 then [s.cfg.aClkOut] else if s.upc = 3#4 then [s.cfg.aModerOut] else []) s t := by
  have hclk : s.cfg.aClkOut ∈ s.cfg.clockAddresses := by simp
  obtain ⟨hcsr, hcdr⟩ := Cfg.WF.clock_plain hwf hclk
  obtain ⟨-, hmsr, hmdr, hmcr, -⟩ := Cfg.WF.outPort_plain hwf (a := s.cfg.aModerOut) (.inl rfl)
  rcases exec_portInit_cases h with rfl | hread | ⟨hu, hwrite⟩ | hread | ⟨hu, hwrite⟩
  · exact .enter _
  · exact .of_readHalf hcsr hcdr hread
  · rw [if_pos hu]
    exact .of_writeHalf hr (hwf.clock_ne hclk (by simp)) (fun _ => .nextMicro) hwrite
  · exact .of_readHalf hmsr hmdr hread
  · rw [if_neg (by simp [hu]), if_pos hu]
    exact .of_writeHalf hr hmcr (fun _ h => h.respond _) hwrite

theorem exec_pinSet_updatesOnly (hwf : s.cfg.WF) (hr : s.regs.wf) (h : exec (.pinSet pin level) s = .next t) :
    UpdatesOnly (if s.upc = 1#4 then [s.cfg.aOdrOut] else []) s t := by
  obtain ⟨-, hsr, hdr, hcr, -⟩ := Cfg.WF.outPort_plain hwf (a := s.cfg.aOdrOut) (.inr rfl)
  rcases exec_pinSet_cases h with rfl | hread | ⟨hu, x, y, hwrite⟩
  · exact .enter _
  · exact .of_readHalf hsr hdr hread
  · rw [if_pos hu]
    exact .of_writeHalf hr hcr (fun _ h => h.respond _) hwrite

/-- Settles O32: the frame of every micro-operation, and of the one half each of these is. -/
theorem digitalOutputFrame : Obligations.DigitalOutputFrame := by
  refine ⟨fun s t m hwf hr h => ?portInit, fun s t pin level hwf hr h => ?pinSet⟩
  case portInit =>
    obtain ⟨hcmd, hfault, hrsp, htrace⟩ := (exec_micro h).frame
    have hupd := exec_portInit_updatesOnly hwf hr h
    refine ⟨hcmd, hfault, hrsp, htrace, hupd.cnt, hupd.eoc, hupd.conv, hupd.draws, fun hne => hupd.settled ?_,
      hupd.regs⟩
    have hmode : s.cfg.aClkAdc ≠ s.cfg.aModerOut := hwf.clock_ne (by simp) (by simp)
    split_ifs <;> simp [hne.symm, hmode]
  case pinSet =>
    obtain ⟨hcmd, hfault, hrsp, htrace⟩ := (exec_micro h).frame
    have hupd := exec_pinSet_updatesOnly hwf hr h
    refine ⟨hcmd, hfault, hrsp, htrace, hupd.cnt, ⟨hupd.eoc, hupd.conv, hupd.settled ?_, hupd.draws⟩, hupd.regs⟩
    have hodr : s.cfg.aClkAdc ≠ s.cfg.aOdrOut := hwf.clock_ne (by simp) (by simp)
    split_ifs <;> simp [hodr]

/-! ### Where the driver commands fault -/

theorem exec_adcInit_sequenceWrite (hp : s.phase = .exec) (hu : s.upc = 7#4) :
    exec .adcInit s = writeHalf s.cfg.aSqr (sensorChannelBits s.cfg) (sq1Mask s.cfg) s nextMicro := by
  simp only [exec, execAdcInit, hp, hu]
  rfl

theorem exec_adcRead_controlRead (hp : s.phase = .startRequested) (hu : s.upc = 0#4) :
    exec .adcRead s = readHalf s.cfg.aCr s := by
  simp only [exec, execAdcRead, hp, hu]
  rfl

theorem exec_adcRead_controlWrite (hp : s.phase = .startRequested) (hu : s.upc = 1#4) :
    exec .adcRead s = writeHalf s.cfg.aCr (bit s.cfg.bStart) 0#32 s startPolling := by
  simp only [exec, execAdcRead, hp, hu]
  rfl

/-- A read half of a gated-off register faults (R68). -/
theorem readHalf_unclocked (h : s.cfg.WF) (ha : a ∈ mapped s.cfg) (hc : s.clocked a = false) :
    readHalf a s = .next (takeFault .unclocked a s) :=
  onRead_fault (accessFault_unclocked h ha hc) _

/-- A write half that would disturb a conversion in flight faults (R69). -/
theorem writeHalf_disturbs (hchk : writeCheck s a = none) (ht : s.t = some w) (hd : s.disturbs a (merge w x y) = true)
    (k : State → State) : writeHalf a x y s k = .next (takeFault .converterDisturbed a s) := by
  rw [writeHalf_some ht, writeFault_passed hchk, if_pos hd]

/-- Settles O44: two gated-off reads, and two writes the conversion in flight forbids. -/
theorem driverCommandsFault : Obligations.DriverCommandsFault := by
  intro s pin level w hwf
  obtain ⟨-, hsqsr, hsqdr, hcrsr, hcrdr, -⟩ := hwf.converter_nodup
  refine ⟨fun hp hu hclk => ?pinSet, fun hp hu hclk ht hconv => ?adcInit, fun hp hu hclk => ?adcReadGated,
    fun hp hu hclk ht hconv => ?adcReadInFlight⟩
  case pinSet =>
    exact (exec_pinSet_read hp hu).trans
      (readHalf_unclocked hwf (by simp [mapped]) ((clocked_port hwf (.inr rfl)).trans hclk))
  case adcInit =>
    have hchk : writeCheck s s.cfg.aSqr = none :=
      writeCheck_clocked hwf (by simp [mapped]) ((clocked_converter hwf (by simp)).trans hclk) hsqsr hsqdr
    exact (exec_adcInit_sequenceWrite hp hu).trans
      (writeHalf_disturbs hchk ht (disturbs_iff.mpr ⟨hconv, .inr (.inl rfl)⟩) _)
  case adcReadGated =>
    exact (exec_adcRead_controlRead hp hu).trans
      (readHalf_unclocked hwf (by simp [mapped]) ((clocked_converter hwf (by simp)).trans hclk))
  case adcReadInFlight =>
    have hchk : writeCheck s s.cfg.aCr = none :=
      writeCheck_clocked hwf (by simp [mapped]) ((clocked_converter hwf (by simp)).trans hclk) hcrsr hcrdr
    have hstart : (merge w (bit s.cfg.bStart) 0#32).getLsbD s.cfg.bStart = true :=
      getLsbD_merge_bit hwf.bits_lt.2.2.2.2.1
    exact (exec_adcRead_controlWrite hp hu).trans
      (writeHalf_disturbs hchk ht (disturbs_iff.mpr ⟨hconv, .inl ⟨rfl, .inl hstart⟩⟩) _)

end Sys2Proof.Machine

/-! SUPPORT and PROOFS. The family 42_analog_input.md. The five updates of `ADC_INIT` are one table (`AdcInitUpdate`), from
which its register steps, its whole run and its frame are read off; a second run keeps an invariant of initialised
registers (`Reinitialises`). A write of `A_CR` with START is one update of the state (`afterWrite_starts`), shared by `WR`
and `ADC_READ`; fruitless polls are the iteration of one function (`polledOn`), which the statements on time-out, on the
endless poll and on a whole `ADC_READ` share. -/

namespace Sys2Proof.Machine

variable {s t u : State} {a v w x y : Word} {n : BitVec 4}

/-! ### The register steps of `ADC_INIT` -/

/-- The five read-modify-writes of `ADC_INIT`: micro-step of the read half, register and the two masks (R140). -/
inductive AdcInitUpdate (c : Cfg) : BitVec 4 → Word → Word → Word → Prop where
  | clockAn : AdcInitUpdate c 0#4 c.aClkAn (bit c.bClkAn) 0#32
  | clockAdc : AdcInitUpdate c 2#4 c.aClkAdc (bit c.bClkAdc) 0#32
  | mode : AdcInitUpdate c 4#4 c.aModerAn (modeBits modeAnalog c.pinSensor) 0#32
  | sequence : AdcInitUpdate c 6#4 c.aSqr (sensorChannelBits c) (sq1Mask c)
  | control : AdcInitUpdate c 8#4 c.aCr (bit c.bAdon) 0#32

/-- How `ADC_INIT` goes on from the write half of an update: to the next one, or from the last to its wait (R140). -/
def adcInitGoesOn (n : BitVec 4) : State → State := if n = 8#4 then beginStab else nextMicro

theorem exec_adcInit_read (h : AdcInitUpdate s.cfg n a x y) (hp : s.phase = .exec) (hu : s.upc = n) :
    exec .adcInit s = readHalf a s := by
  cases h <;> simp only [exec, execAdcInit, hp, hu] <;> rfl

theorem exec_adcInit_write (h : AdcInitUpdate s.cfg n a x y) (hp : s.phase = .exec) (hu : s.upc = n + 1#4) :
    exec .adcInit s = writeHalf a x y s (adcInitGoesOn n) := by
  cases h <;> simp only [exec, execAdcInit, hp, hu] <;> rfl

theorem exec_adcInit_wait (hp : s.phase = .stabWait) : exec .adcInit s = stabTick s := by
  simp only [exec, execAdcInit, hp]

/-- A half of an update that answers a next state (R140). -/
inductive AdcInitHalf (s t : State) : Prop where
  | read (n : BitVec 4) (a x y : Word) (hupd : AdcInitUpdate s.cfg n a x y) (hp : s.phase = .exec) (hu : s.upc = n)
      (h : readHalf a s = .next t)
  | write (n : BitVec 4) (a x y : Word) (hupd : AdcInitUpdate s.cfg n a x y) (hp : s.phase = .exec)
      (hu : s.upc = n + 1#4) (h : writeHalf a x y s (adcInitGoesOn n) = .next t)

/-- A micro-operation of `ADC_INIT` that answers a next state, by phase and micro-step (R140, R145). -/
theorem exec_adcInit_cases (h : exec .adcInit s = .next t) :
    t = enter .exec s ∨ AdcInitHalf s t ∨ (s.phase = .stabWait ∧ stabTick s = .next t) := by
  simp only [exec, execAdcInit] at h
  split at h
  · exact .inl (Host.Outcome.next.inj h).symm
  · rename_i hp
    refine .inr (.inl ?_)
    split at h
    · exact .read _ _ _ _ .clockAn hp (BitVec.eq_of_toNat_eq ‹_›) h
    · exact .write _ _ _ _ .clockAn hp (BitVec.eq_of_toNat_eq ‹_›) h
    · exact .read _ _ _ _ .clockAdc hp (BitVec.eq_of_toNat_eq ‹_›) h
    · exact .write _ _ _ _ .clockAdc hp (BitVec.eq_of_toNat_eq ‹_›) h
    · exact .read _ _ _ _ .mode hp (BitVec.eq_of_toNat_eq ‹_›) h
    · exact .write _ _ _ _ .mode hp (BitVec.eq_of_toNat_eq ‹_›) h
    · exact .read _ _ _ _ .sequence hp (BitVec.eq_of_toNat_eq ‹_›) h
    · exact .write _ _ _ _ .sequence hp (BitVec.eq_of_toNat_eq ‹_›) h
    · exact .read _ _ _ _ .control hp (BitVec.eq_of_toNat_eq ‹_›) h
    · exact .write _ _ _ _ .control hp (BitVec.eq_of_toNat_eq ‹_›) h
    · cases h
  · exact .inr (.inr ⟨‹_›, h⟩)
  · cases h

/-- The registers of `ADC_INIT` are mapped, and none has read effects (W2, W3). -/
theorem AdcInitUpdate.plain {c : Cfg} (h : AdcInitUpdate c n a x y) (hwf : c.WF) :
    a ∈ mapped c ∧ a ≠ c.aSr ∧ a ≠ c.aDr := by
  obtain ⟨-, hsqsr, hsqdr, hcrsr, hcrdr, -⟩ := hwf.converter_nodup
  cases h with
  | clockAn => exact ⟨by simp [mapped], hwf.clock_ne (by simp) (by simp), hwf.clock_ne (by simp) (by simp)⟩
  | clockAdc => exact ⟨by simp [mapped], hwf.clock_ne (by simp) (by simp), hwf.clock_ne (by simp) (by simp)⟩
  | mode => exact ⟨by simp [mapped], (hwf.converter_ne (by simp) (by simp)).symm,
      (hwf.converter_ne (by simp) (by simp)).symm⟩
  | sequence => exact ⟨by simp [mapped], hsqsr, hsqdr⟩
  | control => exact ⟨by simp [mapped], hcrsr, hcrdr⟩

/-- A read step of `ADC_INIT` whose register is clocked latches its word (R140). -/
theorem exec_adcInit_latches (h : AdcInitUpdate s.cfg n a x y) (hwf : s.cfg.WF) (hc : s.clocked a = true)
    (hp : s.phase = .exec) (hu : s.upc = n) : exec .adcInit s = .next { s with
      t := some (s.reg a), upc := n + 1#4, trace := s.trace ++ [.busRd a (s.reg a)] } := by
  obtain ⟨hmap, hsr, hdr⟩ := h.plain hwf
  rw [exec_adcInit_read h hp hu, readHalf_clocked hwf hmap hc hsr hdr]
  exact congrArg _ ((latchedState_eq a s).trans (by rw [hu]))

/-- What a write step of `ADC_INIT` before the last leaves (R140). -/
theorem nextMicro_written (hu : s.upc = n + 1#4) (a v : Word) :
    nextMicro ((s.setReg a v).log (.busWr a v)) = { s with
      regs := s.regs.write a.toNat v, upc := n + 1#4 + 1#4, trace := s.trace ++ [.busWr a v] } := by
  rw [← hu]
  rfl

/-- A write step of `ADC_INIT` whose access has no effect but the store (R65, R140). -/
theorem exec_adcInit_stores (h : AdcInitUpdate s.cfg n a x y) (hn : n ≠ 8#4) (hp : s.phase = .exec)
    (hu : s.upc = n + 1#4)
    (hw : ∀ k, writeHalf a x y s k = .next (k ((s.setReg a v).log (.busWr a v)))) :
    exec .adcInit s = .next { s with
      regs := s.regs.write a.toNat v, upc := n + 1#4 + 1#4, trace := s.trace ++ [.busWr a v] } := by
  rw [exec_adcInit_write h hp hu, hw, adcInitGoesOn, if_neg hn, nextMicro_written hu]

/-- Writing the converter's clock register with its bit set disturbs nothing and keeps `SETTLED` (R69, R156). -/
theorem writeHalf_setAdcClock (hwf : s.cfg.WF) (ht : s.t = some w) (k : State → State) :
    writeHalf s.cfg.aClkAdc (bit s.cfg.bClkAdc) 0#32 s k = .next (k ((s.setReg s.cfg.aClkAdc
      (merge w (bit s.cfg.bClkAdc) 0#32)).log (.busWr s.cfg.aClkAdc (merge w (bit s.cfg.bClkAdc) 0#32)))) := by
  have hmem : s.cfg.aClkAdc ∈ s.cfg.clockAddresses := by simp
  have hcr : s.cfg.aClkAdc ≠ s.cfg.aCr := hwf.clock_ne hmem (by simp)
  obtain ⟨hsr, hdr⟩ := Cfg.WF.clock_plain hwf hmem
  have hon : (merge w (bit s.cfg.bClkAdc) 0#32).getLsbD s.cfg.bClkAdc = true := getLsbD_merge_bit hwf.bits_lt.2.2.1
  have hf : writeFault s s.cfg.aClkAdc (merge w (bit s.cfg.bClkAdc) 0#32) = none :=
    writeFault_none.mpr ⟨writeCheck_clocked hwf (List.mem_append_left _ hmem) (clocked_clock hmem) hsr hdr,
      disturbs_clock hcr (hwf.clock_ne hmem (by simp)) (.inr hon)⟩
  rw [writeHalf_some ht, hf, afterWrite_clock hcr, hon]
  rfl

/-- The register of the sensor pin's mode is of the plain kind (W2, W3). -/
theorem writeHalf_mode (hwf : s.cfg.WF) (hclk : s.anClock = true) (ht : s.t = some w) (x y : Word)
    (k : State → State) : writeHalf s.cfg.aModerAn x y s k = .next (k ((s.setReg s.cfg.aModerAn (merge w x y)).log
      (.busWr s.cfg.aModerAn (merge w x y)))) := by
  obtain ⟨hsr, hdr⟩ := Cfg.WF.port_plain hwf (a := s.cfg.aModerAn) (by simp)
  have hcr : s.cfg.aModerAn ≠ s.cfg.aCr := (hwf.converter_ne (by simp) (by simp)).symm
  have hck : s.cfg.aModerAn ≠ s.cfg.aClkAdc := (hwf.clock_ne (by simp) (by simp)).symm
  have hsq : s.cfg.aModerAn ≠ s.cfg.aSqr := (hwf.converter_ne (by simp) (by simp)).symm
  exact writeHalf_plain hwf (by simp [mapped]) ((clocked_moderAn hwf).trans hclk) hsr hdr hcr hck
    (fun h => absurd h hsq) ht x y k

/-- The sequence register is of the plain kind while no conversion is in flight (R69). -/
theorem writeHalf_sequence (hwf : s.cfg.WF) (hclk : s.adcClock = true) (hidle : s.conv = .idle) (ht : s.t = some w)
    (x y : Word) (k : State → State) : writeHalf s.cfg.aSqr x y s k = .next (k ((s.setReg s.cfg.aSqr (merge w x y)).log
      (.busWr s.cfg.aSqr (merge w x y)))) := by
  obtain ⟨hcr, hsr, hdr, -⟩ := hwf.converter_nodup
  exact writeHalf_plain hwf (by simp [mapped]) ((clocked_converter hwf (by simp)).trans hclk) hsr hdr hcr
    (hwf.clock_ne (by simp) (by simp)).symm (fun _ => hidle) ht x y k

/-- The state the last write of `ADC_INIT` leaves, over the word `A_CR` holds: ADON set, and `SETTLED` cleared if that
changed it (R140, R156). -/
def adonSet (s : State) : State :=
  { s with
    regs := s.regs.write s.cfg.aCr.toNat (s.reg s.cfg.aCr ||| bit s.cfg.bAdon), settled := s.settled && s.adon
    trace := s.trace ++ [.busWr s.cfg.aCr (s.reg s.cfg.aCr ||| bit s.cfg.bAdon)] }

theorem adonSet_adon (hwf : s.cfg.WF) (hr : s.regs.wf) : (adonSet s).adon = true := by
  have hreg : (adonSet s).reg s.cfg.aCr = merge (s.reg s.cfg.aCr) (bit s.cfg.bAdon) 0#32 := by
    rw [State.reg, adonSet, Memory.read_write hr, if_pos rfl, merge_set]
  exact (congrArg (BitVec.getLsbD · s.cfg.bAdon) hreg).trans (getLsbD_merge_bit hwf.bits_lt.2.2.2.1)

/-- Setting ADON over a word with START clear leaves START clear (W6). -/
theorem getLsbD_start_setAdon (hwf : s.cfg.WF) (htrig : TriggerClear s) :
    (merge (s.reg s.cfg.aCr) (bit s.cfg.bAdon) 0#32).getLsbD s.cfg.bStart = false := by
  rw [getLsbD_merge_of_unmasked (by simp [getLsbD_bit, hwf.w6.2.1]), htrig]

/-- Setting ADON over the word `A_CR` holds starts nothing, so it disturbs nothing (R69, R140, R156). -/
theorem writeHalf_control (hwf : s.cfg.WF) (hclk : s.adcClock = true) (ht : LatchedFrom s s.cfg.aCr)
    (htrig : TriggerClear s) (k : State → State) :
    writeHalf s.cfg.aCr (bit s.cfg.bAdon) 0#32 s k = .next (k (adonSet s)) := by
  obtain ⟨hsqcr, -, -, hcrsr, hcrdr, -⟩ := hwf.converter_nodup
  have hne : s.cfg.aCr ≠ s.cfg.aClkAdc := (hwf.clock_ne (by simp) (by simp)).symm
  have hon : (merge (s.reg s.cfg.aCr) (bit s.cfg.bAdon) 0#32).getLsbD s.cfg.bAdon = true :=
    getLsbD_merge_bit hwf.bits_lt.2.2.2.1
  have hst := getLsbD_start_setAdon hwf htrig
  have hf : writeFault s s.cfg.aCr (merge (s.reg s.cfg.aCr) (bit s.cfg.bAdon) 0#32) = none :=
    writeFault_none.mpr ⟨writeCheck_clocked hwf (by simp [mapped]) ((clocked_converter hwf (by simp)).trans hclk)
      hcrsr hcrdr, disturbs_control hne hsqcr.symm (.inr ⟨hst, hon⟩)⟩
  rw [writeHalf_some ht, hf, afterWrite_control hne hst, hon, unsettleIf_eq, merge_set]
  cases hs : s.adon <;> simp only [adonSet, hs] <;> rfl

/-- The last register step of `ADC_INIT`, over the word `A_CR` holds (R140). -/
theorem exec_adcInit_setsAdon (hwf : s.cfg.WF) (hclk : s.adcClock = true) (ht : LatchedFrom s s.cfg.aCr)
    (htrig : TriggerClear s) (hp : s.phase = .exec) (hu : s.upc = 9#4) :
    exec .adcInit s = .next (beginStab (adonSet s)) := by
  rw [exec_adcInit_write .control hp hu, writeHalf_control hwf hclk ht htrig]
  rfl

/-- With no wait to make, `ADC_INIT` ends at once (R140, R146). -/
theorem beginStab_of_no_wait (h : s.cfg.stabCount = 0) : beginStab s = endStab s := if_pos h

theorem beginStab_of_wait (h : s.cfg.stabCount ≠ 0) :
    beginStab s = setPhase .stabWait (setCnt s.cfg.stabCount s) := if_neg h

/-- Settles O33: each register step is a half of one of the five updates, and the wait counts or ends. -/
theorem adcInitStepsComplete : Obligations.AdcInitStepsComplete := by
  intro s w hwf read write
  have hadc : ∀ {b}, b ∈ [s.cfg.aSqr, s.cfg.aCr] → s.adcClock = true → s.clocked b = true := fun hb hc =>
    (clocked_converter hwf (by simp at hb ⊢; tauto)).trans hc
  refine ⟨fun hp hu => ?clockAnRead, fun hp hu ht hw hheld => ?clockAnWrite, fun hp hu => ?clockAdcRead,
    fun hp hu ht => ?clockAdcWrite, fun hp hu hc => ?modeRead, fun hp hu hc ht => ?modeWrite,
    fun hp hu hc => ?sequenceRead, fun hp hu hc ht hidle => ?sequenceWrite, fun hp hu hc => ?controlRead,
    fun hp hu hc ht hw htrig hk => ?controlWaits, fun hp hu hc ht hw htrig hr hk => ?controlEnds,
    fun hp hk => ?tick, fun hp hk => ?lastTick⟩
  case clockAnRead => exact exec_adcInit_latches .clockAn hwf (clocked_clock (by simp)) hp hu
  case clockAdcRead => exact exec_adcInit_latches .clockAdc hwf (clocked_clock (by simp)) hp hu
  case modeRead => exact exec_adcInit_latches .mode hwf ((clocked_moderAn hwf).trans hc) hp hu
  case sequenceRead => exact exec_adcInit_latches .sequence hwf (hadc (by simp) hc) hp hu
  case controlRead => exact exec_adcInit_latches .control hwf (hadc (by simp) hc) hp hu
  case clockAnWrite =>
    obtain rfl : s.reg s.cfg.aClkAn = w := Option.some.inj (hw.symm.trans ht)
    rw [← merge_set]
    exact exec_adcInit_stores .clockAn (by decide) hp hu (writeHalf_setClock hwf (by simp) hheld hw _)
  case clockAdcWrite =>
    rw [← merge_set]
    exact exec_adcInit_stores .clockAdc (by decide) hp hu (writeHalf_setAdcClock hwf ht)
  case modeWrite =>
    rw [← merge_set]
    exact exec_adcInit_stores .mode (by decide) hp hu (writeHalf_mode hwf hc ht _ _)
  case sequenceWrite => exact exec_adcInit_stores .sequence (by decide) hp hu (writeHalf_sequence hwf hc hidle ht _ _)
  case controlWaits =>
    obtain rfl : s.reg s.cfg.aCr = w := Option.some.inj (hw.symm.trans ht)
    rw [exec_adcInit_setsAdon hwf hc hw htrig hp hu, beginStab_of_wait (s := adonSet s) hk]
    simp [setPhase, setCnt, adonSet, write, hu]
  case controlEnds =>
    obtain rfl : s.reg s.cfg.aCr = w := Option.some.inj (hw.symm.trans ht)
    rw [exec_adcInit_setsAdon hwf hc hw htrig hp hu, beginStab_of_no_wait (s := adonSet s) hk, endStab_eq,
      adonSet_adon hwf hr]
    simp [adonSet, write, hu]
  case tick =>
    obtain ⟨k, hk⟩ : ∃ k, s.cnt = k + 1 + 1 := ⟨s.cnt - 2, by omega⟩
    rw [exec_adcInit_wait hp, stabTick, hk]
    rfl
  case lastTick =>
    rw [exec_adcInit_wait hp, stabTick, hk]
    exact congrArg _ (endStab_eq (setCnt 0 s))

/-! ### The wait of `ADC_INIT` -/

/-- Wait steps before the last only count down (R145). -/
theorem execN_stabWait_ticks {j k : Nat} (hp : s.phase = .stabWait) (hc : s.cnt = k + 1 + j) :
    execN .adcInit j s = .next (setCnt (k + 1) s) := by
  induction j generalizing s with
  | zero =>
    rw [setCnt, ← hc]
    rfl
  | succ j ih =>
    have hne : k + 1 + j ≠ 0 := by omega
    have htick : exec .adcInit s = .next (setCnt (k + 1 + j) s) := by
      rw [exec_adcInit_wait hp, stabTick, hc]
      exact congrArg _ (if_neg hne)
    rw [execN_succ htick, ih (s := setCnt (k + 1 + j) s) hp rfl]
    rfl

/-- Settles O34: the wait counts down to 1, and its last step ends `ADC_INIT`. -/
theorem stabilizationWaitLength : Obligations.StabilizationWaitLength := by
  intro s k hp hc
  refine ⟨fun j hj => ?_, ?_⟩
  · have hleft : k + 1 - j = k - j + 1 := Nat.sub_add_comm hj
    rw [hleft]
    exact execN_stabWait_ticks hp (by omega)
  · rw [execN_stabWait hp hc, endStab_eq]
    rfl

/-- The wait that follows the last register step ends `ADC_INIT`, whether it has steps or none (R140, R145, R146). -/
theorem execN_beginStab_ends (s : State) :
    ∃ m, execN .adcInit s.cfg.stabCount (beginStab s) = .next (endStab (setCnt m s)) := by
  cases hk : s.cfg.stabCount with
  | zero => exact ⟨s.cnt, congrArg _ (beginStab_of_no_wait hk)⟩
  | succ k =>
    refine ⟨0, ?_⟩
    rw [beginStab_of_wait (by simp [hk]), hk, execN_stabWait rfl rfl, endStab_eq, endStab_eq]
    rfl

/-- What the wait of `ADC_INIT` and its end keep: they make no bus access (R145, R146). -/
structure KeptByWait (s t : State) : Prop where
  cfg : t.cfg = s.cfg
  regs : t.regs = s.regs
  eoc : t.eoc = s.eoc
  conv : t.conv = s.conv
  draws : t.draws = s.draws
  settled : s.settled = true → t.settled = true
  phase : t.phase ≠ .exec

theorem endStab_kept (n : Nat) (s : State) : KeptByWait s (endStab (setCnt n s)) := by
  rw [endStab_eq]
  exact ⟨rfl, rfl, rfl, rfl, rfl, fun h => by simp [h], nofun⟩

theorem beginStab_kept (s : State) : KeptByWait s (beginStab s) := by
  by_cases h : s.cfg.stabCount = 0
  · rw [beginStab_of_no_wait h]
    exact endStab_kept s.cnt s
  · rw [beginStab_of_wait h]
    exact ⟨rfl, rfl, rfl, rfl, rfl, id, nofun⟩

theorem stabTick_kept (hp : s.phase = .stabWait) (h : stabTick s = .next t) : KeptByWait s t := by
  obtain ⟨k, -, rfl⟩ := stabTick_next h
  split
  · exact endStab_kept k s
  · exact ⟨rfl, rfl, rfl, rfl, rfl, id, by simp [hp]⟩

/-! ### A whole `ADC_INIT` -/

/-- A register file with a merge done at one address (R102, R103). -/
def mergedAt (r : Memory) (a x y : Word) : Memory := r.write a.toNat (merge (r.read a.toNat) x y)

theorem mergedAt_wf {r : Memory} (hr : r.wf) (a x y : Word) : (mergedAt r a x y).wf := Memory.wf_write hr _ _

theorem mergedAt_read {r : Memory} (hr : r.wf) (a x y b : Word) : (mergedAt r a x y).read b.toNat =
    if a = b then merge (r.read a.toNat) x y else r.read b.toNat := by
  rw [mergedAt, Memory.read_write hr]
  simp only [BitVec.toNat_inj]

/-- The state an update of `ADC_INIT` outside `A_CR` leaves (R140). -/
def adcInitUpdated (a x y : Word) (s : State) : State :=
  { s with
    t := some (s.reg a), upc := s.upc + 1#4 + 1#4, regs := mergedAt s.regs a x y
    trace := s.trace ++ [.busRd a (s.reg a), .busWr a (merge (s.reg a) x y)] }

/-- An update of `ADC_INIT` whose write has no effect but the store (R140). -/
theorem execN_adcInit_update (h : AdcInitUpdate s.cfg n a x y) (hn : n ≠ 8#4) (hwf : s.cfg.WF)
    (hc : s.clocked a = true) (hp : s.phase = .exec) (hu : s.upc = n)
    (hw : ∀ k, writeHalf a x y (latchedState a s) k =
      .next (k (((latchedState a s).setReg a (merge (s.reg a) x y)).log (.busWr a (merge (s.reg a) x y))))) :
    execN .adcInit 2 s = .next (adcInitUpdated a x y s) := by
  obtain ⟨hmap, hsr, hdr⟩ := h.plain hwf
  have hread : exec .adcInit s = .next (latchedState a s) :=
    (exec_adcInit_read h hp hu).trans (readHalf_clocked hwf hmap hc hsr hdr)
  have hwrite := exec_adcInit_stores (s := latchedState a s) h hn hp (by simp [hu]) hw
  rw [execN_succ hread, execN_succ hwrite, execN, ← hu]
  simp [adcInitUpdated, mergedAt, latchedState_eq, State.reg]

theorem execN_adcInit_clockAn (hwf : s.cfg.WF) (hheld : ClockHeld s) (hp : s.phase = .exec) (hu : s.upc = 0#4) :
    execN .adcInit 2 s = .next (adcInitUpdated s.cfg.aClkAn (bit s.cfg.bClkAn) 0#32 s) :=
  execN_adcInit_update .clockAn (by decide) hwf (clocked_clock (by simp)) hp hu
    (writeHalf_setClock (s := latchedState s.cfg.aClkAn s) hwf (by simp) hheld rfl _)

theorem execN_adcInit_clockAdc (hwf : s.cfg.WF) (hp : s.phase = .exec) (hu : s.upc = 2#4) :
    execN .adcInit 2 s = .next (adcInitUpdated s.cfg.aClkAdc (bit s.cfg.bClkAdc) 0#32 s) :=
  execN_adcInit_update .clockAdc (by decide) hwf (clocked_clock (by simp)) hp hu
    (writeHalf_setAdcClock (s := latchedState s.cfg.aClkAdc s) hwf rfl)

theorem execN_adcInit_mode (hwf : s.cfg.WF) (hclk : s.anClock = true) (hp : s.phase = .exec) (hu : s.upc = 4#4) :
    execN .adcInit 2 s = .next (adcInitUpdated s.cfg.aModerAn (modeBits modeAnalog s.cfg.pinSensor) 0#32 s) :=
  execN_adcInit_update .mode (by decide) hwf ((clocked_moderAn hwf).trans hclk) hp hu
    (writeHalf_mode (s := latchedState s.cfg.aModerAn s) hwf hclk rfl _ _)

theorem execN_adcInit_sequence (hwf : s.cfg.WF) (hclk : s.adcClock = true) (hidle : s.conv = .idle)
    (hp : s.phase = .exec) (hu : s.upc = 6#4) :
    execN .adcInit 2 s = .next (adcInitUpdated s.cfg.aSqr (sensorChannelBits s.cfg) (sq1Mask s.cfg) s) :=
  execN_adcInit_update .sequence (by decide) hwf ((clocked_converter hwf (by simp)).trans hclk) hp hu
    (writeHalf_sequence (s := latchedState s.cfg.aSqr s) hwf hclk hidle rfl _ _)

/-- The state of `ADC_INIT` before its last update: both clocks on, the sensor pin analog, its channel selected
(R140, R141). -/
def adcInitSelected (s : State) : State :=
  adcInitUpdated s.cfg.aSqr (sensorChannelBits s.cfg) (sq1Mask s.cfg)
    (adcInitUpdated s.cfg.aModerAn (modeBits modeAnalog s.cfg.pinSensor) 0#32
      (adcInitUpdated s.cfg.aClkAdc (bit s.cfg.bClkAdc) 0#32
        (adcInitUpdated s.cfg.aClkAn (bit s.cfg.bClkAn) 0#32 (enter .exec s))))

theorem adcInitSelected_regs_wf (hr : s.regs.wf) : (adcInitSelected s).regs.wf :=
  mergedAt_wf (mergedAt_wf (mergedAt_wf (mergedAt_wf hr ..) ..) ..) ..

/-- The first four updates reach it (R140, R141). -/
theorem execN_adcInit_selected (hwf : s.cfg.WF) (hr : s.regs.wf) (hset : s.settled = true → s.adcClock = true)
    (hidle : s.conv = .idle) (hp : s.phase = .decode) :
    execN .adcInit 9 s = .next (adcInitSelected s) ∧ (adcInitSelected s).adcClock = true := by
  have hdec : execN .adcInit 1 s = .next (enter .exec s) := execN_succ (exec_decode _ hp) 0
  have hheld : ClockHeld (enter .exec s) := ⟨fun h => absurd hidle h, hset⟩
  obtain ⟨p1, hrun1, hat1, hidle1, han1, -⟩ := adcInit_clockAn (s := enter .exec s) hwf (.entered hr) hidle
  obtain rfl := Host.Outcome.next.inj (hrun1.symm.trans (execN_adcInit_clockAn hwf hheld rfl rfl))
  obtain ⟨p2, hrun2, hat2, hidle2, han2, hadc2, -⟩ := adcInit_clockAdc hwf hat1 hidle1 han1
  obtain rfl := Host.Outcome.next.inj (hrun2.symm.trans (execN_adcInit_clockAdc hwf hat1.phase hat1.upc))
  obtain ⟨p3, hrun3, hat3, hidle3, hadc3, -⟩ := adcInit_mode hwf hat2 hidle2 han2 hadc2
  obtain rfl := Host.Outcome.next.inj (hrun3.symm.trans (execN_adcInit_mode hwf han2 hat2.phase hat2.upc))
  obtain ⟨p4, hrun4, -, -, hadc4, -⟩ := adcInit_sequence hwf hat3 hidle3 hadc3
  obtain rfl := Host.Outcome.next.inj
    (hrun4.symm.trans (execN_adcInit_sequence hwf hadc3 hidle3 hat3.phase hat3.upc))
  refine ⟨?_, hadc4⟩
  rw [execN_add hdec 8, execN_add hrun1 6, execN_add hrun2 4, execN_add hrun3 2, hrun4]
  rfl

/-- The first four updates leave `A_CR` alone (W2, W3). -/
theorem adcInitSelected_control (hwf : s.cfg.WF) (hr : s.regs.wf) :
    (adcInitSelected s).reg s.cfg.aCr = s.reg s.cfg.aCr := by
  have han : s.cfg.aClkAn ≠ s.cfg.aCr := hwf.clock_ne (by simp) (by simp)
  have hadc : s.cfg.aClkAdc ≠ s.cfg.aCr := hwf.clock_ne (by simp) (by simp)
  have hmode : s.cfg.aModerAn ≠ s.cfg.aCr := (hwf.converter_ne (by simp) (by simp)).symm
  have hsq : s.cfg.aSqr ≠ s.cfg.aCr := hwf.converter_nodup.1
  have h1 := mergedAt_wf hr s.cfg.aClkAn (bit s.cfg.bClkAn) 0#32
  have h2 := mergedAt_wf h1 s.cfg.aClkAdc (bit s.cfg.bClkAdc) 0#32
  have h3 := mergedAt_wf h2 s.cfg.aModerAn (modeBits modeAnalog s.cfg.pinSensor) 0#32
  calc (adcInitSelected s).reg s.cfg.aCr
      _ = _ := (mergedAt_read h3 ..).trans (if_neg hsq)
      _ = _ := (mergedAt_read h2 ..).trans (if_neg hmode)
      _ = _ := (mergedAt_read h1 ..).trans (if_neg hadc)
      _ = _ := (mergedAt_read hr ..).trans (if_neg han)

/-- The state a whole `ADC_INIT` leaves, but for `CNT` (R140, R146; log 14). -/
def adcInitDone (m : Nat) (s : State) : State :=
  endStab (setCnt m (adonSet (latchedState s.cfg.aCr (adcInitSelected s))))

/-- A whole `ADC_INIT` with an idle converter (R140, R141, R145, R146). -/
theorem execN_adcInit (hwf : s.cfg.WF) (hr : s.regs.wf) (htrig : TriggerClear s)
    (hset : s.settled = true → s.adcClock = true) (hidle : s.conv = .idle) (hp : s.phase = .decode) :
    ∃ m, execN .adcInit (11 + s.cfg.stabCount) s = .next (adcInitDone m s) := by
  obtain ⟨hrun, hclk⟩ := execN_adcInit_selected hwf hr hset hidle hp
  obtain ⟨m, hwait⟩ := execN_beginStab_ends (adonSet (latchedState s.cfg.aCr (adcInitSelected s)))
  have htrig' : TriggerClear (latchedState s.cfg.aCr (adcInitSelected s)) :=
    (congrArg (BitVec.getLsbD · s.cfg.bStart) (adcInitSelected_control hwf hr)).trans htrig
  have hc : (adcInitSelected s).clocked s.cfg.aCr = true :=
    (clocked_converter (s := adcInitSelected s) hwf (by simp [adcInitSelected, adcInitUpdated])).trans hclk
  have hread : exec .adcInit (adcInitSelected s) = .next (latchedState s.cfg.aCr (adcInitSelected s)) :=
    exec_adcInit_latches (s := adcInitSelected s) .control hwf hc rfl rfl
  have hwrite := exec_adcInit_setsAdon (s := latchedState s.cfg.aCr (adcInitSelected s)) hwf hclk rfl htrig' rfl rfl
  refine ⟨m, ?_⟩
  rw [show 11 + s.cfg.stabCount = 9 + (s.cfg.stabCount + 1 + 1) by omega, execN_add hrun, execN_succ hread,
    execN_succ hwrite]
  exact hwait

/-- `ADC_INIT` ends with the converter enabled, so it ends settled (R146). -/
theorem adcInitDone_eq (hwf : s.cfg.WF) (hr : s.regs.wf) (m : Nat) : adcInitDone m s =
    { adonSet (latchedState s.cfg.aCr (adcInitSelected s)) with
      cnt := m, settled := true, rsp := some .ok, phase := .idle
      trace := (adonSet (latchedState s.cfg.aCr (adcInitSelected s))).trace ++ [.rsp .ok] } := by
  have hon : (setCnt m (adonSet (latchedState s.cfg.aCr (adcInitSelected s)))).adon = true :=
    adonSet_adon (s := latchedState s.cfg.aCr (adcInitSelected s)) hwf (adcInitSelected_regs_wf hr)
  rw [adcInitDone, endStab_eq, hon, Bool.or_true]
  rfl

theorem adcInitDone_regs (m : Nat) (s : State) : (adcInitDone m s).regs =
    mergedAt (adcInitSelected s).regs s.cfg.aCr (bit s.cfg.bAdon) 0#32 := by
  rw [adcInitDone, endStab_eq, mergedAt, merge_set]
  rfl

/-- The word an update writes is the one its register then holds. -/
theorem mergedAt_read_self {r : Memory} (hr : r.wf) (a x y : Word) :
    (mergedAt r a x y).read a.toNat = merge (r.read a.toNat) x y :=
  (mergedAt_read hr a x y a).trans (if_pos rfl)

/-- Settles O35: the five updates one after the other, and the wait. -/
theorem adcInitRun : Obligations.AdcInitRun := by
  intro s hwf hr htrig hset hidle hp c r1 r2 r3 sq r4 r5
  obtain ⟨m, hrun⟩ := execN_adcInit hwf hr htrig hset hidle hp
  have e1 : mergedAt s.regs c.aClkAn (bit c.bClkAn) 0#32 = r1 := by rw [mergedAt, merge_set]
  have e2 : mergedAt r1 c.aClkAdc (bit c.bClkAdc) 0#32 = r2 := by rw [mergedAt, merge_set]
  have e3 : mergedAt r2 c.aModerAn (modeBits modeAnalog c.pinSensor) 0#32 = r3 := by rw [mergedAt, merge_set]; rfl
  have e4 : mergedAt r3 c.aSqr (sensorChannelBits c) (sq1Mask c) = r4 := rfl
  have e5 : mergedAt r4 c.aCr (bit c.bAdon) 0#32 = r5 := by rw [mergedAt, merge_set]
  have h1 : r1.wf := e1 ▸ mergedAt_wf hr ..
  have h2 : r2.wf := e2 ▸ mergedAt_wf h1 ..
  have h3 : r3.wf := e3 ▸ mergedAt_wf h2 ..
  have h4 : r4.wf := e4 ▸ mergedAt_wf h3 ..
  have hsel : (adcInitSelected s).regs = r4 := by rw [← e4, ← e3, ← e2, ← e1]; rfl
  refine ⟨_, hrun, ?regs, ?_⟩
  case regs => rw [adcInitDone_regs, hsel, e5]
  rw [adcInitDone_eq hwf hr]
  refine ⟨rfl, rfl, rfl, hidle, rfl, rfl, rfl, rfl, ?_⟩
  rw [← e5, mergedAt_read_self h4, merge_set, ← e4, mergedAt_read_self h3, ← e3, mergedAt_read_self h2, ← e2,
    mergedAt_read_self h1, ← e1, mergedAt_read_self hr]
  simp only [adonSet, latchedState_eq, adcInitSelected, adcInitUpdated, enter_trace, List.append_assoc]
  rfl

/-! ### A second `ADC_INIT` -/

/-- A register file on which every update of `ADC_INIT` is done (R147). -/
structure AdcInitialised (c : Cfg) (r : Memory) : Prop where
  wf : r.wf
  merged : ∀ {n a x y}, AdcInitUpdate c n a x y → merge (r.read a.toNat) x y = r.read a.toNat
  trigger : (r.read c.aCr.toNat).getLsbD c.bStart = false

/-- A merge done at an address stays done under a merge at another, or one that sets bits where both set bits (R103). -/
theorem merged_mergedAt {r : Memory} {a x y b z m : Word} (hr : r.wf) (h : merge (r.read b.toNat) z m = r.read b.toNat)
    (hab : a ≠ b ∨ (y = 0#32 ∧ m = 0#32)) :
    merge ((mergedAt r a x y).read b.toNat) z m = (mergedAt r a x y).read b.toNat := by
  rw [mergedAt_read hr]
  split
  · rename_i heq
    obtain ⟨rfl, rfl⟩ := hab.resolve_left fun hne => hne heq
    rw [heq]
    rw [merge_set] at h
    rw [merge_set, merge_set, BitVec.or_assoc, BitVec.or_comm x z, ← BitVec.or_assoc, h]
  · exact h

/-- A merge is done where it was done last (R103). -/
theorem merged_mergedAt_self {r : Memory} (hr : r.wf) (a x y : Word) :
    merge ((mergedAt r a x y).read a.toNat) x y = (mergedAt r a x y).read a.toNat := by
  rw [mergedAt_read_self hr, merge_merge]

/-- A whole `ADC_INIT` leaves every one of its updates done: registers that may be one have merges that only set bits
(R140, R147; W2, W3). -/
theorem adcInitDone_initialised (hwf : s.cfg.WF) (hr : s.regs.wf) (htrig : TriggerClear s) (m : Nat) :
    AdcInitialised s.cfg (adcInitDone m s).regs := by
  have hclk : ∀ {a b}, a ∈ s.cfg.clockAddresses → b ∈ s.cfg.peripheralAddresses → b ≠ a := fun ha hb =>
    (hwf.clock_ne ha hb).symm
  have hport : s.cfg.aModerAn ∈ [s.cfg.aModerOut, s.cfg.aOdrOut, s.cfg.aModerAn] := by simp
  have h1 := mergedAt_wf hr s.cfg.aClkAn (bit s.cfg.bClkAn) 0#32
  have h2 := mergedAt_wf h1 s.cfg.aClkAdc (bit s.cfg.bClkAdc) 0#32
  have h3 := mergedAt_wf h2 s.cfg.aModerAn (modeBits modeAnalog s.cfg.pinSensor) 0#32
  have h4 := mergedAt_wf h3 s.cfg.aSqr (sensorChannelBits s.cfg) (sq1Mask s.cfg)
  rw [adcInitDone_regs]
  refine ⟨mergedAt_wf h4 .., fun h => ?_, ?trigger⟩
  case trigger =>
    have hcr : (adcInitSelected s).regs.read s.cfg.aCr.toNat = s.reg s.cfg.aCr := adcInitSelected_control hwf hr
    have hself := mergedAt_read_self h4 s.cfg.aCr (bit s.cfg.bAdon) 0#32
    exact (congrArg (BitVec.getLsbD · s.cfg.bStart) (hself.trans (congrArg (merge · _ _) hcr))).trans
      (getLsbD_start_setAdon hwf htrig)
  cases h with
  | clockAn =>
    refine merged_mergedAt h4 (merged_mergedAt h3 (merged_mergedAt h2 (merged_mergedAt h1
      (merged_mergedAt_self hr ..) (.inr ⟨rfl, rfl⟩)) ?_) ?_) ?_
    all_goals exact .inl (hclk (by simp) (by simp))
  | clockAdc =>
    refine merged_mergedAt h4 (merged_mergedAt h3 (merged_mergedAt h2 (merged_mergedAt_self h1 ..) ?_) ?_) ?_
    all_goals exact .inl (hclk (by simp) (by simp))
  | mode =>
    refine merged_mergedAt h4 (merged_mergedAt h3 (merged_mergedAt_self h2 ..) ?_) ?_
    all_goals exact .inl (hwf.converter_ne (by simp) hport)
  | sequence => exact merged_mergedAt h4 (merged_mergedAt_self h3 ..) (.inl hwf.converter_nodup.1.symm)
  | control => exact merged_mergedAt_self h4 ..

/-- A bit whose setting is done is set. -/
theorem getLsbD_of_merged {b : Nat} (hb : b < 32) (h : merge w (bit b) 0#32 = w) : w.getLsbD b = true := by
  rw [← h]
  exact getLsbD_merge_bit hb

/-- Where the register file is initialised, the converter's clock is on. -/
theorem AdcInitialised.adcClock (h : AdcInitialised s.cfg s.regs) (hwf : s.cfg.WF) : s.adcClock = true :=
  getLsbD_of_merged hwf.bits_lt.2.2.1 (h.merged .clockAdc)

/-- A micro-step of `ADC_INIT` determines its register. -/
theorem AdcInitUpdate.address_eq {c : Cfg} {n' : BitVec 4} {a' x' y' : Word} (h : AdcInitUpdate c n a x y)
    (h' : AdcInitUpdate c n' a' x' y') (hn : n' = n) : a' = a := by
  subst hn
  cases h <;> cases h' <;> rfl

/-- The write halves of `ADC_INIT` are at odd micro-steps, the read halves at even ones (R140). -/
theorem AdcInitUpdate.parity {c : Cfg} (h : AdcInitUpdate c n a x y) :
    (n + 1#4).getLsbD 0 = true ∧ (n + 1#4 + 1#4).getLsbD 0 = false := by
  cases h <;> exact ⟨rfl, rfl⟩

/-- What a second `ADC_INIT` keeps: the registers, `SETTLED`, and in `T` the word of the register to write (R147). -/
structure Reinitialises (c : Cfg) (r : Memory) (s : State) : Prop where
  cfg : s.cfg = c
  regs : s.regs = r
  settled : s.settled = true
  latched : ∀ {n a x y}, AdcInitUpdate c n a x y → s.phase = .exec → s.upc = n + 1#4 → LatchedFrom s a

theorem Reinitialises.of_phase {c : Cfg} {r : Memory} (hcfg : t.cfg = c) (hregs : t.regs = r)
    (hset : t.settled = true) (hp : t.phase ≠ .exec) : Reinitialises c r t :=
  ⟨hcfg, hregs, hset, fun _ h => absurd h hp⟩

/-- A write of the word an initialised register holds changes no register, and keeps `SETTLED` (R33, R156). -/
theorem AdcInitialised.afterWrite (h : AdcInitialised s.cfg s.regs) (hwf : s.cfg.WF)
    (hupd : AdcInitUpdate s.cfg n a x y) :
    (afterWrite a (merge (s.reg a) x y) s).regs = s.regs ∧
      (afterWrite a (merge (s.reg a) x y) s).settled = s.settled := by
  have hv : merge (s.reg a) x y = s.reg a := h.merged hupd
  have hstore : storedWord s.cfg a (s.reg a) = s.reg a := by
    unfold storedWord
    split
    · rename_i hcr
      rw [hcr]
      exact and_not_bit_of_clear h.trigger
    · rfl
  rw [hv, afterWrite_regs, hstore, afterWrite_settled]
  refine ⟨Memory.write_read h.wf _, ?_⟩
  by_cases hclk : a = s.cfg.aClkAdc
  · have hon : (s.reg s.cfg.aClkAdc).getLsbD s.cfg.bClkAdc = true := h.adcClock hwf
    simp [hclk, hon]
  · simp [hclk]

/-- Every micro-operation of a second `ADC_INIT` keeps it, a faulting one too (R147). -/
theorem Reinitialises.exec {c : Cfg} {r : Memory} (hwf : c.WF) (hinit : AdcInitialised c r)
    (h : Reinitialises c r s) (hex : exec .adcInit s = .next t) : Reinitialises c r t := by
  obtain ⟨rfl, rfl, hset, hlatch⟩ := h
  rcases exec_adcInit_cases hex with
    rfl | (⟨n, a, x, y, hupd, hp, hu, hread⟩ | ⟨n, a, x, y, hupd, hp, hu, hwrite⟩) | ⟨hp, htick⟩
  · refine ⟨rfl, rfl, hset, fun {n} _ _ _ h' _ hu => ?_⟩
    obtain ⟨hodd, -⟩ := h'.parity
    rw [← hu, enter_upc] at hodd
    exact absurd hodd (by decide)
  · obtain ⟨-, hsr, hdr⟩ := hupd.plain hwf
    obtain ⟨hafter, hval⟩ := afterRead_plain hsr hdr
    rcases onRead_next hread with ⟨c, rfl⟩ | rfl
    · exact .of_phase rfl rfl hset nofun
    · rw [hafter, hval]
      refine ⟨rfl, rfl, hset, fun {n'} a' _ _ h' _ hu' => ?_⟩
      have hn : n' = n := by simpa [hu] using hu'.symm
      rw [hupd.address_eq h' hn]
      rfl
  · obtain ⟨hregs, hset'⟩ := hinit.afterWrite hwf hupd
    rcases writeHalf_next hwrite with ⟨-, rfl⟩ | ⟨w, hw, rfl⟩
    · exact .of_phase rfl rfl hset nofun
    · obtain rfl : s.reg a = w := Option.some.inj ((hlatch hupd hp hu).symm.trans hw)
      split
      · exact .of_phase rfl rfl hset nofun
      · unfold adcInitGoesOn
        split
        · have hkept := beginStab_kept (afterWrite a (merge (s.reg a) x y) s)
          exact .of_phase (hkept.cfg.trans (afterWrite_cfg ..)) (hkept.regs.trans hregs)
            (hkept.settled (hset'.trans hset)) hkept.phase
        · refine ⟨afterWrite_cfg .., hregs, hset'.trans hset, fun {n'} a' _ _ h' _ hu' => ?_⟩
          obtain ⟨hodd, -⟩ := h'.parity
          rw [← hu', nextMicro_upc, afterWrite_upc, hu, hupd.parity.2] at hodd
          cases hodd
  · have hkept := stabTick_kept hp htick
    exact .of_phase hkept.cfg hkept.regs (hkept.settled hset) hkept.phase

/-- What every micro-operation of a command keeps, a run of them keeps. -/
theorem execN_keeps {i : Instr} {P : State → Prop} (hP : ∀ s t, P s → exec i s = .next t → P t) {k : Nat}
    (hs : P s) (h : execN i k s = .next t) : P t := by
  induction k generalizing s with
  | zero => exact Host.Outcome.next.inj h ▸ hs
  | succ k ih =>
    cases hex : exec i s with
    | next u => exact ih (hP s u hs hex) ((execN_succ hex k).symm.trans h)
    | fault r => simp only [execN, hex, reduceCtorEq] at h
    | refused r => simp only [execN, hex, reduceCtorEq] at h

/-- The first micro-operations of a run that answers a next state answer one too. -/
theorem execN_of_le {i : Instr} {j k : Nat} (hjk : j ≤ k) (h : execN i k s = .next t) :
    ∃ u, execN i j s = .next u := by
  induction k generalizing s j with
  | zero => exact ⟨t, by rwa [Nat.le_zero.mp hjk]⟩
  | succ k ih =>
    cases j with
    | zero => exact ⟨s, rfl⟩
    | succ j =>
      cases hex : exec i s with
      | next u =>
        rw [execN_succ hex]
        exact ih (Nat.le_of_succ_le_succ hjk) ((execN_succ hex k).symm.trans h)
      | fault r => simp only [execN, hex, reduceCtorEq] at h
      | refused r => simp only [execN, hex, reduceCtorEq] at h

/-- A second `ADC_INIT` on initialised registers, with an idle, settled converter: it completes, keeps the registers,
and is settled after each of its micro-operations (R147). -/
theorem execN_adcInit_again (hwf : s.cfg.WF) (hinit : AdcInitialised s.cfg s.regs) (hset : s.settled = true)
    (hidle : s.conv = .idle) (hp : s.phase = .decode) :
    (∃ u, execN .adcInit (11 + s.cfg.stabCount) s = .next u ∧ u.regs = s.regs ∧ u.adcClock = true ∧
      u.rsp = some .ok) ∧
    ∀ n, n ≤ 11 + s.cfg.stabCount → ∃ u, execN .adcInit n s = .next u ∧ u.settled = true := by
  have hstart : Reinitialises s.cfg s.regs s := .of_phase rfl rfl hset (by simp [hp])
  have hkeeps : ∀ u v, Reinitialises s.cfg s.regs u → exec .adcInit u = .next v → Reinitialises s.cfg s.regs v :=
    fun _ _ h hex => h.exec hwf hinit hex
  obtain ⟨m, hrun⟩ := execN_adcInit hwf hinit.wf hinit.trigger (fun _ => hinit.adcClock hwf) hidle hp
  refine ⟨⟨_, hrun, ?_⟩, fun n hn => ?_⟩
  · have hkept := execN_keeps hkeeps hstart hrun
    refine ⟨hkept.regs, ?_, by rw [adcInitDone, endStab_eq]⟩
    rw [State.adcClock, State.reg, hkept.regs, hkept.cfg]
    exact hinit.adcClock hwf
  · obtain ⟨u, hu⟩ := execN_of_le hn hrun
    exact ⟨u, hu, (execN_keeps hkeeps hstart hu).settled⟩

/-- Settles O36: the second run stores every word over itself, so no register changes and nothing clears `SETTLED`. -/
theorem adcInitTwice : Obligations.AdcInitTwice := by
  intro s t hwf hr htrig hset hidle hp h
  obtain ⟨m, hrun⟩ := execN_adcInit hwf hr htrig hset hidle hp
  obtain rfl : adcInitDone m s = t := Host.Outcome.next.inj (hrun.symm.trans h)
  have hinit := adcInitDone_initialised hwf hr htrig m
  have again := execN_adcInit_again (s := { adcInitDone m s with phase := .decode, rsp := none })
  rw [adcInitDone_eq hwf hr] at hinit again ⊢
  exact again hwf hinit rfl hidle rfl

/-! ### A start request -/

/-- The state in which a start request is judged, as one update (R156). -/
theorem controlWritten_eq (v : Word) (s : State) : controlWritten v s = { s with
    regs := s.regs.write s.cfg.aCr.toNat (v &&& ~~~bit s.cfg.bStart)
    settled := s.settled && (s.adon == v.getLsbD s.cfg.bAdon), trace := s.trace ++ [.busWr s.cfg.aCr v] } := by
  have hsame : (!(s.adon != v.getLsbD s.cfg.bAdon)) = (s.adon == v.getLsbD s.cfg.bAdon) := Bool.not_not _
  rw [controlWritten, unsettleIf_eq, hsame]
  rfl

/-- The trust mark of a conversion that starts now, were the converter settled or not (R158). -/
def trustMark (settled : Bool) (s : State) : Bool :=
  settled && (sq1Field s.cfg (s.reg s.cfg.aSqr) == s.cfg.chSensor) &&
    (modeField (s.reg s.cfg.aModerAn) s.cfg.pinSensor == modeAnalog)

/-- The state an accepted start request leaves, from the word stored in `A_CR` and `SETTLED` as it is then (R157). -/
def started (v : Word) (settled : Bool) (regs : Memory) (s : State) : State :=
  { s with
    regs := regs, settled := settled
    conv := .converting (sq1Field s.cfg (s.reg s.cfg.aSqr)) (trustMark settled s)
    eoc := if s.eoc then Config.eocDraw s.draws else false
    draws := if s.eoc then s.draws + 1 else s.draws
    trace := s.trace ++ [.busWr s.cfg.aCr v,
      .convStart (sq1Field s.cfg (s.reg s.cfg.aSqr)) (trustMark settled s)] }

/-- A write of `A_CR` with START and ADON set, as one update (R156, R157, R158). -/
theorem afterWrite_starts (hwf : s.cfg.WF) (hr : s.regs.wf) (hst : v.getLsbD s.cfg.bStart = true)
    (hon : v.getLsbD s.cfg.bAdon = true) : afterWrite s.cfg.aCr v s =
      started v (s.settled && (s.adon == v.getLsbD s.cfg.bAdon))
        (s.regs.write s.cfg.aCr.toNat (v &&& ~~~bit s.cfg.bStart)) s := by
  have hne : s.cfg.aCr ≠ s.cfg.aClkAdc := (hwf.clock_ne (by simp) (by simp)).symm
  have hsq : (controlWritten v s).reg s.cfg.aSqr = s.reg s.cfg.aSqr :=
    (controlWritten_reg hr ..).trans (if_neg hwf.converter_nodup.1.symm)
  have han : (controlWritten v s).reg s.cfg.aModerAn = s.reg s.cfg.aModerAn :=
    (controlWritten_reg hr ..).trans (if_neg (hwf.converter_ne (by simp) (by simp)))
  have hjudged : afterWrite s.cfg.aCr v s = startRequest (controlWritten v s) := afterWrite_start hne hst
  rw [hjudged, startRequest_on ((controlWritten_adon hwf hr v).trans hon), State.trusted, controlWritten_cfg, hsq, han,
    controlWritten_settled, controlWritten_trace, controlWritten_eq, List.append_assoc]
  rfl

/-- A write of `A_CR` with START set and ADON clear starts nothing (R156, R159). -/
theorem afterWrite_starts_nothing (hwf : s.cfg.WF) (hr : s.regs.wf) (hst : v.getLsbD s.cfg.bStart = true)
    (hoff : v.getLsbD s.cfg.bAdon = false) : afterWrite s.cfg.aCr v s = controlWritten v s := by
  have hne : s.cfg.aCr ≠ s.cfg.aClkAdc := (hwf.clock_ne (by simp) (by simp)).symm
  exact (afterWrite_start hne hst).trans (startRequest_off ((controlWritten_adon hwf hr v).trans hoff))

/-- With an idle, clocked converter every write of `A_CR` passes its checks (R69). -/
theorem writeFault_control_idle (hwf : s.cfg.WF) (hclk : s.adcClock = true) (hidle : s.conv = .idle) (v : Word) :
    writeFault s s.cfg.aCr v = none := by
  obtain ⟨-, -, -, hsr, hdr, -⟩ := hwf.converter_nodup
  exact writeFault_idle hwf (by simp [mapped]) ((clocked_converter hwf (by simp)).trans hclk) hsr hdr hidle

/-- Settles O20: the write passes its checks, and is a start request judged after `SETTLED`. -/
theorem wrStartRequest : Obligations.WrStartRequest := by
  intro s v hwf hr hp hu hclk hidle hst stored settled' ch tr
  have hwr : exec (.wr s.cfg.aCr v) s = .next (respond .ok (afterWrite s.cfg.aCr v s)) :=
    (exec_wr_write hp hu).trans (onWrite_passed (writeFault_control_idle hwf hclk hidle v) _)
  rw [hwr]
  refine ⟨fun hon => ?_, fun hoff => ?_⟩
  · rw [afterWrite_starts hwf hr hst hon, respond, started, List.append_assoc]
    rfl
  · rw [afterWrite_starts_nothing hwf hr hst hoff, controlWritten_eq, respond, List.append_assoc]
    rfl

/-! ### The start of `ADC_READ` -/

/-- A bit that is 0, set and cleared again. -/
theorem or_bit_and_not_bit {w : Word} {i : Nat} (h : w.getLsbD i = false) : (w ||| bit i) &&& ~~~bit i = w := by
  refine BitVec.eq_of_getLsbD_eq fun j _ => ?_
  rw [getLsbD_and_not_bit, BitVec.getLsbD_or, getLsbD_bit]
  by_cases hij : i = j
  · subst hij
    simp [h]
  · simp [hij]

/-- The read half of the start latches `A_CR` (R148). -/
theorem exec_adcRead_latches (hwf : s.cfg.WF) (hclk : s.adcClock = true) (hp : s.phase = .startRequested)
    (hu : s.upc = 0#4) : exec .adcRead s = .next (latchedState s.cfg.aCr s) := by
  obtain ⟨-, -, -, hsr, hdr, -⟩ := hwf.converter_nodup
  rw [exec_adcRead_controlRead hp hu]
  exact readHalf_clocked hwf (by simp [mapped]) ((clocked_converter hwf (by simp)).trans hclk) hsr hdr

/-- The write half of the start writes `A_CR`'s own word with START (R149). -/
theorem exec_adcRead_triggers (hwf : s.cfg.WF) (hclk : s.adcClock = true) (hp : s.phase = .startRequested)
    (hu : s.upc = 1#4) (ht : LatchedFrom s s.cfg.aCr) (hidle : s.conv = .idle) : exec .adcRead s =
      .next (startPolling (afterWrite s.cfg.aCr (s.reg s.cfg.aCr ||| bit s.cfg.bStart) s)) := by
  rw [exec_adcRead_controlWrite hp hu, writeHalf_some ht, writeFault_control_idle hwf hclk hidle, merge_set]

/-- The word the start writes: START set, and ADON as it is (W6). -/
theorem triggerWord_bits (hwf : s.cfg.WF) :
    (s.reg s.cfg.aCr ||| bit s.cfg.bStart).getLsbD s.cfg.bStart = true ∧
      (s.reg s.cfg.aCr ||| bit s.cfg.bStart).getLsbD s.cfg.bAdon = s.adon := by
  rw [← merge_set]
  refine ⟨getLsbD_merge_bit hwf.bits_lt.2.2.2.2.1, getLsbD_merge_of_unmasked ?_⟩
  simp [getLsbD_bit, hwf.w6.2.1.symm]

/-- The word the start stores is the one `A_CR` holds (R38). -/
theorem triggerWord_stored (hr : s.regs.wf) (htrig : TriggerClear s) : s.regs.write s.cfg.aCr.toNat
    ((s.reg s.cfg.aCr ||| bit s.cfg.bStart) &&& ~~~bit s.cfg.bStart) = s.regs := by
  rw [or_bit_and_not_bit htrig]
  exact Memory.write_read hr _

/-- The start of `ADC_READ` with ADON set (R149, R150, R157). -/
theorem exec_adcRead_starts (hwf : s.cfg.WF) (hr : s.regs.wf) (htrig : TriggerClear s) (hclk : s.adcClock = true)
    (hp : s.phase = .startRequested) (hu : s.upc = 1#4) (ht : LatchedFrom s s.cfg.aCr) (hidle : s.conv = .idle)
    (hon : s.adon = true) : exec .adcRead s =
      .next (startPolling (started (s.reg s.cfg.aCr ||| bit s.cfg.bStart) s.settled s.regs s)) := by
  obtain ⟨hst, hadon⟩ := triggerWord_bits hwf
  rw [exec_adcRead_triggers hwf hclk hp hu ht hidle, afterWrite_starts hwf hr hst (hadon.trans hon), hadon,
    triggerWord_stored hr htrig, beq_self_eq_true, Bool.and_true]

/-- The start of `ADC_READ` with ADON clear (R149, R150, R159). -/
theorem exec_adcRead_starts_nothing (hwf : s.cfg.WF) (hr : s.regs.wf) (htrig : TriggerClear s)
    (hclk : s.adcClock = true) (hp : s.phase = .startRequested) (hu : s.upc = 1#4) (ht : LatchedFrom s s.cfg.aCr)
    (hidle : s.conv = .idle) (hoff : s.adon = false) : exec .adcRead s =
      .next (startPolling (s.log (.busWr s.cfg.aCr (s.reg s.cfg.aCr ||| bit s.cfg.bStart)))) := by
  obtain ⟨hst, hadon⟩ := triggerWord_bits hwf
  rw [exec_adcRead_triggers hwf hclk hp hu ht hidle, afterWrite_starts_nothing hwf hr hst (hadon.trans hoff),
    controlWritten_eq, hadon, triggerWord_stored hr htrig, beq_self_eq_true, Bool.and_true]
  rfl

/-- Settles O37: the two halves of the start, whose write stores `A_CR`'s own word. -/
theorem adcReadStartCompletes : Obligations.AdcReadStartCompletes := by
  intro s hwf hr htrig hp hclk cr ch tr write
  refine ⟨fun hu => ?read, fun hu ht hidle hon => ?starts, fun hu ht hidle hoff => ?nothing⟩
  case read =>
    rw [exec_adcRead_latches hwf hclk hp hu, latchedState_eq, hu]
    rfl
  case starts => exact exec_adcRead_starts hwf hr htrig hclk hp hu ht hidle hon
  case nothing => exact exec_adcRead_starts_nothing hwf hr htrig hclk hp hu ht hidle hoff

/-! ### One poll -/

theorem exec_adcRead_poll (hwf : s.cfg.WF) (hp : s.phase = .converting) (hclk : s.adcClock = true) :
    exec .adcRead s = .next (afterPoll (readValue s.cfg.aSr s) (afterRead s.cfg.aSr s)) := by
  have hacc : accessFault s s.cfg.aSr = none :=
    accessFault_clocked hwf (by simp [mapped]) ((clocked_converter hwf (by simp)).trans hclk)
  simp only [exec, execAdcRead, hp]
  exact onRead_passed hacc _

theorem exec_adcRead_done (hp : s.phase = .done) : exec .adcRead s =
    onRead s.cfg.aDr s fun d s' => respond (.data (resultWord d)) s' := by
  simp only [exec, execAdcRead, hp]

/-- `CNT` after a poll that sees EOC 0: bounded polls are counted (R151). -/
def polledCnt (s : State) : Nat :=
  match s.cfg.pollLimit with
  | .unbounded => s.cnt
  | .bounded _ => s.cnt + 1

/-- The state after a poll that sees EOC 0 and does not time out (R151). -/
def polledOn (s : State) : State :=
  { s with
    cnt := polledCnt s, draws := s.draws + 1
    trace := s.trace ++ [.busRd s.cfg.aSr (readValue s.cfg.aSr s)] }

/-- A poll that sees EOC set (R151). -/
theorem afterPoll_eoc (hwf : s.cfg.WF) (he : s.eoc = true) :
    afterPoll (readValue s.cfg.aSr s) (afterRead s.cfg.aSr s) = setPhase .done (afterRead s.cfg.aSr s) := by
  rw [afterPoll, afterRead_cfg, if_pos ((readValue_eoc hwf).trans he)]

/-- A poll that sees EOC 0, with polls left (R151). -/
theorem afterPoll_polledOn (hwf : s.cfg.WF) (he : s.eoc = false)
    (hcnt : ∀ limit, s.cfg.pollLimit = .bounded limit → s.cnt + 1 ≠ limit) :
    afterPoll (readValue s.cfg.aSr s) (afterRead s.cfg.aSr s) = polledOn s := by
  have hv : ¬(readValue s.cfg.aSr s).getLsbD s.cfg.bEoc = true := by simp [readValue_eoc hwf, he]
  rw [afterPoll, afterRead_cfg, if_neg hv, afterRead_cnt, polledOn, polledCnt, afterRead_status]
  cases hl : s.cfg.pollLimit with
  | unbounded => rfl
  | bounded limit => exact if_neg (hcnt limit hl)

/-- A poll that sees EOC 0 and is the last the limit allows (R152). -/
theorem afterPoll_timeout (hwf : s.cfg.WF) (he : s.eoc = false) (hl : s.cfg.pollLimit = .bounded (s.cnt + 1)) :
    afterPoll (readValue s.cfg.aSr s) (afterRead s.cfg.aSr s) =
      respond .timeout (setCnt (s.cnt + 1) (afterRead s.cfg.aSr s)) := by
  have hv : ¬(readValue s.cfg.aSr s).getLsbD s.cfg.bEoc = true := by simp [readValue_eoc hwf, he]
  rw [afterPoll, afterRead_cfg, if_neg hv, afterRead_cnt, hl]
  exact if_pos rfl

/-- A count that is not the limit is not any limit of the configuration. -/
theorem ne_limit {c : Cfg} {limit k : Nat} (hl : c.pollLimit = .bounded limit) (hk : k ≠ limit) (m : Nat)
    (hm : c.pollLimit = .bounded m) : k ≠ m := by
  rwa [← PollLimit.bounded.inj (hl.symm.trans hm)]

/-- Settles O38: a poll reads the status word, and EOC, the poll limit and the count decide. -/
theorem pollStep : Obligations.PollStep := by
  intro s hwf hp hclk
  refine ⟨readValue s.cfg.aSr s, readValue_eoc hwf, fun j _ hj => ?draws, ?step⟩
  case draws => rw [readValue, if_pos rfl, statusWord_other _ _ _ hj]
  case step =>
    intro polled
    rw [exec_adcRead_poll hwf hp hclk]
    by_cases hset : s.eoc = true
    · rw [afterPoll_eoc hwf hset, afterRead_status, if_pos hset]
      rfl
    · have he : s.eoc = false := Bool.eq_false_iff.mpr hset
      rw [if_neg hset]
      cases hl : s.cfg.pollLimit with
      | unbounded => rw [afterPoll_polledOn hwf he (by simp [hl]), polledOn, polledCnt, hl]
      | bounded limit =>
        by_cases hcnt : s.cnt + 1 = limit
        · subst hcnt
          rw [afterPoll_timeout hwf he hl, afterRead_status]
          simp [respond, setCnt, State.log, polled]
        · rw [afterPoll_polledOn hwf he (ne_limit hl hcnt), polledOn, polledCnt, hl]
          simp [hcnt, polled]

/-- Settles O41: the data register is clocked, reads as its word and clears EOC. -/
theorem doneReturnsResult : Obligations.DoneReturnsResult := by
  intro s hwf hp hclk d r
  have hacc : accessFault s s.cfg.aDr = none :=
    accessFault_clocked hwf (by simp [mapped]) ((clocked_converter hwf (by simp)).trans hclk)
  obtain ⟨hval, hread⟩ := afterRead_data hwf
  rw [exec_adcRead_done hp, onRead_passed hacc, hval, hread, respond_log]
  rfl

/-- The state a conversion's completion leaves (R160, R161). -/
def completed (ch : Nat) (tr : Bool) (s : State) : State :=
  { s with
    regs := s.regs.write s.cfg.aDr.toNat ((Config.sampleDraw s.draws).zeroExtend 32), eoc := true, conv := .idle
    draws := s.draws + 1, trace := s.trace ++ [.convDone ch tr (Config.sampleDraw s.draws)] }

theorem converterStep_completes {ch : Nat} {tr : Bool} (h : s.conv = .converting ch tr) :
    converterStep s = completed ch tr s := by
  rw [converterStep, h]
  rfl

theorem converterStep_idle (h : s.conv = .idle) : converterStep s = s := by rw [converterStep, h]

/-- Settles O47: the converter has a turn exactly with a conversion in flight. -/
theorem converterCompletes : Obligations.ConverterCompletes := fun _ =>
  ⟨fun _ _ h => ⟨_, rfl, congrArg Host.Outcome.next (converterStep_completes h)⟩,
    fun h => congrArg Host.Outcome.next (converterStep_idle h)⟩

/-! ### Polls without a completion -/

/-- A poll, or `j` of them, that see EOC 0: what is left as it was, and what is counted (R151, R155). -/
structure Polled (j : Nat) (s t : State) : Prop where
  cfg : t.cfg = s.cfg
  latched : latched t = latched s
  phase : t.phase = s.phase
  rsp : t.rsp = s.rsp
  fcause : t.fcause = s.fcause
  finfo : t.finfo = s.finfo
  regs : t.regs = s.regs
  eoc : t.eoc = s.eoc
  conv : t.conv = s.conv
  settled : t.settled = s.settled
  draws : t.draws = s.draws + j
  unbounded : s.cfg.pollLimit = .unbounded → t.cnt = s.cnt
  bounded : ∀ limit, s.cfg.pollLimit = .bounded limit → t.cnt = s.cnt + j

theorem polled_zero (s : State) : Polled 0 s s :=
  ⟨rfl, rfl, rfl, rfl, rfl, rfl, rfl, rfl, rfl, rfl, rfl, fun _ => rfl, fun _ _ => rfl⟩

theorem Polled.polledOn {j : Nat} (h : Polled j s t) : Polled (j + 1) s (polledOn t) where
  cfg := h.cfg
  latched := h.latched
  phase := h.phase
  rsp := h.rsp
  fcause := h.fcause
  finfo := h.finfo
  regs := h.regs
  eoc := h.eoc
  conv := h.conv
  settled := h.settled
  draws := congrArg (· + 1) h.draws
  unbounded hl := by
    have hcnt : (Machine.polledOn t).cnt = t.cnt := by simp only [Machine.polledOn, polledCnt, h.cfg, hl]
    exact hcnt.trans (h.unbounded hl)
  bounded limit hl := by
    have hcnt : (Machine.polledOn t).cnt = t.cnt + 1 := by simp only [Machine.polledOn, polledCnt, h.cfg, hl]
    exact hcnt.trans (congrArg (· + 1) (h.bounded limit hl))

theorem polled_iterate (j : Nat) (s : State) : Polled j s (polledOn^[j] s) := by
  induction j with
  | zero => exact polled_zero s
  | succ j ih =>
    rw [Function.iterate_succ_apply']
    exact ih.polledOn

theorem Polled.adcClock {j : Nat} (h : Polled j s t) : t.adcClock = s.adcClock := by
  rw [State.adcClock, State.reg, h.regs, h.cfg, ← State.reg, State.adcClock]

/-- A sequencer that polls with EOC 0, the converter clocked and at least `j` polls left before the limit (R151). -/
structure PollsFor (j : Nat) (s : State) : Prop where
  config : s.cfg.WF
  phase : s.phase = .converting
  clock : s.adcClock = true
  eoc : s.eoc = false
  left : ∀ limit, s.cfg.pollLimit = .bounded limit → s.cnt + j < limit

theorem PollsFor.exec {j : Nat} (h : PollsFor (j + 1) s) : exec .adcRead s = .next (polledOn s) := by
  rw [exec_adcRead_poll h.config h.phase h.clock, afterPoll_polledOn h.config h.eoc fun limit hl => ?_]
  have := h.left limit hl
  omega

theorem PollsFor.of_polled {j k : Nat} (h : PollsFor (j + k) s) (hp : Polled j s t) : PollsFor k t where
  config := hp.cfg ▸ h.config
  phase := hp.phase.trans h.phase
  clock := hp.adcClock.trans h.clock
  eoc := hp.eoc.trans h.eoc
  left limit hl := by
    rw [hp.cfg] at hl
    have := h.left limit hl
    rw [hp.bounded limit hl]
    omega

/-- `j` polls in a row that see EOC 0 (R151). -/
theorem PollsFor.execN {j : Nat} (h : PollsFor j s) : execN .adcRead j s = .next (polledOn^[j] s) := by
  induction j generalizing s with
  | zero => rfl
  | succ j ih =>
    rw [execN_succ h.exec, Function.iterate_succ_apply]
    exact ih (PollsFor.of_polled (Nat.add_comm j 1 ▸ h) (polled_iterate 1 s))

/-- The poll that makes the limit-th without EOC ends `ADC_READ` with `TIMEOUT` (R152). -/
theorem exec_adcRead_timeout (hwf : s.cfg.WF) (hp : s.phase = .converting) (hclk : s.adcClock = true)
    (he : s.eoc = false) (hl : s.cfg.pollLimit = .bounded (s.cnt + 1)) : exec .adcRead s =
      .next (respond .timeout (setCnt (s.cnt + 1) (afterRead s.cfg.aSr s))) :=
  (exec_adcRead_poll hwf hp hclk).trans (congrArg _ (afterPoll_timeout hwf he hl))

/-- In bounded mode the polls before the limit-th leave the sequencer polling, and the limit-th times out (R152). -/
theorem execN_polls_timeout {limit : Nat} (hwf : s.cfg.WF) (hl : s.cfg.pollLimit = .bounded limit)
    (hp : s.phase = .converting) (hcnt : s.cnt = 0) (hclk : s.adcClock = true) (he : s.eoc = false) :
    (∀ j, j < limit → ∃ t, execN .adcRead j s = .next t ∧ t.phase = .converting ∧ t.rsp = s.rsp) ∧
    ∃ t, execN .adcRead limit s = .next t ∧ t.phase = .idle ∧ t.rsp = some .timeout ∧ t.regs = s.regs ∧
      t.conv = s.conv ∧ t.eoc = false ∧ t.fcause = s.fcause ∧ t.finfo = s.finfo ∧ t.settled = s.settled := by
  have hpolls : ∀ j, j < limit → PollsFor j s := fun j hj => ⟨hwf, hp, hclk, he, fun m hm => by
    rw [← PollLimit.bounded.inj (hl.symm.trans hm)]
    omega⟩
  refine ⟨fun j hj => ⟨_, (hpolls j hj).execN, (polled_iterate j s).phase.trans hp, (polled_iterate j s).rsp⟩, ?_⟩
  obtain ⟨k, rfl⟩ : ∃ k, limit = k + 1 := by
    have h9 := hwf.w9
    simp only [Cfg.W9, hl] at h9
    exact ⟨limit - 1, by omega⟩
  have hk := hpolls k (Nat.lt_succ_self k)
  have hpolled := polled_iterate k s
  have hlast : PollsFor 0 (polledOn^[k] s) := hk.of_polled (k := 0) hpolled
  have hlim : (polledOn^[k] s).cfg.pollLimit = .bounded ((polledOn^[k] s).cnt + 1) := by
    rw [hpolled.cfg, hl, hpolled.bounded _ hl, hcnt, Nat.zero_add]
  have hout := exec_adcRead_timeout hlast.config hlast.phase hlast.clock hlast.eoc hlim
  refine ⟨_, (execN_add hk.execN 1).trans (execN_succ hout 0), rfl, rfl, ?_⟩
  rw [afterRead_status]
  exact ⟨hpolled.regs, hpolled.conv, hlast.eoc, hpolled.fcause, hpolled.finfo, hpolled.settled⟩

/-! ### Runs that poll -/

/-- In a run, a sequencer that polls in bounded mode with polls left before the limit. -/
structure PollsBelow (w : CommandWords) (limit : Nat) (s : State) : Prop extends Polls w s where
  regsWf : s.regs.wf
  bounded : s.cfg.pollLimit = .bounded limit
  below : s.cnt < limit

/-- How a bounded poll ends: at `DONE`, or in `IDLE` with `TIMEOUT` (R151, R152). -/
def PollEnded (s : State) : Prop := s.phase = .done ∨ (s.phase = .idle ∧ s.rsp = some .timeout)

/-- The sequencer's turn is a poll, which ends the polling or is counted (R151, R152). -/
theorem PollsBelow.sequencer {w : CommandWords} {limit : Nat} (h : PollsBelow w limit s)
    (hd : decode w = .ok .adcRead) (ht : act .sequencer s = .next t) :
    PollEnded t ∨ (PollsBelow w limit t ∧ t.cnt = s.cnt + 1) := by
  obtain rfl := Host.Outcome.next.inj ((h.toPolls.sequencer hd).symm.trans ht)
  by_cases hset : s.eoc = true
  · rw [afterPoll_eoc h.config hset]
    exact .inl (.inl rfl)
  · have he : s.eoc = false := Bool.eq_false_iff.mpr hset
    by_cases hcnt : s.cnt + 1 = limit
    · rw [afterPoll_timeout h.config he (hcnt ▸ h.bounded)]
      exact .inl (.inr ⟨rfl, rfl⟩)
    · have hbelow := h.below
      rw [afterPoll_polledOn h.config he (ne_limit h.bounded hcnt)]
      have hcounted : (polledOn s).cnt = s.cnt + 1 := (polled_zero s).polledOn.bounded limit h.bounded
      exact .inr ⟨⟨⟨h.config, h.latches, h.phase, h.clock⟩, h.regsWf, h.bounded, by omega⟩, hcounted⟩

/-- Any other turn but the host's reset leaves it polling. -/
theorem PollsBelow.other {w : CommandWords} {limit : Nat} {turn : Turn} (h : PollsBelow w limit s)
    (hs : turn ≠ .sequencer) (hr : turn ≠ .reset) (ht : act turn s = .next t) :
    PollsBelow w limit t ∧ t.cnt = s.cnt := by
  obtain ⟨hpolls, hcnt, hcfg, hwf⟩ := h.toPolls.other h.regsWf hs hr ht
  exact ⟨⟨hpolls, hwf, hcfg ▸ h.bounded, hcnt ▸ h.below⟩, hcnt⟩

/-- A run without a reset, of which a state polls with the sequencer's turn `d` turns ahead, reaches an end or a state
that polls with one more poll counted. -/
theorem polls_until_sequencer {turns : Nat → Turn} {r : Nat → State} {limit : Nat} {w : CommandWords}
    (hrun : StepsBy turns r) (hr : ∀ n, turns n ≠ .reset) (hd : decode w = .ok .adcRead) (d n : Nat)
    (h : PollsBelow w limit (r n)) (hseq : ¬(r (n + d)).busy = true ∨ turns (n + d) = .sequencer) :
    ∃ m, PollEnded (r m) ∨ (PollsBelow w limit (r m) ∧ (r m).cnt = (r n).cnt + 1) := by
  induction d generalizing n with
  | zero =>
    have hturn : turns n = .sequencer := hseq.resolve_left (not_not.mpr (by simp [State.busy, h.phase]))
    exact ⟨n + 1, h.sequencer hd (hturn ▸ hrun n)⟩
  | succ d ih =>
    by_cases hturn : turns n = .sequencer
    · exact ⟨n + 1, h.sequencer hd (hturn ▸ hrun n)⟩
    · obtain ⟨hnext, hcnt⟩ := h.other hturn (hr n) (hrun n)
      obtain ⟨m, hm⟩ := ih (n + 1) hnext (by rwa [Nat.succ_add_eq_add_succ])
      exact ⟨m, hcnt ▸ hm⟩

/-- A run without a reset that is fair to the sequencer ends a bounded poll: its polls left run out (R199). -/
theorem bounded_poll_ends {turns : Nat → Turn} {r : Nat → State} {limit : Nat} {w : CommandWords}
    (hrun : StepsBy turns r) (hfair : SequencerFair turns r) (hr : ∀ n, turns n ≠ .reset)
    (hd : decode w = .ok .adcRead) (k n : Nat) (h : PollsBelow w limit (r n)) (hk : limit ≤ (r n).cnt + k) :
    ∃ m, PollEnded (r m) := by
  induction k generalizing n with
  | zero => exact absurd h.below (Nat.not_lt.mpr hk)
  | succ k ih =>
    obtain ⟨m, hnm, hseq⟩ := hfair n (by simp [State.busy, h.phase])
    obtain ⟨d, rfl⟩ := Nat.exists_eq_add_of_le hnm
    obtain ⟨m, hend | ⟨hpolls, hcnt⟩⟩ := polls_until_sequencer hrun hr hd d n h hseq
    · exact ⟨m, hend⟩
    · exact ih m hpolls (by omega)

/-- Settles O39: the polls before the limit are counted one by one, and fairness gives the sequencer its turns. -/
theorem pollTimeout : Obligations.PollTimeout := by
  refine ⟨fun s limit hwf hl hp hcnt hclk he => execN_polls_timeout hwf hl hp hcnt hclk he, ?_⟩
  intro turns r limit w hrun hr hwf hl hlat hd hp hcnt hregs hclk
  exact bounded_poll_ends hrun.steps hrun.sequencer hr hd limit 0 ⟨⟨hwf, hlat, hp, hclk⟩, hregs, hl, hcnt⟩ (by omega)

/-! ### The endless poll -/

/-- In unbounded mode with EOC 0 and no response waiting, a turn that is no reset and no completion is a fruitless poll
or changes nothing (R151, R155). -/
theorem act_endless {w : CommandWords} {turn : Turn} (h : Polls w s) (hd : decode w = .ok .adcRead)
    (hl : s.cfg.pollLimit = .unbounded) (he : s.eoc = false) (hrsp : s.rsp = none) (hr : turn ≠ .reset)
    (hc : s.conv = .idle ∨ turn ≠ .converter) : act turn s = .next s ∨ act turn s = .next (polledOn s) := by
  cases turn with
  | issue c a x y => exact .inl (congrArg _ (hostIssue_not_idle (by simp [h.phase]) _))
  | take =>
    have htake : hostTake s = s := by rw [hostTake, ← hrsp]
    exact .inl (congrArg Host.Outcome.next htake)
  | reset => exact absurd rfl hr
  | sequencer =>
    rw [h.sequencer hd, afterPoll_polledOn h.config he (by simp [hl])]
    exact .inr rfl
  | converter =>
    exact .inl (congrArg Host.Outcome.next (converterStep_idle (hc.resolve_right fun h => h rfl)))

theorem Polled.polls {w : CommandWords} {j : Nat} (h : Polled j s t) (hs : Polls w s) : Polls w t where
  config := h.cfg ▸ hs.config
  latches := h.latched.trans hs.latches
  phase := h.phase.trans hs.phase
  clock := h.adcClock.trans hs.clock

/-- Any list of such turns leaves what some number of fruitless polls leaves (R155). -/
theorem actN_endless {w : CommandWords} {turns : List Turn} (h : Polls w s) (hd : decode w = .ok .adcRead)
    (hl : s.cfg.pollLimit = .unbounded) (he : s.eoc = false) (hrsp : s.rsp = none) (hr : .reset ∉ turns)
    (hc : s.conv = .idle ∨ .converter ∉ turns) : ∃ j, actN turns s = .next (polledOn^[j] s) := by
  induction turns generalizing s with
  | nil => exact ⟨0, rfl⟩
  | cons turn rest ih =>
    obtain ⟨hr1, hr2⟩ := List.ne_and_not_mem_of_not_mem_cons hr
    have hc1 : s.conv = .idle ∨ turn ≠ .converter :=
      hc.imp_right fun h => (List.ne_and_not_mem_of_not_mem_cons h).1.symm
    have hc2 : s.conv = .idle ∨ .converter ∉ rest := hc.imp_right fun h => (List.ne_and_not_mem_of_not_mem_cons h).2
    rcases act_endless h hd hl he hrsp hr1.symm hc1 with hsame | hpoll
    · obtain ⟨j, hj⟩ := ih h hl he hrsp hr2 hc2
      exact ⟨j, by rw [actN, hsame]; exact hj⟩
    · obtain ⟨j, hj⟩ := ih (s := polledOn s) ((polled_zero s).polledOn.polls h) hl he hrsp hr2 hc2
      exact ⟨j + 1, by rw [actN, hpoll]; exact hj⟩

/-- The run that polls for ever is fair: the sequencer has every turn, and no response ever waits (R155, R199). -/
theorem endless_poll_hangs {w : CommandWords} (h : Polls w s) (hd : decode w = .ok .adcRead)
    (hl : s.cfg.pollLimit = .unbounded) (he : s.eoc = false) (hrsp : s.rsp = none) :
    Hangs (fun _ => .sequencer) (fun n => polledOn^[n] s) := by
  have hpolled : ∀ n, Polled n s (polledOn^[n] s) := fun n => polled_iterate n s
  refine ⟨⟨fun n => ?steps, fun n _ => ⟨n, le_rfl, .inr rfl⟩, fun n hwait => ?take⟩, 0, fun n _ => ?stays⟩
  case steps =>
    have hpolls := (hpolled n).polls h
    have hunb : (polledOn^[n] s).cfg.pollLimit = .unbounded := by rw [(hpolled n).cfg, hl]
    rw [hpolls.sequencer hd, afterPoll_polledOn hpolls.config ((hpolled n).eoc.trans he) (by simp [hunb]),
      Function.iterate_succ_apply']
  case take => exact absurd ((hpolled n).rsp.trans hrsp) hwait
  case stays => exact (hpolled n).phase.trans h.phase

/-- Settles O40: no turn but a fruitless poll does anything, and the endless poll is a run. -/
theorem pollNeverEndsUnbounded : Obligations.PollNeverEndsUnbounded := by
  intro s w hwf hl hlat hd hp hclk he hrsp
  have hpolls : Polls w s := ⟨hwf, hlat, hp, hclk⟩
  refine ⟨fun turns hr hc => ?_, _, _, rfl, endless_poll_hangs hpolls hd hl he hrsp⟩
  obtain ⟨j, hj⟩ := actN_endless hpolls hd hl he hrsp hr hc
  have hpolled := polled_iterate j s
  have hphase : (polledOn^[j] s).phase = .converting := hpolled.phase.trans hp
  exact ⟨_, hj, hphase, hpolled.eoc.trans he, hpolled.rsp.trans hrsp, hpolled.fcause, hpolled.finfo,
    hpolled.unbounded hl, hpolled.regs, hpolled.conv, by simp [State.busy, hphase], by simp [State.ready, hphase]⟩

/-! ### A whole `ADC_READ` -/

/-- A micro-operation is one of a busy sequencer (R21). -/
theorem Micro.busy {i : Instr} (h : Micro i s t) : s.busy = true := by
  have hp : s.phase ≠ .idle ∧ s.phase ≠ .fault := by
    cases h with
    | decoded p h hp hd => simp [hd]
    | faulted c a h hp => exact hp.2
    | read a hf h =>
      cases h with
      | latch h hp ha => rcases hp with hp | ⟨hp, -⟩ <;> simp [hp]
      | answer h hi hp => simp [hp]
      | poll h hi ha hp => simp [hp]
      | result h hi ha hp => simp [hp]
    | write a v hf h =>
      cases h with
      | next h hp => simp [hp]
      | answer h hp => simp [hp]
      | start h hi ha hp => simp [hp]
      | stab h hi ha hp => simp [hp]
    | tick n hn h hi hp => simp [hp]
  simp [State.busy, hp]

/-- The sequencer's turn is the micro-operation of the latched command (R21). -/
theorem act_sequencer {i : Instr} {c : CommandWords} (hl : latched s = some c) (hd : decode c = .ok i)
    (h : exec i s = .next t) : act .sequencer s = .next t := by
  simp only [act, sequencerStep, (exec_micro h).busy, if_true, hl, hd, h]

theorem actN_append {l l' : List Turn} (h : actN l s = .next t) : actN (l ++ l') s = actN l' t := by
  induction l generalizing s with
  | nil => rw [List.nil_append, Host.Outcome.next.inj h]
  | cons turn rest ih =>
    rw [List.cons_append, actN]
    cases hact : act turn s with
    | next u =>
      simp only [actN, hact] at h
      exact ih h
    | fault r => simp only [actN, hact, reduceCtorEq] at h
    | refused r => simp only [actN, hact, reduceCtorEq] at h

theorem actN_cons {turn : Turn} {rest : List Turn} (h : act turn s = .next t) :
    actN (turn :: rest) s = actN rest t := by
  rw [actN, h]

/-- Turns of the sequencer alone run the latched command (R21). -/
theorem actN_sequencer {i : Instr} {c : CommandWords} {k : Nat} (hl : latched s = some c) (hd : decode c = .ok i)
    (h : execN i k s = .next t) : actN (List.replicate k .sequencer) s = .next t := by
  induction k generalizing s with
  | zero => exact h
  | succ k ih =>
    cases hex : exec i s with
    | next u =>
      rw [List.replicate_succ, actN_cons (act_sequencer hl hd hex)]
      exact ih ((latched_congr (exec_micro hex).sameCommand).trans hl) ((execN_succ hex k).symm.trans h)
    | fault r => simp only [execN, hex, reduceCtorEq] at h
    | refused r => simp only [execN, hex, reduceCtorEq] at h

/-- The state in which `ADC_READ` starts to poll, from `DECODE` with an enabled converter (R148 to R150). -/
def adcReadStarted (s : State) : State :=
  startPolling (started (s.reg s.cfg.aCr ||| bit s.cfg.bStart) s.settled s.regs
    (latchedState s.cfg.aCr (enter .startRequested s)))

theorem execN_adcRead_start (hwf : s.cfg.WF) (hr : s.regs.wf) (htrig : TriggerClear s) (hclk : s.adcClock = true)
    (hon : s.adon = true) (hidle : s.conv = .idle) (hp : s.phase = .decode) :
    execN .adcRead 3 s = .next (adcReadStarted s) := by
  have hdec : exec .adcRead s = .next (enter .startRequested s) := exec_decode _ hp
  have hread : exec .adcRead (enter .startRequested s) =
      .next (latchedState s.cfg.aCr (enter .startRequested s)) :=
    exec_adcRead_latches (s := enter .startRequested s) hwf hclk rfl rfl
  have hwrite := exec_adcRead_starts (s := latchedState s.cfg.aCr (enter .startRequested s)) hwf hr htrig hclk rfl rfl
    rfl hidle hon
  rw [execN_succ hdec, execN_succ hread, execN_succ hwrite]
  rfl

/-- A sample is its own result (R153, R161). -/
theorem resultWord_sample (d : Sample) : resultWord (d.zeroExtend 32) = d.zeroExtend 32 := by
  refine congrArg (BitVec.zeroExtend 32) (BitVec.eq_of_toNat_eq ?_)
  simp only [BitVec.extractLsb'_toNat, BitVec.toNat_setWidth, Nat.shiftRight_zero]
  have := d.isLt
  omega

/-- A result has 12 bits (R153, R163). -/
theorem resultWord_le (d : Word) : (resultWord d).toNat ≤ 4095 := by
  have hlt := (d.extractLsb' 0 12).isLt
  rw [resultWord, BitVec.toNat_setWidth]
  omega

/-- Once EOC is set, a poll and the data read end `ADC_READ` with the result (R151, R153). -/
theorem execN_adcRead_result (hwf : s.cfg.WF) (hp : s.phase = .converting) (hclk : s.adcClock = true)
    (he : s.eoc = true) : ∃ t, execN .adcRead 2 s = .next t ∧ t.rsp = some (.data (resultWord (s.reg s.cfg.aDr))) ∧
      t.phase = .idle ∧ t.eoc = false ∧ t.conv = s.conv ∧ t.regs = s.regs ∧ t.fcause = s.fcause ∧
      t.settled = s.settled := by
  have hpoll := (exec_adcRead_poll hwf hp hclk).trans (congrArg _ (afterPoll_eoc hwf he))
  have hdone := doneReturnsResult (setPhase .done (State.log { s with draws := s.draws + 1 }
    (.busRd s.cfg.aSr (readValue s.cfg.aSr s)))) hwf rfl hclk
  rw [afterRead_status] at hpoll
  exact ⟨_, (execN_succ hpoll 1).trans (execN_succ hdone 0), rfl, rfl, rfl, rfl, rfl, rfl, rfl⟩

/-- A completion leaves the converter clocked (W2). -/
theorem completed_adcClock {ch : Nat} {tr : Bool} (hwf : s.cfg.WF) (hr : s.regs.wf) (hclk : s.adcClock = true) :
    (completed ch tr s).adcClock = true := by
  have hreg : (completed ch tr s).reg s.cfg.aClkAdc = s.reg s.cfg.aClkAdc :=
    (reg_setReg hr s.cfg.aDr ((Config.sampleDraw s.draws).zeroExtend 32) _).trans
      (if_neg (hwf.clock_ne (by simp) (by simp)).symm)
  exact (congrArg (BitVec.getLsbD · s.cfg.bClkAdc) hreg).trans hclk

/-- A completion's sample is in the data register. -/
theorem completed_data {ch : Nat} {tr : Bool} (hr : s.regs.wf) :
    (completed ch tr s).reg s.cfg.aDr = (Config.sampleDraw s.draws).zeroExtend 32 :=
  (reg_setReg hr s.cfg.aDr ((Config.sampleDraw s.draws).zeroExtend 32) _).trans (if_pos rfl)

/-- Settles O43: the start, `k` fruitless polls, the completion, and the poll and data read that find its sample. -/
theorem adcReadReturnsSample : Obligations.AdcReadReturnsSample := by
  intro s c k hwf hr htrig hl hd hp hclk hon hidle he hlim sample
  have hstart := execN_adcRead_start hwf hr htrig hclk hon hidle hp
  have hpolls : PollsFor k (adcReadStarted s) :=
    ⟨hwf, rfl, hclk, by simp [adcReadStarted, started, he], fun limit h => (Nat.zero_add k).symm ▸ hlim limit h⟩
  have hdraws : (adcReadStarted s).draws = s.draws := by simp [adcReadStarted, started, he]
  obtain ⟨u, hrun, hpolled, hlast⟩ : ∃ u, execN .adcRead (3 + k) s = .next u ∧ Polled k (adcReadStarted s) u ∧
      PollsFor 0 u :=
    have hpolled := polled_iterate k (adcReadStarted s)
    ⟨_, (execN_add hstart k).trans hpolls.execN, hpolled, hpolls.of_polled (k := 0) hpolled⟩
  obtain ⟨ch, tr, hconv⟩ : ∃ ch tr, u.conv = .converting ch tr := ⟨_, _, hpolled.conv⟩
  have hcfg : u.cfg = s.cfg := hpolled.cfg
  have hregs : u.regs = s.regs := hpolled.regs
  have hr' : u.regs.wf := hregs ▸ hr
  have hsample : Config.sampleDraw u.draws = sample := by rw [hpolled.draws, hdraws]
  have hcomplete : act .converter u = .next (completed ch tr u) := congrArg _ (converterStep_completes hconv)
  obtain ⟨t, hend, hrsp, hpt, het, hct, hrt, hft, hst⟩ := execN_adcRead_result (s := completed ch tr u) hlast.config
    hlast.phase (completed_adcClock hlast.config hr' hlast.clock) rfl
  have hdata : (completed ch tr u).reg (completed ch tr u).cfg.aDr = sample.zeroExtend 32 := by
    rw [← hsample]
    exact completed_data hr'
  refine ⟨t, ?_, ?_, hpt, het, hct, ?_, hft.trans hpolled.fcause, hst.trans hpolled.settled⟩
  · rw [actN_append (actN_sequencer hl hd hrun), actN_cons hcomplete]
    exact actN_sequencer (k := 2) (hpolled.latched.trans hl) hd hend
  · rw [hrsp, hdata, resultWord_sample]
  · rw [hrt, ← hsample, ← hregs, ← hcfg]
    rfl

/-! ### What `ADC_READ` responds -/

/-- A micro-operation of `ADC_READ` that answers a next state, by phase and micro-step (R148 to R153). -/
theorem exec_adcRead_cases (h : exec .adcRead s = .next t) :
    t = enter .startRequested s ∨
    (s.phase = .startRequested ∧ readHalf s.cfg.aCr s = .next t) ∨
    (s.phase = .startRequested ∧ s.upc = 1#4 ∧
      writeHalf s.cfg.aCr (bit s.cfg.bStart) 0#32 s startPolling = .next t) ∨
    (s.phase = .converting ∧ onRead s.cfg.aSr s afterPoll = .next t) ∨
    (s.phase = .done ∧ onRead s.cfg.aDr s (fun d s' => respond (.data (resultWord d)) s') = .next t) := by
  simp only [exec, execAdcRead] at h
  split at h
  · exact .inl (Host.Outcome.next.inj h).symm
  · split at h
    · exact .inr (.inl ⟨‹_›, h⟩)
    · exact .inr (.inr (.inl ⟨‹_›, BitVec.eq_of_toNat_eq ‹_›, h⟩))
    · cases h
  · exact .inr (.inr (.inr (.inl ⟨‹_›, h⟩)))
  · exact .inr (.inr (.inr (.inr ⟨‹_›, h⟩)))
  · cases h

/-- A poll responds with `TIMEOUT` or not at all (R151, R152). -/
theorem afterPoll_rsp (v : Word) (s : State) :
    (afterPoll v s).rsp = s.rsp ∨ (afterPoll v s).rsp = some .timeout := by
  rcases afterPoll_cases v s with ⟨-, h⟩ | ⟨-, -, h⟩ | ⟨_, -, -, -, h⟩ | ⟨_, -, -, -, h⟩ <;> rw [h]
  · exact .inl rfl
  · exact .inl rfl
  · exact .inr rfl
  · exact .inl rfl

/-- What a micro-operation of `ADC_READ` leaves in the response slot: what was there, `TIMEOUT`, or a result (R152,
R153). -/
theorem exec_adcRead_rsp (h : exec .adcRead s = .next t) :
    t.rsp = s.rsp ∨ t.rsp = some .timeout ∨ ∃ d, t.rsp = some (.data (resultWord d)) := by
  rcases exec_adcRead_cases h with rfl | ⟨-, hread⟩ | ⟨-, -, hwrite⟩ | ⟨-, hpoll⟩ | ⟨-, hdone⟩
  · exact .inl rfl
  · rcases onRead_next hread with ⟨c, rfl⟩ | rfl
    · exact .inl rfl
    · exact .inl (afterRead_rsp ..)
  · rcases writeHalf_next hwrite with ⟨-, rfl⟩ | ⟨w, -, rfl⟩
    · exact .inl rfl
    · split
      · exact .inl rfl
      · exact .inl (afterWrite_rsp ..)
  · rcases onRead_next hpoll with ⟨c, rfl⟩ | rfl
    · exact .inl rfl
    · rcases afterPoll_rsp (readValue s.cfg.aSr s) (afterRead s.cfg.aSr s) with hsame | hout
      · exact .inl (hsame.trans (afterRead_rsp ..))
      · exact .inr (.inl hout)
  · rcases onRead_next hdone with ⟨c, rfl⟩ | rfl
    · exact .inl rfl
    · exact .inr (.inr ⟨_, rfl⟩)

/-- Settles O42: the only data `ADC_READ` responds with is a result, which has 12 bits. -/
theorem adcReadResultInRange : Obligations.AdcReadResultInRange := by
  intro s t w hrsp h ht
  rcases exec_adcRead_rsp h with hsame | hout | ⟨d, hd⟩
  · cases (hsame.trans hrsp).symm.trans ht
  · cases hout.symm.trans ht
  · obtain rfl : resultWord d = w := Response.data.inj (Option.some.inj (hd.symm.trans ht))
    exact resultWord_le d

/-! ### What `ADC_INIT` and `ADC_READ` leave alone -/

/-- A write half writes its register, or faults (R65, R186). -/
theorem writeHalf_frame {k : State → State} (h : writeHalf a x y s k = .next t) :
    (∃ c b, t = takeFault c b s) ∨ ∃ w, s.t = some w ∧ t = k (afterWrite a (merge w x y) s) := by
  rcases writeHalf_next h with ⟨-, rfl⟩ | ⟨w, hw, rfl⟩
  · exact .inl ⟨_, _, rfl⟩
  · split
    · exact .inl ⟨_, _, rfl⟩
    · exact .inr ⟨w, hw, rfl⟩

/-- The registers, EOC, the conversion and the draws are one state's as another's. -/
structure SameConversion (s t : State) : Prop where
  regs : t.regs = s.regs
  eoc : t.eoc = s.eoc
  conv : t.conv = s.conv
  draws : t.draws = s.draws

theorem adcInitGoesOn_same (n : BitVec 4) (s : State) : SameConversion s (adcInitGoesOn n s) := by
  unfold adcInitGoesOn
  split
  · have hkept := beginStab_kept s
    exact ⟨hkept.regs, hkept.eoc, hkept.conv, hkept.draws⟩
  · exact ⟨rfl, rfl, rfl, rfl⟩

/-- A micro-operation of `ADC_INIT` leaves registers and converter alone, or does to them what its one write does
(R140). -/
theorem exec_adcInit_frame (hwf : s.cfg.WF) (h : exec .adcInit s = .next t) : SameConversion s t ∨
    ∃ n a x y w, AdcInitUpdate s.cfg n a x y ∧ s.phase = .exec ∧ s.upc = n + 1#4 ∧ s.t = some w ∧
      SameConversion (afterWrite a (merge w x y) s) t := by
  rcases exec_adcInit_cases h with
    rfl | (⟨n, a, x, y, hupd, hp, -, hread⟩ | ⟨n, a, x, y, hupd, hp, hu, hwrite⟩) | ⟨hp, htick⟩
  · exact .inl ⟨rfl, rfl, rfl, rfl⟩
  · obtain ⟨-, hsr, hdr⟩ := hupd.plain hwf
    obtain ⟨hafter, -⟩ := afterRead_plain hsr hdr
    rcases onRead_next hread with ⟨c, rfl⟩ | rfl
    · exact .inl ⟨rfl, rfl, rfl, rfl⟩
    · rw [hafter]
      exact .inl ⟨rfl, rfl, rfl, rfl⟩
  · rcases writeHalf_frame hwrite with ⟨c, b, rfl⟩ | ⟨w, hw, rfl⟩
    · exact .inl ⟨rfl, rfl, rfl, rfl⟩
    · exact .inr ⟨n, a, x, y, w, hupd, hp, hu, hw, adcInitGoesOn_same n _⟩
  · have hkept := stabTick_kept hp htick
    exact .inl ⟨hkept.regs, hkept.eoc, hkept.conv, hkept.draws⟩

/-- The updates of `ADC_INIT` before the last are not of `A_CR` (W2, W3). -/
theorem AdcInitUpdate.control_or_ne {c : Cfg} (h : AdcInitUpdate c n a x y) (hwf : c.WF) :
    (n = 8#4 ∧ a = c.aCr ∧ x = bit c.bAdon ∧ y = 0#32) ∨ (n ≠ 8#4 ∧ a ≠ c.aCr) := by
  cases h with
  | clockAn => exact .inr ⟨by decide, hwf.clock_ne (by simp) (by simp)⟩
  | clockAdc => exact .inr ⟨by decide, hwf.clock_ne (by simp) (by simp)⟩
  | mode => exact .inr ⟨by decide, (hwf.converter_ne (by simp) (by simp)).symm⟩
  | sequence => exact .inr ⟨by decide, hwf.converter_nodup.1⟩
  | control => exact .inl ⟨rfl, rfl, rfl, rfl⟩

/-- The write of ADON over `A_CR`'s own word starts nothing (R156). -/
theorem afterWrite_setAdon_quiet (hwf : s.cfg.WF) (htrig : TriggerClear s) :
    (afterWrite s.cfg.aCr (merge (s.reg s.cfg.aCr) (bit s.cfg.bAdon) 0#32) s).eoc = s.eoc ∧
      (afterWrite s.cfg.aCr (merge (s.reg s.cfg.aCr) (bit s.cfg.bAdon) 0#32) s).conv = s.conv := by
  have hne : s.cfg.aCr ≠ s.cfg.aClkAdc := (hwf.clock_ne (by simp) (by simp)).symm
  rw [afterWrite_control hne (getLsbD_start_setAdon hwf htrig)]
  exact ⟨unsettleIf_eoc .., unsettleIf_conv ..⟩

theorem RegsKeptBut.of_regs {l : List Word} (h : t.regs = s.regs) : RegsKeptBut l s t := fun b _ => by
  rw [State.reg, h, State.reg]

theorem RegsKeptBut.afterWrite (hr : s.regs.wf) (h : t.regs = (afterWrite a v s).regs) : RegsKeptBut [a] s t :=
  fun b hb => by
    rw [State.reg, h, ← State.reg, afterWrite_reg hr, if_neg fun hab => hb (by simp [hab])]

/-- A micro-operation of `ADC_READ` outside the start leaves registers, conversion and `SETTLED` (R151, R153). -/
theorem exec_adcRead_quiet (h : exec .adcRead s = .next t) (hstart : ¬(s.phase = .startRequested ∧ s.upc = 1#4)) :
    t.regs = s.regs ∧ t.conv = s.conv ∧ t.settled = s.settled := by
  rcases exec_adcRead_cases h with rfl | ⟨-, hread⟩ | ⟨hp, hu, -⟩ | ⟨-, hpoll⟩ | ⟨-, hdone⟩
  · exact ⟨rfl, rfl, rfl⟩
  · rcases onRead_next hread with ⟨c, rfl⟩ | rfl
    · exact ⟨rfl, rfl, rfl⟩
    · exact ⟨afterRead_regs .., afterRead_conv .., afterRead_settled ..⟩
  · exact absurd ⟨hp, hu⟩ hstart
  · rcases onRead_next hpoll with ⟨c, rfl⟩ | rfl
    · exact ⟨rfl, rfl, rfl⟩
    · rcases afterPoll_cases (readValue s.cfg.aSr s) (afterRead s.cfg.aSr s) with
        ⟨-, h⟩ | ⟨-, -, h⟩ | ⟨_, -, -, -, h⟩ | ⟨_, -, -, -, h⟩ <;> rw [h] <;>
        exact ⟨afterRead_regs .., afterRead_conv .., afterRead_settled ..⟩
  · rcases onRead_next hdone with ⟨c, rfl⟩ | rfl
    · exact ⟨rfl, rfl, rfl⟩
    · exact ⟨afterRead_regs .., afterRead_conv .., afterRead_settled ..⟩

/-- The write of the start, which faults or is one write of `A_CR` (R149). -/
theorem exec_adcRead_trigger_frame (h : exec .adcRead s = .next t) (hp : s.phase = .startRequested)
    (hu : s.upc = 1#4) : (∃ c b, t = takeFault c b s) ∨
      ∃ w, s.t = some w ∧ t = startPolling (afterWrite s.cfg.aCr (merge w (bit s.cfg.bStart) 0#32) s) :=
  writeHalf_frame ((exec_adcRead_controlWrite hp hu).symm.trans h)

/-- The write of START over `A_CR`'s own word does not change ADON, so it keeps `SETTLED` (R156). -/
theorem afterWrite_trigger_settled (hwf : s.cfg.WF) :
    (afterWrite s.cfg.aCr (merge (s.reg s.cfg.aCr) (bit s.cfg.bStart) 0#32) s).settled = s.settled := by
  have hne : s.cfg.aCr ≠ s.cfg.aClkAdc := (hwf.clock_ne (by simp) (by simp)).symm
  have hadon : (s.reg s.cfg.aCr ||| bit s.cfg.bStart).getLsbD s.cfg.bAdon = (s.reg s.cfg.aCr).getLsbD s.cfg.bAdon :=
    (triggerWord_bits hwf).2
  rw [merge_set, afterWrite_settled, hadon]
  simp [hne]

/-- Settles O45: the frame of every micro-operation, and of the one access each of these makes. -/
theorem analogInputFrame : Obligations.AnalogInputFrame := by
  refine ⟨fun s t hwf hr h => ?adcInit, fun s t hwf hr h => ?adcRead⟩
  case adcInit =>
    obtain ⟨hcmd, hfault, hrsp, htrace⟩ := (exec_micro h).frame
    refine ⟨hcmd, hfault, hrsp, htrace, ?_⟩
    rcases exec_adcInit_frame hwf h with hsame | ⟨n, a, x, y, w, hupd, hp, hu, hw, hsame⟩
    · exact ⟨fun _ _ => ⟨hsame.eoc, hsame.conv⟩, fun _ => ⟨hsame.eoc, hsame.conv, hsame.draws⟩, .of_regs hsame.regs⟩
    · refine ⟨fun hlat htrig => ?latched, fun hne => ?earlier, ?regs⟩
      case regs =>
        have hwritten := RegsKeptBut.afterWrite hr hsame.regs
        cases hupd <;> simpa [hp, hu] using hwritten
      case latched =>
        rw [hsame.eoc, hsame.conv]
        rcases hupd.control_or_ne hwf with ⟨-, rfl, rfl, rfl⟩ | ⟨-, hcr⟩
        · obtain rfl : s.reg s.cfg.aCr = w := Option.some.inj (hlat.symm.trans hw)
          exact afterWrite_setAdon_quiet hwf htrig
        · obtain ⟨heoc, hconv, -⟩ := afterWrite_quiet (merge w x y) hcr
          exact ⟨heoc, hconv⟩
      case earlier =>
        rw [hsame.eoc, hsame.conv, hsame.draws]
        rcases hupd.control_or_ne hwf with ⟨rfl, -⟩ | ⟨-, hcr⟩
        · exact absurd hu hne
        · exact afterWrite_quiet _ hcr
  case adcRead =>
    obtain ⟨hcmd, hfault, hrsp, htrace⟩ := (exec_micro h).frame
    refine ⟨hcmd, hfault, hrsp, htrace, ?_⟩
    by_cases hstart : s.phase = .startRequested ∧ s.upc = 1#4
    · obtain ⟨hp, hu⟩ := hstart
      rw [if_pos ⟨hp, hu⟩]
      rcases exec_adcRead_trigger_frame h hp hu with ⟨c, b, rfl⟩ | ⟨w, hw, rfl⟩
      · exact ⟨fun _ => rfl, fun hne => absurd hp hne, .of_regs rfl⟩
      · refine ⟨fun hlat => ?_, fun hne => absurd hp hne, .afterWrite hr rfl⟩
        obtain rfl : s.reg s.cfg.aCr = w := Option.some.inj (hlat.symm.trans hw)
        exact afterWrite_trigger_settled hwf
    · obtain ⟨hregs, hconv, hset⟩ := exec_adcRead_quiet h hstart
      rw [if_neg hstart]
      exact ⟨fun _ => hset, fun _ => ⟨hregs, hconv, hset⟩, .of_regs hregs⟩

end Sys2Proof.Machine

/-! SUPPORT and PROOFS. The family 60_exceptions.md. A micro-operation that ends in `FAULT` is a fault entry
(`Micro.fault_entry`), since no other end of one leaves the sequencer there. Which faults a command can raise follows
from its accesses (`FaultsOnly`): an access reports the cause of its first failing check, and what the invariant knows
at the micro-operation says which checks pass. -/

namespace Sys2Proof.Machine

variable {i : Instr} {s t : State} {a m v w x y info : Word} {n pin : BitVec 4} {level : Bool} {c : Cause}

/-! ### Fault entry -/

theorem endStab_phase (s : State) : (endStab s).phase = .idle := by rw [endStab_eq]

theorem beginStab_phase_ne_fault (s : State) : (beginStab s).phase ≠ .fault := by
  unfold beginStab
  split
  · simp [endStab_phase]
  · nofun

theorem waitStep_phase_ne_fault {k : Nat} (hp : s.phase ≠ .fault) :
    (if k = 0 then endStab (setCnt k s) else setCnt k s).phase ≠ .fault := by
  split
  · simp [endStab_phase]
  · exact hp

theorem afterPoll_phase_ne_fault (v : Word) (hp : s.phase ≠ .fault) : (afterPoll v s).phase ≠ .fault := by
  rcases afterPoll_cases v s with ⟨-, h⟩ | ⟨-, -, h⟩ | ⟨_, -, -, -, h⟩ | ⟨_, -, -, -, h⟩ <;> rw [h]
  · nofun
  · exact hp
  · nofun
  · exact hp

theorem ReadEnd.phase_ne_fault (h : ReadEnd i s a t) : t.phase ≠ .fault := by
  cases h with
  | latch h hp ha => rcases hp with hp | ⟨hp, -⟩ <;> simp [h, hp]
  | answer h hi hp => simp [h]
  | poll h hi ha hp => exact h ▸ afterPoll_phase_ne_fault _ (by simp [hp])
  | result h hi ha hp => simp [h]

theorem WriteEnd.phase_ne_fault (h : WriteEnd i s a v t) : t.phase ≠ .fault := by
  cases h with
  | next h hp => simp [h, hp]
  | answer h hp => simp [h]
  | start h hi ha hp => simp [h]
  | stab h hi ha hp => exact h ▸ beginStab_phase_ne_fault _

/-- A micro-operation that ends in `FAULT` did nothing but enter it (R186). -/
theorem Micro.fault_entry (h : Micro i s t) (hp : t.phase = .fault) : ∃ c info, t = takeFault c info s := by
  cases h with
  | decoded p h hd _ => rcases hd with rfl | rfl <;> simp [h] at hp
  | faulted c a h _ => exact ⟨c, a, h⟩
  | read a hf h => exact absurd hp h.phase_ne_fault
  | write a v hf h => exact absurd hp h.phase_ne_fault
  | tick k hk h hi hw => exact absurd hp (h ▸ waitStep_phase_ne_fault (by simp [hw]))

/-- Settles O50: an empty latch, a rejected word and a failed check all end in `takeFault`, which is R186's entry. -/
theorem faultEntryIsPrecise : Obligations.FaultEntryIsPrecise := by
  intro s t hne h hp
  rcases sequencerStep_next h with ⟨-, rfl⟩ | ⟨-, -, rfl⟩ | ⟨-, w, -, rfl⟩ | ⟨w, i, -, -, hex⟩
  · exact absurd hp hne
  · exact ⟨_, _, rfl⟩
  · exact ⟨_, _, rfl⟩
  · exact (exec_micro hex).fault_entry hp

/-! ### The host's turns, and the turns in `FAULT` -/

theorem hostIssue_ready (hp : s.phase = .idle) (hr : s.rsp = none) (w : CommandWords) :
    hostIssue w s = latchCommand w (s.log (.issue w.cmd w.addr w.a w.b)) :=
  if_pos (by simp [State.ready, hp, hr])

theorem hostIssue_not_ready (h : s.phase ≠ .idle ∨ s.rsp ≠ none) (w : CommandWords) : hostIssue w s = s :=
  if_neg (by simpa [State.ready, imp_iff_not_or] using h)

/-- Settles O48: an offered command is latched where the interface is ready, and waits with the host elsewhere. -/
theorem hostActions : Obligations.HostActions := fun _ _ _ _ _ =>
  ⟨fun hp hr => congrArg Host.Outcome.next (hostIssue_ready hp hr _),
    fun h => congrArg Host.Outcome.next (hostIssue_not_ready h _), rfl⟩

/-- The sequencer has no step in `IDLE` and in `FAULT` (R21, R187). -/
theorem sequencerStep_not_busy (h : s.busy = false) : sequencerStep s = .next s := by simp [sequencerStep, h]

/-- A completion leaves the sequencer and its fault registers alone (R160). -/
theorem converterStep_faultRegs (s : State) : (converterStep s).phase = s.phase ∧
    (converterStep s).fcause = s.fcause ∧ (converterStep s).finfo = s.finfo := by
  cases hc : s.conv with
  | idle => rw [converterStep_idle hc]; exact ⟨rfl, rfl, rfl⟩
  | converting ch tr => rw [converterStep_completes hc]; exact ⟨rfl, rfl, rfl⟩

/-- No turn but the host's reset leaves `FAULT` or changes the fault registers (R187, R188). -/
theorem act_faulted {turn : Turn} (hp : s.phase = .fault) (hr : turn ≠ .reset) :
    ∃ t, act turn s = .next t ∧ t.phase = .fault ∧ t.fcause = s.fcause ∧ t.finfo = s.finfo := by
  cases turn with
  | issue c a x y => exact ⟨s, congrArg _ (hostIssue_not_idle (by simp [hp]) _), hp, rfl, rfl⟩
  | take => exact ⟨hostTake s, rfl, hp, rfl, rfl⟩
  | reset => exact absurd rfl hr
  | sequencer => exact ⟨s, sequencerStep_not_busy (by simp [State.busy, hp]), hp, rfl, rfl⟩
  | converter =>
    obtain ⟨hphase, hcause, hinfo⟩ := converterStep_faultRegs s
    exact ⟨_, rfl, hphase.trans hp, hcause, hinfo⟩

/-- Settles O51: neither the sequencer nor an `issue` is enabled, and of the other turns only reset is of the
sequencer's registers. -/
theorem faultIsSticky : Obligations.FaultIsSticky := by
  intro s hp
  have hidle : s.phase ≠ .idle := by simp [hp]
  refine ⟨hp, fun hends => hidle hends.1, by simp [State.ready, hidle],
    sequencerStep_not_busy (by simp [State.busy, hp]),
    fun _ _ _ _ => congrArg Host.Outcome.next (hostIssue_not_idle hidle _), fun hconv => ?completes,
    fun turn => act_faulted hp, hostReset s, rfl, rfl, rfl, rfl⟩
  case completes =>
    cases hc : s.conv with
    | idle => exact absurd hc hconv
    | converting ch tr => exact ⟨_, congrArg Host.Outcome.next (converterStep_completes hc), rfl, rfl⟩

/-! ### Which causes an access can report -/

/-- The causes that the checks of every access can report (R68, R70, R71). -/
theorem accessFault_some (h : accessFault s a = some c) : c = .misaligned ∨ c = .unmapped ∨ c = .unclocked := by
  unfold accessFault at h
  split at h
  · exact .inl (Option.some.inj h).symm
  · split at h
    · exact .inr (.inl (Option.some.inj h).symm)
    · split at h
      · exact .inr (.inr (Option.some.inj h).symm)
      · cases h

/-- An access to a configured register can only find it gated off (W1, R68). -/
theorem accessFault_mapped_some (hwf : s.cfg.WF) (ha : a ∈ mapped s.cfg) (h : accessFault s a = some c) :
    c = .unclocked := by
  rw [accessFault_mapped hwf ha] at h
  split at h
  · exact (Option.some.inj h).symm
  · cases h

/-- Past `WriteCheck` a write can only disturb a conversion in flight (R65, R69). -/
theorem writeFault_checked_some (hchk : writeCheck s a = none) (h : writeFault s a v = some c) :
    c = .converterDisturbed ∧ s.disturbs a v = true := by
  rw [writeFault_passed hchk] at h
  split at h
  · exact ⟨(Option.some.inj h).symm, ‹_›⟩
  · cases h

/-! ### Results that fault only as allowed -/

/-- Where the result is a state in `FAULT`, its cause and `FINFO` are among the allowed ones. -/
def FaultsOnly (allowed : Cause → Word → Prop) (r : Result) : Prop :=
  ∀ t, r = .next t → t.phase = .fault → ∃ c, t.fcause = some c ∧ allowed c t.finfo

variable {allowed : Cause → Word → Prop}

theorem FaultsOnly.next (h : t.phase ≠ .fault) : FaultsOnly allowed (.next t) := by
  rintro _ ⟨⟩ hp
  exact absurd hp h

theorem FaultsOnly.takeFault (h : allowed c info) : FaultsOnly allowed (.next (takeFault c info s)) := by
  rintro _ ⟨⟩ -
  exact ⟨c, rfl, h⟩

theorem FaultsOnly.onRead {k : Word → State → State} (hf : ∀ c, accessFault s a = some c → allowed c a)
    (hk : (k (readValue a s) (afterRead a s)).phase ≠ .fault) : FaultsOnly allowed (onRead a s k) := by
  rw [onRead_eq]
  cases h : accessFault s a with
  | some c => exact .takeFault (hf c h)
  | none => exact .next hk

theorem FaultsOnly.onWrite {k : State → State} (hf : ∀ c, writeFault s a v = some c → allowed c a)
    (hk : (k (afterWrite a v s)).phase ≠ .fault) : FaultsOnly allowed (onWrite a v s k) := by
  rw [onWrite_eq]
  cases h : writeFault s a v with
  | some c => exact .takeFault (hf c h)
  | none => exact .next hk

theorem FaultsOnly.readHalf (hp : s.phase ≠ .fault) (hf : ∀ c, accessFault s a = some c → allowed c a) :
    FaultsOnly allowed (readHalf a s) :=
  .onRead hf (by simpa using hp)

/-- A read half of a clocked register does not fault. -/
theorem FaultsOnly.readHalf_clocked (hp : s.phase ≠ .fault) (hwf : s.cfg.WF) (ha : a ∈ mapped s.cfg)
    (hc : s.clocked a = true) : FaultsOnly allowed (Machine.readHalf a s) :=
  .readHalf hp fun _ hf => nomatch (accessFault_clocked hwf ha hc).symm.trans hf

theorem FaultsOnly.writeHalf {k : State → State} (ht : s.t = some w)
    (hf : ∀ c, writeFault s a (merge w x y) = some c → allowed c a)
    (hk : (k (afterWrite a (merge w x y) s)).phase ≠ .fault) : FaultsOnly allowed (writeHalf a x y s k) := by
  rw [Machine.writeHalf, ht]
  exact .onWrite hf hk

/-! ### The fault table -/

theorem rd_faultsOnly (hm : microAt (.rd a) s) : FaultsOnly (mayRaise (.rd a) s) (exec (.rd a) s) := by
  obtain ⟨hp, hu⟩ := hm
  rw [exec_rd_read hp hu]
  exact .onRead (fun c hf => ⟨hp, rfl, accessFault_some hf⟩) nofun

theorem wr_faultsOnly (hm : microAt (.wr a v) s) : FaultsOnly (mayRaise (.wr a v) s) (exec (.wr a v) s) := by
  obtain ⟨hp, hu⟩ := hm
  rw [exec_wr_write hp hu]
  refine .onWrite (fun c hf => ⟨hp, rfl, ?_⟩) nofun
  rcases writeFault_some hf with hacc | hro | hdist
  · exact (accessFault_some hacc).imp_right (.imp_right .inl)
  · exact .inr (.inr (.inr (.inl hro)))
  · exact .inr (.inr (.inr (.inr hdist)))

/-- `MOD` makes the checks of R104 at its read half, so its write half can only disturb a conversion. -/
theorem mod_faultsOnly (hm : microAt (.mod a x y) s) :
    FaultsOnly (mayRaise (.mod a x y) s) (exec (.mod a x y) s) := by
  obtain ⟨hp, hu | ⟨hu, hchk, ht⟩⟩ := hm
  · cases hchk : writeCheck s a with
    | some c =>
      rw [exec_mod_refused hp hu hchk]
      refine .takeFault ⟨hp, rfl, .inl ⟨hu, ?_⟩⟩
      rcases writeCheck_some hchk with hacc | hro
      · exact (accessFault_some hacc).imp_right (.imp_right .inl)
      · exact .inr (.inr (.inr hro))
    | none =>
      rw [exec_mod_readHalf hp hu hchk, readHalf_passed hchk]
      exact .next (by simp [hp])
  · rw [exec_mod_onWrite hp hu ht]
    exact .onWrite (fun c hf => ⟨hp, rfl, .inr ⟨hu, (writeFault_checked_some hchk hf).1⟩⟩) nofun

/-- What the invariant says of the converter's clock (R33, R160). -/
theorem DeviceOk.clockHeld (h : DeviceOk s) : ClockHeld s := by
  refine ⟨fun hne => ?_, fun hs => (h.settled hs).1⟩
  have hconv := h.conv
  unfold ConvOk at hconv
  split at hconv
  · exact absurd ‹_› hne
  · exact hconv.2.1

/-- `PORT_INIT` sets its port's clock before it uses it, and sets no bit that commands the converter (R120). -/
theorem portInit_faultsOnly (hd : DeviceOk s) (hm : microAt (.portInit m) s) :
    FaultsOnly (mayRaise (.portInit m) s) (exec (.portInit m) s) := by
  have hwf := hd.config
  have hclk : s.cfg.aClkOut ∈ s.cfg.clockAddresses := by simp
  obtain ⟨hp, hat⟩ := hm
  obtain ⟨k, hu⟩ : ∃ k, s.upc.toNat = k := ⟨_, rfl⟩
  rw [portInitAt_iff hu] at hat
  match k, hat with
  | 0, _ =>
    rw [exec_portInit_clockRead hp (BitVec.eq_of_toNat_eq hu), readHalf_clock hwf hclk]
    exact .next (by simp [hp])
  | 1, ht =>
    rw [exec_portInit_setsClock hwf hd.clockHeld hp (BitVec.eq_of_toNat_eq hu) ht]
    exact .next (by simp [hp])
  | 2, hon =>
    rw [exec_portInit_modeRead hp (BitVec.eq_of_toNat_eq hu), readHalf_outPort hwf hon (.inl rfl)]
    exact .next (by simp [hp])
  | 3, ⟨hon, ht⟩ =>
    rw [exec_portInit_setsMode hwf hon hp (BitVec.eq_of_toNat_eq hu) ht]
    exact .next nofun

/-- `PIN_SET` finds out at its read half whether the port is clocked (R122). -/
theorem pinSet_faultsOnly (hd : DeviceOk s) (hm : microAt (.pinSet pin level) s) :
    FaultsOnly (mayRaise (.pinSet pin level) s) (exec (.pinSet pin level) s) := by
  obtain ⟨hp, hu | ⟨hu, hon, ht⟩⟩ := hm
  · rw [exec_pinSet_read hp hu]
    exact .readHalf (by simp [hp]) fun c hf =>
      ⟨hp, hu, rfl, accessFault_mapped_some hd.config (by simp [mapped]) hf⟩
  · rw [exec_pinSet_write hd.config hon hp hu ht]
    exact .next nofun

/-- The register of each update of `ADC_INIT` is clocked when it is read (R31, R140). -/
theorem AdcInitUpdate.read_clocked (h : AdcInitUpdate s.cfg n a x y) (hwf : s.cfg.WF) (hu : s.upc = n)
    (hat : adcInitAt s) : s.clocked a = true := by
  have hf : adcInitFacts s n.toNat := (adcInitAt_iff (congrArg BitVec.toNat hu)).mp hat
  cases h with
  | clockAn => exact clocked_clock (by simp)
  | clockAdc => exact clocked_clock (by simp)
  | mode => exact (clocked_moderAn hwf).trans hf.1
  | sequence => exact (clocked_converter hwf (by simp)).trans hf
  | control => exact (clocked_converter hwf (by simp)).trans hf

/-- When it is written it is still clocked, and `T` holds its word (R72, R140). -/
theorem AdcInitUpdate.write_ready (h : AdcInitUpdate s.cfg n a x y) (hwf : s.cfg.WF) (hu : s.upc = n + 1#4)
    (hat : adcInitAt s) : s.clocked a = true ∧ LatchedFrom s a := by
  have hf : adcInitFacts s (n + 1#4).toNat := (adcInitAt_iff (congrArg BitVec.toNat hu)).mp hat
  cases h with
  | clockAn => exact ⟨clocked_clock (by simp), hf⟩
  | clockAdc => exact ⟨clocked_clock (by simp), hf.2⟩
  | mode => exact ⟨(clocked_moderAn hwf).trans hf.1, hf.2.2⟩
  | sequence => exact ⟨(clocked_converter hwf (by simp)).trans hf.1, hf.2⟩
  | control => exact ⟨(clocked_converter hwf (by simp)).trans hf.1, hf.2⟩

/-- Of `ADC_INIT`'s five writes only that of `A_SQR` can disturb a conversion: the clocks stay on, and `A_CR` is written
with ADON and without START (R69, R140). -/
theorem AdcInitUpdate.disturbs_sequence (h : AdcInitUpdate s.cfg n a x y) (hd : DeviceOk s)
    (hdist : s.disturbs a (merge (s.reg a) x y) = true) : n = 6#4 ∧ a = s.cfg.aSqr := by
  have hwf := hd.config
  have clock {b z : Word} (hb : b ∈ s.cfg.clockAddresses) : s.disturbs b (merge (s.reg b) z 0#32) = false :=
    (writeFault_none.mp (writeFault_setClock hwf hb hd.clockHeld.1 z)).2
  cases h with
  | clockAn => exact nomatch (clock (by simp)).symm.trans hdist
  | clockAdc => exact nomatch (clock (by simp)).symm.trans hdist
  | mode =>
    have hcr : s.cfg.aModerAn ≠ s.cfg.aCr := (hwf.converter_ne (by simp) (by simp)).symm
    have hck : s.cfg.aModerAn ≠ s.cfg.aClkAdc := (hwf.clock_ne (by simp) (by simp)).symm
    have hsq : s.cfg.aModerAn ≠ s.cfg.aSqr := (hwf.converter_ne (by simp) (by simp)).symm
    exact nomatch (disturbs_plain hcr hck fun h => absurd h hsq).symm.trans hdist
  | sequence => exact ⟨rfl, rfl⟩
  | control =>
    have hck : s.cfg.aCr ≠ s.cfg.aClkAdc := (hwf.clock_ne (by simp) (by simp)).symm
    obtain ⟨hsqcr, -⟩ := hwf.converter_nodup
    obtain ⟨-, -, -, hadon, -⟩ := hwf.bits_lt
    have hquiet := disturbs_control hck hsqcr.symm
      (.inr ⟨getLsbD_start_setAdon hwf hd.trigger, getLsbD_merge_bit hadon⟩)
    exact nomatch hquiet.symm.trans hdist

theorem adcInitGoesOn_phase_ne_fault (hp : s.phase ≠ .fault) : (adcInitGoesOn n s).phase ≠ .fault := by
  unfold adcInitGoesOn
  split
  · exact beginStab_phase_ne_fault s
  · exact hp

theorem adcInit_faultsOnly (hd : DeviceOk s) (hm : microAt .adcInit s) :
    FaultsOnly (mayRaise .adcInit s) (exec .adcInit s) := by
  have hwf := hd.config
  have hat (hp : s.phase = .exec) : adcInitAt s := by
    rcases hm with ⟨-, hat⟩ | ⟨hw, -⟩
    · exact hat
    · exact nomatch hp.symm.trans hw
  intro t h hfault
  rcases exec_adcInit_cases h with
    rfl | (⟨n, a, x, y, hupd, hp, hu, hread⟩ | ⟨n, a, x, y, hupd, hp, hu, hwrite⟩) | ⟨hp, htick⟩
  · cases hfault
  · obtain ⟨hmap, -, -⟩ := hupd.plain hwf
    exact FaultsOnly.readHalf_clocked (by simp [hp]) hwf hmap (hupd.read_clocked hwf hu (hat hp)) t hread hfault
  · obtain ⟨hmap, hsr, hdr⟩ := hupd.plain hwf
    obtain ⟨hclk, ht⟩ := hupd.write_ready hwf hu (hat hp)
    refine FaultsOnly.writeHalf ht (fun c hf => ?_) (adcInitGoesOn_phase_ne_fault (by simp [hp])) t hwrite hfault
    obtain ⟨hc, hdist⟩ := writeFault_checked_some (writeCheck_clocked hwf hmap hclk hsr hdr) hf
    obtain ⟨rfl, rfl⟩ := hupd.disturbs_sequence hd hdist
    exact ⟨hp, hu, rfl, hc⟩
  · obtain ⟨k, -, rfl⟩ := stabTick_next htick
    exact absurd hfault (waitStep_phase_ne_fault (by simp [hp]))

/-- `ADC_READ` finds out at its first read whether the converter is clocked, and at its write of START whether a
conversion is in flight (R148, R149). -/
theorem adcRead_faultsOnly (hd : DeviceOk s) (hm : microAt .adcRead s) :
    FaultsOnly (mayRaise .adcRead s) (exec .adcRead s) := by
  have hwf := hd.config
  obtain ⟨-, -, -, hcrsr, hcrdr, -⟩ := hwf.converter_nodup
  rcases hm with ⟨hp, hu | ⟨hu, hclk, ht⟩⟩ | ⟨hp, hclk, -⟩ | ⟨hp, hclk, -⟩
  · rw [exec_adcRead_controlRead hp hu]
    exact .readHalf (by simp [hp]) fun c hf =>
      ⟨hp, rfl, .inl ⟨hu, accessFault_mapped_some hwf (by simp [mapped]) hf⟩⟩
  · have hchk : writeCheck s s.cfg.aCr = none :=
      writeCheck_clocked hwf (by simp [mapped]) ((clocked_converter hwf (by simp)).trans hclk) hcrsr hcrdr
    rw [exec_adcRead_controlWrite hp hu]
    exact .writeHalf ht (fun c hf => ⟨hp, rfl, .inr ⟨hu, (writeFault_checked_some hchk hf).1⟩⟩) nofun
  · rw [exec_adcRead_poll hwf hp hclk]
    exact .next (afterPoll_phase_ne_fault _ (by simp [hp]))
  · have hacc : accessFault s s.cfg.aDr = none :=
      accessFault_clocked hwf (by simp [mapped]) ((clocked_converter hwf (by simp)).trans hclk)
    rw [exec_adcRead_done hp, onRead_passed hacc]
    exact .next nofun

/-- At one of its micro-operations a command raises only what R184 gives it there. -/
theorem exec_faultsOnly (hd : DeviceOk s) (hm : microAt i s) : FaultsOnly (mayRaise i s) (exec i s) := by
  cases i with
  | rd a => exact rd_faultsOnly hm
  | wr a v => exact wr_faultsOnly hm
  | mod a x y => exact mod_faultsOnly hm
  | portInit m => exact portInit_faultsOnly hd hm
  | pinSet pin level => exact pinSet_faultsOnly hd hm
  | adcInit => exact adcInit_faultsOnly hd hm
  | adcRead => exact adcRead_faultsOnly hd hm

/-- `DECODE` of a legal command does not fault (R88). -/
theorem exec_decode_faultsOnly (hp : s.phase = .decode) : FaultsOnly allowed (exec i s) := by
  rw [exec_decode i hp]
  refine .next ?_
  rw [enter_phase]
  split <;> nofun

/-- Settles O52: an illegal word faults at `DECODE`, and a legal command only at its own micro-operations. -/
theorem faultTable : Obligations.FaultTable := by
  intro s t w hinv hb hl h hp
  obtain ⟨w', hl', hat⟩ := hinv.sequencer hb
  obtain rfl : w = w' := Option.some.inj (hl.symm.trans hl')
  cases hd : decode w with
  | error e =>
    have hdec : s.phase = .decode := hat.resolve_right fun ⟨_, hi, _⟩ => nomatch hd.symm.trans hi
    obtain rfl := Host.Outcome.next.inj ((sequencerStep_decode_error hdec hl hd).symm.trans h)
    exact ⟨.illegalCommand, rfl, hdec, rfl, rfl⟩
  | ok i =>
    have hex : exec i s = .next t := by simpa only [sequencerStep, hb, if_true, hl, hd] using h
    rcases hat with hdec | ⟨j, hj, hm⟩
    · exact exec_decode_faultsOnly (allowed := mayRaise i s) hdec t hex hp
    · obtain rfl : i = j := Except.ok.inj (hd.symm.trans hj)
      exact exec_faultsOnly hinv.deviceOk hm t hex hp

end Sys2Proof.Machine
